-- ==== Sys2Proof/Word.lean ====
section
/-! DEFINITION. The word types of the machine and nothing else: a byte, a 32-bit word (virtual addresses, vector
addresses and AArch32 registers, spec rules R7, R34, R42) and a 64-bit doubleword (AArch64 registers, rules R78, R79). -/

namespace Sys2Proof

/-- A byte of instruction memory. -/
abbrev Byte := BitVec 8

/-- 32 bits: an AArch32 register, a virtual address, a vector address (R7: "virtual addresses and vector addresses are
32 bits"). -/
abbrev Word := BitVec 32

/-- 64 bits: an AArch64 general register `X<n>` (R78, R79) and an AArch64 program counter. -/
abbrev DWord := BitVec 64

end Sys2Proof
end

