-- ==== Sys2Proof/Syntax.lean ====
section
/-! DEFINITION. The instructions: one constructor per row of spec/opcode_table.json (rules R56, R61, R76 to R79), and
the instruction sets they belong to (R57). -/

namespace Sys2Proof

/-- R57, R59, R60: the three instruction sets of the opcode table. -/
inductive ISet where
  | a32
  | t32
  | a64
deriving DecidableEq, Repr

/-- The A32 condition field (R59: "any value except 1111"); the names and their order 0000 to 1110 are the family's
(PRESUMED, log entry 6; the spec gives the values of NE, 0001 (ES15), and of "always", 1110 (R61)). -/
inductive Cond where
  | eq | ne | cs | cc | mi | pl | vs | vc | hi | ls | ge | lt | gt | le | al
deriving DecidableEq, Repr

/-- The four register-access instructions of R56 in the six rows of the opcode table (R61). -/
inductive Instr where
  /-- `MRC{<c>} p14, 0, <Rt>, c0, c7, 0` in A32: read DBGVCR (R76). -/
  | mrcA32 (cond : Cond) (rt : Fin 16)
  /-- `MCR{<c>} p14, 0, <Rt>, c0, c7, 0` in A32: write DBGVCR (R77). -/
  | mcrA32 (cond : Cond) (rt : Fin 16)
  /-- `MRC p14, 0, <Rt>, c0, c7, 0` in T32: read DBGVCR (R76). -/
  | mrcT32 (rt : Fin 16)
  /-- `MCR p14, 0, <Rt>, c0, c7, 0` in T32: write DBGVCR (R77). -/
  | mcrT32 (rt : Fin 16)
  /-- `MRS <Xt>, DBGVCR32_EL2` (R78); `rt = 31` is `xzr`. -/
  | mrsA64 (rt : Fin 32)
  /-- `MSR DBGVCR32_EL2, <Xt>` (R79); `rt = 31` is `xzr`. -/
  | msrA64 (rt : Fin 32)
deriving DecidableEq, Repr

/-- The instruction set an instruction is encoded in (R61, column "set"). -/
def Instr.set : Instr → ISet
  | .mrcA32 _ _ => .a32
  | .mcrA32 _ _ => .a32
  | .mrcT32 _ => .t32
  | .mcrT32 _ => .t32
  | .mrsA64 _ => .a64
  | .msrA64 _ => .a64

end Sys2Proof
end

