-- ==== Sys2Proof/WellFormed.lean ====
section
/-! DEFINITION. The well-formedness of an instruction: the operand forms that rules R63 and R76 to R79 (decision D22)
call usable. The reserved condition 1111 has no term: `Cond` has the fifteen usable values, and the decoder refuses the
sixteenth by name. -/

namespace Sys2Proof

/-- R76, R77: "Operands: `Rt` in r0 to r14" (R63, D22: `Rt = 15` is refused). -/
def usableRt (rt : Fin 16) : Bool :=
  rt != 15

/-- R63, R76 to R79: whether an instruction is one of the usable forms. Every `Xt`, `xzr` among them, is usable in
MRS and MSR (R78, R79). -/
def Instr.wellFormed : Instr → Bool
  | .mrcA32 _ rt => usableRt rt
  | .mcrA32 _ rt => usableRt rt
  | .mrcT32 rt => usableRt rt
  | .mcrT32 rt => usableRt rt
  | .mrsA64 _ => true
  | .msrA64 _ => true

end Sys2Proof
end

