-- ==== Sys2Proof/Decode.lean ====
section
/-! DEFINITION. The decoder, total on any bytes and rejecting by name, and the encoder (rules R58 to R61, R63). Both
are written from the tables of R59, R60 and R61. -/

namespace Sys2Proof

/-- Why some bytes are no instruction of the opcode table. -/
inductive DecodeError where
  /-- Fewer bytes than the instruction needs. -/
  | truncated
  /-- An instruction outside the opcode table: R61, "an opaque *instruction at address A of length L*". -/
  | outsideTable
  /-- `cond = 1111` (R63, D22). -/
  | reservedCondition
  /-- `Rt = 15` (R63, D22). -/
  | unusableRt
deriving DecidableEq, Repr

/-- One row of the opcode map (R61): an instruction is the row's when `word &&& mask = pattern`. -/
structure OpcodeRow where
  set : ISet
  pattern : Word
  mask : Word
deriving DecidableEq, Repr

def rowMrcA32 : OpcodeRow := ⟨.a32, 0x0E100E17, 0x0FFF0FFF⟩
def rowMcrA32 : OpcodeRow := ⟨.a32, 0x0E000E17, 0x0FFF0FFF⟩
def rowMrcT32 : OpcodeRow := ⟨.t32, 0xEE100E17, 0xFFFF0FFF⟩
def rowMcrT32 : OpcodeRow := ⟨.t32, 0xEE000E17, 0xFFFF0FFF⟩
def rowMrsA64 : OpcodeRow := ⟨.a64, 0xD5340700, 0xFFFFFFE0⟩
def rowMsrA64 : OpcodeRow := ⟨.a64, 0xD5140700, 0xFFFFFFE0⟩

/-- R61: the complete opcode table. -/
def opcodeRows : List OpcodeRow :=
  [rowMrcA32, rowMcrA32, rowMrcT32, rowMcrT32, rowMrsA64, rowMsrA64]

/-- R61: `(word & mask) == match`. -/
def OpcodeRow.selects (r : OpcodeRow) (w : Word) : Bool :=
  w &&& r.mask == r.pattern

/-- Bits 31:28 of an A32 word (R59). -/
def condField (w : Word) : Option Cond :=
  match (w.extractLsb' 28 4).toNat with
  | 0 => some .eq
  | 1 => some .ne
  | 2 => some .cs
  | 3 => some .cc
  | 4 => some .mi
  | 5 => some .pl
  | 6 => some .vs
  | 7 => some .vc
  | 8 => some .hi
  | 9 => some .ls
  | 10 => some .ge
  | 11 => some .lt
  | 12 => some .gt
  | 13 => some .le
  | 14 => some .al
  | _ => none

/-- Bits 15:12 of an A32 or T32 word: `Rt` (R59). -/
def rtField (w : Word) : Fin 16 :=
  (w.extractLsb' 12 4).toFin

/-- Bits 4:0 of an A64 word: `Rt` (R60). -/
def xtField (w : Word) : Fin 32 :=
  (w.extractLsb' 0 5).toFin

/-- The operands of an A32 row, its unusable forms refused (R59, R63). -/
def a32Operands (build : Cond → Fin 16 → Instr) (w : Word) : Except DecodeError Instr :=
  match condField w with
  | none => .error .reservedCondition
  | some c => if usableRt (rtField w) then .ok (build c (rtField w)) else .error .unusableRt

/-- The operand of a T32 row, its unusable form refused (R59, R63). -/
def t32Operands (build : Fin 16 → Instr) (w : Word) : Except DecodeError Instr :=
  if usableRt (rtField w) then .ok (build (rtField w)) else .error .unusableRt

/-- R61: the instruction of a 32-bit word of a given instruction set. A T32 word is `hw1:hw2`. -/
def decodeWord (set : ISet) (w : Word) : Except DecodeError Instr :=
  match set with
  | .a32 =>
    if rowMrcA32.selects w then a32Operands .mrcA32 w
    else if rowMcrA32.selects w then a32Operands .mcrA32 w
    else .error .outsideTable
  | .t32 =>
    if rowMrcT32.selects w then t32Operands .mrcT32 w
    else if rowMcrT32.selects w then t32Operands .mcrT32 w
    else .error .outsideTable
  | .a64 =>
    if rowMrsA64.selects w then .ok (.mrsA64 (xtField w))
    else if rowMsrA64.selects w then .ok (.msrA64 (xtField w))
    else .error .outsideTable

/-- R58: whether a T32 instruction whose first halfword is `hw` is 32 bits long: bits 15:11 are 11101, 11110 or
11111. -/
def t32IsWide (hw : BitVec 16) : Bool :=
  29 ≤ (hw.extractLsb' 11 5).toNat

/-- A word from the four bytes at rising addresses: A32 and A64 little-endian (R58, R60), T32 as two little-endian
halfwords, bits 31:16 first (R59). -/
def wordOfBytes (set : ISet) (b0 b1 b2 b3 : Byte) : Word :=
  match set with
  | .a32 => b3 ++ b2 ++ b1 ++ b0
  | .t32 => b1 ++ b0 ++ b3 ++ b2
  | .a64 => b3 ++ b2 ++ b1 ++ b0

/-- The bytes of a word as the hardware stores them, the byte at the lowest address first (R58 to R60). -/
def bytesOfWord (set : ISet) (w : Word) : List Byte :=
  let b := fun k => w.extractLsb' (8 * k) 8
  match set with
  | .a32 => [b 0, b 1, b 2, b 3]
  | .t32 => [b 2, b 3, b 0, b 1]
  | .a64 => [b 0, b 1, b 2, b 3]

/-- The decoder: the instruction at the head of a list of bytes and the bytes that follow it, or why there is none. A
T32 instruction of 16 bits (R58) is outside the opcode table. -/
def decode (set : ISet) : List Byte → Except DecodeError (Instr × List Byte)
  | b0 :: b1 :: rest =>
    if set == .t32 && !t32IsWide (b1 ++ b0) then .error .outsideTable
    else
      match rest with
      | b2 :: b3 :: rest => (decodeWord set (wordOfBytes set b0 b1 b2 b3)).map (·, rest)
      | _ => .error .truncated
  | _ => .error .truncated

/-- The condition's four bits (R59). -/
def condBits : Cond → Word
  | .eq => 0
  | .ne => 1
  | .cs => 2
  | .cc => 3
  | .mi => 4
  | .pl => 5
  | .vs => 6
  | .vc => 7
  | .hi => 8
  | .ls => 9
  | .ge => 10
  | .lt => 11
  | .gt => 12
  | .le => 13
  | .al => 14

/-- An A32 or T32 word from its parts: `cond` at 31:28 and `Rt` at 15:12 (R59) on a row's pattern (R61). -/
def mrcMcrWord (pattern : Word) (cond : Word) (rt : Fin 16) : Word :=
  pattern ||| cond <<< 28 ||| BitVec.ofNat 32 rt.val <<< 12

/-- R59 to R61: the word of an instruction. -/
def encodeWord : Instr → Word
  | .mrcA32 c rt => mrcMcrWord rowMrcA32.pattern (condBits c) rt
  | .mcrA32 c rt => mrcMcrWord rowMcrA32.pattern (condBits c) rt
  | .mrcT32 rt => mrcMcrWord rowMrcT32.pattern 0 rt
  | .mcrT32 rt => mrcMcrWord rowMcrT32.pattern 0 rt
  | .mrsA64 rt => rowMrsA64.pattern ||| BitVec.ofNat 32 rt.val
  | .msrA64 rt => rowMsrA64.pattern ||| BitVec.ofNat 32 rt.val

/-- The encoder: the bytes of an instruction, the lowest address first. -/
def encode (i : Instr) : List Byte :=
  bytesOfWord i.set (encodeWord i)

/-- The instruction set a word of the opcode table is taken to belong to when only the word is given. The A32 rows with
`cond = 1110` and the T32 rows are the same numbers (R59: "the same 32 bits are used with `cond` replaced by `1110`");
such a word is taken as the T32 row's (DESIGN CHOICE, log entry 7). -/
def tableSet (w : Word) : ISet :=
  if rowMrsA64.selects w || rowMsrA64.selects w then .a64
  else if rowMrcT32.selects w || rowMcrT32.selects w then .t32
  else .a32

/-- The `nbits` low bits of a table word, the bits above them 0. -/
def tableWord (nbits w : Nat) : Word :=
  BitVec.ofNat 32 (w % 2 ^ nbits)

/-- The instruction the decoder reads from a word numbered as spec/opcode_table.json numbers it (a T32 word with its
first halfword in bits 31:16, as the table's rows have it). -/
def decodeTableWord (nbits w : Nat) : Option Instr :=
  let word := tableWord nbits w
  match decode (tableSet word) (bytesOfWord (tableSet word) word) with
  | .ok (i, _) => some i
  | .error _ => none

end Sys2Proof
end

