-- ==== Sys2Proof/Config.lean ====
section
/-! DEFINITION. The implementation parameters the source leaves open (rule R7, decisions D1, D2, D10) as one record of
plain data, and the free values: constants with no body, for every UNKNOWN value (`draw`, R11, D6), every CONSTRAINED
UNPREDICTABLE choice (`choose`, R11, D5) and every write whose visibility is open (R51, D15). -/

namespace Sys2Proof

/-- R5, R7: the form of vector catch that is implemented; fixed per implementation (R144). -/
inductive VCForm where
  | addressMatching
  | exceptionTrapping
deriving DecidableEq, Repr

/-- R7, R8: whether EL2 (or EL3) is implemented and, if so, the Execution state it is using. -/
inductive LevelCfg where
  | absent
  | a64
  | a32
deriving DecidableEq, Repr

/-- R95: the other synchronous exceptions that result from an instruction fetch: the three it recalls (K10), and any
other one the host PE has. -/
inductive FetchSource where
  | softwareStep
  | misalignedPc
  | instructionAbort
  | other (n : Nat)
deriving DecidableEq, Repr

/-- R94, R95: what `FetchPriority` orders: Breakpoint and address-matching Vector Catch together, and each of the others. -/
inductive FetchClass where
  | debug
  | source (f : FetchSource)
deriving DecidableEq, Repr

/-- R7: the configuration record. It is a field of the state that no step changes (R144), so that a statement about
every state is a statement about every implementation. -/
structure Config where
  /-- `VCForm` (R5, D1). -/
  form : VCForm
  /-- `EL2cfg` (R7, R8). -/
  el2 : LevelCfg
  /-- `EL3cfg` (R7, R8). -/
  el3 : LevelCfg
  /-- `FetchPriority` (R7, R95): the classes from the highest priority to the lowest; one that is not listed comes after
  all that are (log entry 22). -/
  fetchPriority : List FetchClass
deriving DecidableEq, Repr

namespace Config

/-- R8: Table G2-21 lists eight of the nine pairs; EL2 using AArch64 with EL3 using AArch32 "does not occur in the
table; a model refuses it". -/
def listed (c : Config) : Bool :=
  !(c.el2 == .a64 && c.el3 == .a32)

/-- The order R95 recalls, highest first (general knowledge, K10). -/
def recalledPriority : List FetchClass :=
  [.source .softwareStep, .source .misalignedPc, .source .instructionAbort, .debug]

/-- The places where the spec has a `choose` (R11). -/
inductive ChoiceSite where
  /-- R91: a 32-bit T32 instruction starting two bytes before a compared vector. -/
  | halfMatch
  /-- R125 in the address-matching form (R99). -/
  | abortVectorAddress
  /-- R125 in the exception-trapping form (R111). -/
  | abortVectorTrap
  /-- R94: a Breakpoint exception on the same instruction. -/
  | breakpoint
deriving DecidableEq, Repr

/-- The registers whose writes become visible to the generation and routing rules only at a context synchronisation
event (R51, R151). -/
inductive ControlReg where
  | dbgvcr
  | vbarS
  | vbarNS
  | highS
  | highNS
  | mvbar
  | tge
  | tde
deriving DecidableEq, Repr

/-- The places where the spec states no value: an UNKNOWN value (R119, R124) or a value of the host PE it does not
give. -/
inductive DrawSite where
  /-- IFAR (R119). -/
  | ifar
  /-- HIFAR (R124). -/
  | hifar
  /-- IFSR.FS of a Prefetch Abort that is no debug exception (not in the spec). -/
  | ifsr
  /-- HSR of a Hyp entry that is no debug exception (not in the spec). -/
  | hsr
  /-- DBGDSCRext.MOE after an abort or a Hyp entry of the host PE (not in the spec). -/
  | moe
  /-- The pc of an entry whose vector the spec does not give (N16). -/
  | vector
  /-- The link value of an entry whose preferred return address the spec does not give (N13, N16). -/
  | link
  /-- CPSR.{A, I, F} after an entry to Hyp mode or to an Exception level using AArch64 (K9). -/
  | masks
  /-- AArch32 register `k` after a change of Execution state (not in the spec). -/
  | gpr (k : Nat)
  /-- AArch64 register `X<k>` after a change of Execution state (not in the spec). -/
  | xreg (k : Nat)
deriving DecidableEq, Repr

/-- FREE VALUE (R11 `choose`, D5): the outcome at a site, `n` being the state's count of evaluations so far. -/
opaque choose : ChoiceSite → Nat → Bool

/-- FREE VALUE (R51 `choose`, D15): which of the values written to a register since the last context synchronisation
event an evaluation uses. -/
opaque visible : ControlReg → Nat → Nat

/-- FREE VALUE (R11 `draw`, D6): the value at a site. -/
opaque draw : DrawSite → Nat → DWord

end Config

end Sys2Proof
end

