-- ==== Sys2Proof/Machine/State.lean ====
section
/-! DEFINITION. The state of the machine as plain data: the PE the vector catch mechanism is attached to (rules R13 to
R41), the parameters of R7 that are functions of the state, the inputs of the host PE (R141), and the machine right
after reset; and the reasons a step can stop. -/

namespace Sys2Proof.Machine

/-! ### Modes, levels, Security state -/

/-- R36, K7: the AArch32 modes. The spec itself marks the list as general knowledge. -/
inductive Mode where
  | user | fiq | irq | supervisor | monitor | abort | hyp | undefined | system
deriving DecidableEq, Repr

/-- R12: the Exception levels. -/
inductive EL where
  | el0 | el1 | el2 | el3
deriving DecidableEq, Repr

/-- R12: the AArch32 privilege levels. -/
inductive PL where
  | pl0 | pl1 | pl2
deriving DecidableEq, Repr

/-- R37: the two Security states; read by the rules only where EL3 is implemented. -/
inductive SecurityState where
  | secure
  | nonSecure
deriving DecidableEq, Repr

/-- R3, R12: the Execution state the PE is in. In AArch32 the mode of the CPSR gives the Exception level; in AArch64 the
level stands here. -/
inductive ExecState where
  | aarch32
  | aarch64 (el : EL)
deriving DecidableEq, Repr

/-- The AArch32 status register CPSR, and a saved copy of it (SPSR), as the fields the spec names: N, Z, C, V (R40), IT,
E, A, I, F, T and M (R131, K9). Its bit positions are not in the spec and no rule needs them. -/
structure Psr where
  n : Bool
  z : Bool
  c : Bool
  v : Bool
  it : BitVec 8
  e : Bool
  a : Bool
  i : Bool
  f : Bool
  t : Bool
  m : Mode
deriving DecidableEq, Repr

/-- The saved status register of each mode that has one (R131 names SPSR_abt and SPSR_hyp; the others are the family's,
PRESUMED, log entry 8). -/
structure SavedPsrs where
  fiq : Psr
  irq : Psr
  svc : Psr
  mon : Psr
  abt : Psr
  hyp : Psr
  und : Psr
deriving DecidableEq, Repr

/-- What an Exception level using AArch64 saves on an entry to it and restores on a return from it (95_test_vectors.md
P5: ELR_EL3, SPSR_EL3). -/
structure A64Return where
  elr : DWord
  psr : Psr
  exec : ExecState
deriving DecidableEq, Repr

/-! ### DBGVCR and the registers whose writes become visible late -/

/-- R13 to R16, D20: the DBGVCR as a record of the 17 enable bits the source names. -/
structure Dbgvcr where
  sf : Bool
  si : Bool
  sd : Bool
  sp : Bool
  ss : Bool
  su : Bool
  nsf : Bool
  nsi : Bool
  nsd : Bool
  nsp : Bool
  nss : Bool
  nsu : Bool
  mf : Bool
  mi : Bool
  md : Bool
  mp : Bool
  ms : Bool
deriving DecidableEq, Repr

/-- R51: a register whose writes the generation and routing rules may or may not see before the next context
synchronisation event: its value and the values it had, newest first, since the last such event. -/
structure Windowed (α : Type) where
  cur : α
  old : List α
deriving DecidableEq, Repr

/-- R22, R23, R29: a register with one instance (the Secure field), or, where EL3 is using AArch32, one per Security state. -/
structure Banked (α : Type) where
  s : α
  ns : α
deriving DecidableEq, Repr

/-- R51, R151: "DBGVCR, VBAR, MVBAR, SCTLR.V, HCR.TGE or HDCR.TDE". -/
structure Controls where
  /-- DBGVCR, DBGVCR32_EL2 (R13, R20). -/
  dbgvcr : Windowed Dbgvcr
  /-- VBAR (R22). -/
  vbar : Banked (Windowed Word)
  /-- SCTLR.V (R23). -/
  high : Banked (Windowed Bool)
  /-- MVBAR (R24). -/
  mvbar : Windowed Word
  /-- HCR.TGE (R25). -/
  tge : Windowed Bool
  /-- HDCR.TDE (R26). -/
  tde : Windowed Bool
deriving DecidableEq, Repr

/-- The values of the controls that one evaluation of a generation or routing rule uses (R51). -/
structure View where
  dbgvcr : Dbgvcr
  vbar : Banked Word
  high : Banked Bool
  mvbar : Word
  tge : Bool
  tde : Bool
deriving DecidableEq, Repr

/-- The control fields the spec names that no generation or routing rule reads. -/
structure HostControls where
  /-- HCR.IMO, HCR.FMO, HCR.AMO (R27). -/
  imo : Bool
  fmo : Bool
  amo : Bool
  /-- SCR.IRQ, SCR.FIQ, SCR.EA (R28). -/
  scrIrq : Bool
  scrFiq : Bool
  scrEa : Bool
  /-- SCR.NS (SCR_EL3.NS): the Security state a return from Monitor mode or from EL3 enters (95_test_vectors.md P5;
  the field is the family's, PRESUMED, log entry 8). -/
  scrNs : Bool
  /-- SCTLR.TE and SCTLR.EE (R131). -/
  te : Banked Bool
  ee : Banked Bool
  /-- HSCTLR.TE and HSCTLR.EE (R131). -/
  hte : Bool
  hee : Bool
  /-- HVBAR (R131). -/
  hvbar : Word
deriving DecidableEq, Repr

/-! ### Syndrome registers -/

/-- R32: HSR as its three fields, EC (6 bits), IL, ISS (25 bits). -/
structure Hsr where
  ec : BitVec 6
  il : BitVec 1
  iss : BitVec 25
deriving DecidableEq, Repr

/-- R29 to R33: the registers written on taking the exception. -/
structure Syndrome where
  /-- IFSR.FS, per Security state where VBAR is (R29). -/
  ifsrFs : Banked (BitVec 5)
  /-- IFAR (R30). -/
  ifar : Word
  /-- DBGDSCRext.MOE (R31). -/
  moe : BitVec 4
  /-- HSR (R32). -/
  hsr : Hsr
  /-- HIFAR (R33). -/
  hifar : Word
deriving DecidableEq, Repr

/-! ### Vector tables, exception types, entries -/

/-- R66 (`Table`). -/
inductive Table where
  | localTable
  | secureLocal
  | nonSecureLocal
  | monitor
  | hyp
deriving DecidableEq, Repr

/-- R66 (`XType`): the exception types whose vectors the source lists. -/
inductive XType where
  | fiq | irq | dataAbort | prefetchAbort | svc | smc | undef
deriving DecidableEq, Repr

/-- R111: "`E.type` in `XType` or "other""; R129 names two of the others. -/
inductive EType where
  | x (t : XType)
  | monitorTrap
  | hypTrap
  | other
deriving DecidableEq, Repr

/-- Where an exception is taken to: an AArch32 mode in a Security state, or an Exception level using AArch64 (R103,
R110). -/
inductive Target where
  | mode (m : Mode) (ss : SecurityState)
  | aarch64 (el : EL)
deriving DecidableEq, Repr

/-- R111: an exception entry `E`: its type and its target. -/
structure Entry where
  etype : EType
  target : Target
deriving DecidableEq, Repr

/-- R14 to R16: the names of the 17 enable bits. -/
inductive EnableBit where
  | sf | si | sd | sp | ss | su
  | nsf | nsi | nsd | nsp | nss | nsu
  | mf | mi | md | mp | ms
deriving DecidableEq, Repr

/-- R71: an element of the enabled vector catch set: its bit, table, type and address. -/
structure CatchVector where
  bit : EnableBit
  table : Table
  xtype : XType
  addr : Word
deriving DecidableEq, Repr

/-! ### The parameters of R7 that are functions of the state -/

/-- A status register: the CPSR, the SPSR of a mode, the SPSR of an Exception level using AArch64. -/
inductive StatusReg where
  | cpsr
  | spsr (m : Mode)
  | spsrA64 (el : EL)
deriving DecidableEq, Repr

/-- A register, a field or a byte of memory, as a parameter of R7 may read it. -/
inductive StateField where
  | pc
  | gpr (k : Fin 33)
  | xreg (k : Fin 31)
  | elrHyp
  | elr (el : EL)
  /-- N, Z, C, V, E, A, I, F, T, then IT, from the most significant bit. -/
  | status (r : StatusReg)
  | enable (b : EnableBit)
  | vbar (ss : SecurityState)
  | high (ss : SecurityState)
  | mvbar
  | tge
  | tde
  | hcr
  | scr
  | te (ss : SecurityState)
  | ee (ss : SecurityState)
  | hte
  | hee
  | hvbar
  | ifsrFs (ss : SecurityState)
  | ifar
  | moe
  | hsr
  | hifar
  | byte (a : DWord)
deriving DecidableEq, Repr

/-- A function "state to Boolean" of R7 as plain data: a formula over the architectural state (`StatePred.eval`,
Machine/Ops.lean). Every function of the registers and of finitely many bytes of memory is one. -/
inductive StatePred where
  | const (b : Bool)
  | exec (e : ExecState)
  | security (ss : SecurityState)
  | mode (r : StatusReg) (m : Mode)
  /-- The Execution state that the SPSR of an Exception level using AArch64 holds. -/
  | savedExec (el : EL) (e : ExecState)
  /-- Bit `k` of a field. -/
  | bit (f : StateField) (k : Nat)
  | not (p : StatePred)
  | and (p q : StatePred)
  | or (p q : StatePred)
deriving DecidableEq, Repr

/-- R94: where an instruction also generates a Breakpoint exception. -/
structure Breakpoint where
  addr : Word
  cond : StatePred
deriving DecidableEq, Repr

/-- R95: another synchronous exception of an instruction's fetch: where, in which states, its place in `FetchPriority`,
and its entry. -/
structure FetchException where
  addr : DWord
  cond : StatePred
  source : FetchSource
  entry : Entry
deriving DecidableEq, Repr

/-- R7: the parameters that are functions of the state, each as plain data that is evaluated in the state each check is
made in. The host PE may change them between two instructions (`HostInput.parameters`). -/
structure Parameters where
  /-- `DebugExceptionsEnabled(st)`. -/
  debugEnabled : StatePred
  /-- `RoutedToAArch64EL2(st)`. -/
  routedToA64EL2 : StatePred
  /-- Whether an Undefined Instruction exception is routed to EL2 using AArch64 (R137: the routing of the other exceptions
  by AArch64 controls is the host PE's). -/
  undefToA64EL2 : StatePred
  /-- Whether a trap of the accesses to the DBGVCR is configured that catches an access made in the state (R136, K17(g):
  HDCR.TDA, MDCR_EL2.TDA, MDCR_EL3.TDA, the OS Lock). -/
  accessTrapped : StatePred
  /-- `BreakpointAt(st, A)` (R94). -/
  breakpoints : List Breakpoint
  /-- The other exceptions that `FetchPriority` orders (R95). -/
  fetchExceptions : List FetchException
deriving DecidableEq, Repr

/-! ### The host PE's inputs (R141: "everything not named here is the host model's") -/

/-- One thing an instruction outside the opcode table writes. -/
inductive HostWrite where
  /-- A general register of the current AArch32 mode, r0 to r14. -/
  | gpr (n : Fin 16) (v : Word)
  /-- An AArch64 register X0 to X30. -/
  | xreg (n : Fin 31) (v : DWord)
  /-- The condition flags. -/
  | flags (n z c v : Bool)
  /-- The CPSR (but for T, which only a branch or a return changes). -/
  | psr (p : Psr)
  /-- A byte of memory. -/
  | byte (a : DWord) (b : Byte)
  /-- VBAR of a Security state. -/
  | vbar (ss : SecurityState) (v : Word)
  /-- SCTLR.V of a Security state. -/
  | high (ss : SecurityState) (b : Bool)
  | mvbar (v : Word)
  /-- HCR.TGE. -/
  | tge (b : Bool)
  /-- HDCR.TDE. -/
  | tde (b : Bool)
  /-- HCR.{IMO, FMO, AMO}. -/
  | hcr (imo fmo amo : Bool)
  /-- SCR.{IRQ, FIQ, EA, NS}. -/
  | scr (irq fiq ea ns : Bool)
  /-- SCTLR.{TE, EE} of a Security state. -/
  | sctlr (ss : SecurityState) (te ee : Bool)
  /-- HSCTLR.{TE, EE}. -/
  | hsctlr (te ee : Bool)
  | hvbar (v : Word)
  /-- ELR and SPSR of EL1, EL2 or EL3 using AArch64. -/
  | a64Return (el : EL) (r : A64Return)
deriving DecidableEq, Repr

/-- How an instruction outside the opcode table ends. -/
inductive HostFlow where
  /-- The next instruction in sequence. -/
  | next
  /-- The next instruction in sequence, after a context synchronisation event (`ISB`, K12). -/
  | sync
  /-- A branch to an address; in AArch32 `t32` is the instruction set it selects. -/
  | branch (target : DWord) (t32 : Bool)
  /-- The instruction takes an exception (a Supervisor Call, a Data Abort, ...). -/
  | takes (e : Entry)
  /-- `SUBS PC, LR, #imm`: exception return from an AArch32 PL1 mode (R132). -/
  | subsPcLr (imm : Word)
  /-- `ERET`: exception return from Hyp mode (R132) or from an Exception level using AArch64 (P5). -/
  | eret
deriving DecidableEq, Repr

/-- What the host PE makes of one instruction outside the opcode table: what it writes, then how it ends. -/
structure HostEffect where
  writes : List HostWrite
  flow : HostFlow
deriving DecidableEq, Repr

/-- What the host PE brings to one PE step (R141). -/
inductive HostInput where
  /-- An asynchronous exception due before the next instruction (R96, R134). -/
  | exception (e : Entry)
  /-- No exception is due; if the next instruction is outside the opcode table, this is what it does. -/
  | instruction (eff : HostEffect)
  /-- The parameters of R7 change. -/
  | parameters (p : Parameters)
deriving DecidableEq, Repr

/-! ### The state -/

structure State where
  /-- The implementation (R7); no step changes it (R144). -/
  cfg : Config
  /-- Whether EL1 is using AArch32 (R7). -/
  el1is32 : Bool
  /-- Whether EL0 is using AArch32 (R7). -/
  el0is32 : Bool
  /-- The Execution state, and in AArch64 the Exception level (R3, R38). -/
  exec : ExecState
  /-- The Security state (R37). -/
  ss : SecurityState
  /-- The program counter: the virtual address of the next instruction (R34); its low half in AArch32. -/
  pc : DWord
  /-- CPSR (R40, R131). -/
  cpsr : Psr
  /-- The AArch32 general registers, all banks (R39; `gprIndex` gives the bank of a mode). -/
  gpr : Vector Word 33
  /-- The saved status registers (R131). -/
  spsr : SavedPsrs
  /-- ELR_hyp (R131). -/
  elrHyp : Word
  /-- The AArch64 general registers X0 to X30 (R78, R79). -/
  xreg : Vector DWord 31
  /-- ELR and SPSR of EL1, EL2 and EL3 using AArch64 (95_test_vectors.md P5). -/
  ret1 : A64Return
  ret2 : A64Return
  ret3 : A64Return
  /-- The registers the generation and routing rules read (R13 to R26). -/
  ctl : Controls
  /-- The other control fields the spec names (R27, R28, R131). -/
  sys : HostControls
  /-- The syndrome registers (R29 to R33). -/
  syn : Syndrome
  /-- The parameters of R7 that are functions of the state. -/
  params : Parameters
  /-- What the host PE brings to the next PE steps, in order (R141); the model's own field. -/
  inputs : List HostInput
  /-- The exception entry just made whose `AfterEntry` (R141) is still due; the model's own field. -/
  entered : Option Entry
  /-- Memory, in canonical form. -/
  mem : List Host.Cell
  /-- How many evaluations have drawn a free value so far (R11); the model's own field. -/
  draws : Nat
deriving DecidableEq, Repr

/-! ### Faults and refusals -/

/-- Why the machine stops with a fault: it never does, since every address of the 2^64 bytes is readable (log entries 3
and 24) and every exception the spec describes is taken. -/
inductive Fault where
deriving DecidableEq, Repr

/-- Why the machine refuses to give a meaning. -/
inductive Refusal where
  /-- Raised by an arm of `exec` that has no meaning. Safe. -/
  | notModelled (mnemonic : String)
  /-- R63, D22: `Rt = 15` or `cond = 1111` in MRC or MCR. Raised by their meanings and by the step. Safe. -/
  | unusableForm
  /-- R78, R79, D22: an access to DBGVCR32_EL2 other than at EL2 or EL3 using AArch64. Raised by the meanings of MRS
  and MSR. Safe. -/
  | debugRegisterLevel
  /-- R136, D22: an access to DBGVCR or DBGVCR32_EL2 where a trap of it is configured. Raised by the meanings of MRC, MCR,
  MRS and MSR. Safe. -/
  | accessTrapConfigured
  /-- R8, D2: EL2 using AArch64 with EL3 using AArch32. Raised by the step. Safe. -/
  | configurationNotListed
  /-- R45, D8: VBAR[4:0] or MVBAR[4:0] is not 0. Raised by the step. Safe. -/
  | vectorBaseMisaligned
  /-- R115, R128, D4: a debug exception that would be taken to EL2 using AArch64. Raised by `takeDebug`. Safe. -/
  | routedToAArch64EL2
  /-- R61: an instruction outside the opcode table for which the host PE brings no effect. Raised by the step. Safe. -/
  | hostInstruction
  /-- The host PE's input is an exception to a target it may not be taken to (log entry 17), a write to a register that
  does not exist there, or writes that leave the Exception level or a legal mode (log entry 12). Raised by `hostException` and `hostRun`. Safe. -/
  | hostInputIllegal
  /-- An exception return that restores a state the implementation does not have, or from a mode with no saved status.
  Raised by the returns. Safe. -/
  | illegalReturn
deriving DecidableEq, Repr

/-! ### Reset -/

/-- Log entry 4: the CPSR after reset: Supervisor mode, A32, with A, I and F set (the family's, PRESUMED). -/
def Psr.reset : Psr :=
  { n := false, z := false, c := false, v := false, it := 0, e := false, a := true, i := true, f := true, t := false
    m := .supervisor }

/-- A saved status register that nothing has written: every flag clear, A32, and mode Supervisor, since a status holds
some mode and R142 gives none (DESIGN CHOICE, log entry 4). -/
def Psr.zero : Psr :=
  { n := false, z := false, c := false, v := false, it := 0, e := false, a := false, i := false, f := false
    t := false, m := .supervisor }

/-- A return record that nothing has written: address 0, that status, and Execution state AArch32, so that an ERET right
after reset goes to Supervisor mode at 0 (DESIGN CHOICE, log entry 4; R142 gives none). -/
def A64Return.zero : A64Return :=
  { elr := 0, psr := Psr.zero, exec := .aarch32 }

/-- A DBGVCR with no enable bit set. -/
def Dbgvcr.zero : Dbgvcr :=
  { sf := false, si := false, sd := false, sp := false, ss := false, su := false
    nsf := false, nsi := false, nsd := false, nsp := false, nss := false, nsu := false
    mf := false, mi := false, md := false, mp := false, ms := false }

/-- No debug exception is enabled, no routing to AArch64, no trap, no breakpoint, no fetch exception (log entry 4). -/
def Parameters.quiet : Parameters :=
  { debugEnabled := .const false, routedToA64EL2 := .const false, undefToA64EL2 := .const false
    accessTrapped := .const false, breakpoints := [], fetchExceptions := [] }

/-- The machine right after reset. R41 and R142 give no reset value ("unspecified"): every value here is the model's own
(log entries 1 and 4); `State.resetWith` (Machine/Ops.lean) is the reset state for every choice of the values R41
leaves open. -/
def State.reset : State :=
  { cfg := { form := .addressMatching, el2 := .absent, el3 := .a64
             fetchPriority := Config.recalledPriority }
    el1is32 := true
    el0is32 := true
    exec := .aarch64 .el3
    ss := .secure
    pc := 0
    cpsr := Psr.reset
    gpr := Vector.replicate 33 0
    spsr := { fiq := Psr.zero, irq := Psr.zero, svc := Psr.zero, mon := Psr.zero, abt := Psr.zero, hyp := Psr.zero
              und := Psr.zero }
    elrHyp := 0
    xreg := Vector.replicate 31 0
    ret1 := A64Return.zero
    ret2 := A64Return.zero
    ret3 := A64Return.zero
    ctl := { dbgvcr := ⟨Dbgvcr.zero, []⟩, vbar := ⟨⟨0, []⟩, ⟨0, []⟩⟩, high := ⟨⟨false, []⟩, ⟨false, []⟩⟩
             mvbar := ⟨0, []⟩, tge := ⟨false, []⟩, tde := ⟨false, []⟩ }
    sys := { imo := false, fmo := false, amo := false, scrIrq := false, scrFiq := false, scrEa := false
             scrNs := false, te := ⟨false, false⟩, ee := ⟨false, false⟩, hte := false, hee := false, hvbar := 0 }
    syn := { ifsrFs := ⟨0, 0⟩, ifar := 0, moe := 0, hsr := { ec := 0, il := 0, iss := 0 }, hifar := 0 }
    params := Parameters.quiet
    inputs := []
    entered := none
    mem := []
    draws := 0 }

end Sys2Proof.Machine
end

