-- ==== Sys2Proof/Machine/EnableSet.lean ====
section
/-! DEFINITION. Spec file 40: from enable bits to the enabled vector catch set (rules R65 to R75), the packing of the
DBGVCR (R18, R19, R76, R77), and the values of the controls one evaluation uses (R51). -/

namespace Sys2Proof.Machine

/-! ### Late visibility of register writes (R51, D15) -/

/-- R51: the value an evaluation uses: the register's own after a context synchronisation event, else any of the
values it has had since (the free value `k` says which). -/
def Windowed.seen {α : Type} (w : Windowed α) (k : Nat) : α :=
  match w.old with
  | [] => w.cur
  | o => ((w.cur :: o)[k % (o.length + 1)]?).getD w.cur

/-- A write: the value so far may still be used until the next context synchronisation event (R51). -/
def Windowed.write {α : Type} (w : Windowed α) (v : α) : Windowed α :=
  { cur := v, old := w.cur :: w.old }

/-- A context synchronisation event: from now on only the new value is used (R51). -/
def Windowed.sync {α : Type} (w : Windowed α) : Windowed α :=
  { w with old := [] }

/-- Whether a property holds of every value an evaluation may use. -/
def Windowed.all {α : Type} (w : Windowed α) (p : α → Bool) : Bool :=
  p w.cur && w.old.all p

def Banked.map {α β : Type} (b : Banked α) (f : α → β) : Banked β :=
  { s := f b.s, ns := f b.ns }

/-- Whether a register has the Non-secure instance in use for a Security state: R22 has it "banked by Security state when
EL3 is using AArch32 and ... a single register otherwise" (K4 for SCTLR, K17(f) for IFSR; log entry 21). -/
def usesNs (cfg : Config) (ss : SecurityState) : Bool :=
  cfg.el3 == .a32 && ss == .nonSecure

/-- R22, R23, R29, D7: the instance that exceptions taken to a Security state use; where the implementation has one
instance, that one. -/
def Banked.of {α : Type} (b : Banked α) (cfg : Config) (ss : SecurityState) : α :=
  if usesNs cfg ss then b.ns else b.s

/-- A write to the instance of a Security state. -/
def Banked.write {α : Type} (b : Banked α) (cfg : Config) (ss : SecurityState) (v : α) : Banked α :=
  if usesNs cfg ss then { b with ns := v } else { b with s := v }

/-- A context synchronisation event (R51, K12). -/
def Controls.sync (c : Controls) : Controls :=
  { dbgvcr := c.dbgvcr.sync
    vbar := c.vbar.map Windowed.sync
    high := c.high.map Windowed.sync
    mvbar := c.mvbar.sync
    tge := c.tge.sync
    tde := c.tde.sync }

/-- The values in the registers. -/
def Controls.current (c : Controls) : View :=
  { dbgvcr := c.dbgvcr.cur
    vbar := c.vbar.map Windowed.cur
    high := c.high.map Windowed.cur
    mvbar := c.mvbar.cur
    tge := c.tge.cur
    tde := c.tde.cur }

/-- R51: the values evaluation number `n` uses, each register's old or new one. -/
def Controls.view (c : Controls) (n : Nat) : View :=
  { dbgvcr := c.dbgvcr.seen (Config.visible .dbgvcr n)
    vbar := ⟨c.vbar.s.seen (Config.visible .vbarS n), c.vbar.ns.seen (Config.visible .vbarNS n)⟩
    high := ⟨c.high.s.seen (Config.visible .highS n), c.high.ns.seen (Config.visible .highNS n)⟩
    mvbar := c.mvbar.seen (Config.visible .mvbar n)
    tge := c.tge.seen (Config.visible .tge n)
    tde := c.tde.seen (Config.visible .tde n) }

/-! ### Enable bits -/

/-- R66: the offset of an exception type within a vector table. -/
def offset (x : XType) : Word :=
  match x with
  | .fiq => 0x1C
  | .irq => 0x18
  | .dataAbort => 0x10
  | .prefetchAbort => 0x0C
  | .svc => 0x08
  | .smc => 0x08
  | .undef => 0x04

/-- R67: the enable bit of a table and a type; none where there is no enable bit (R17). -/
def enableBit (t : Table) (x : XType) : Option EnableBit :=
  match t, x with
  | .localTable, .fiq => some .sf
  | .localTable, .irq => some .si
  | .localTable, .dataAbort => some .sd
  | .localTable, .prefetchAbort => some .sp
  | .localTable, .svc => some .ss
  | .localTable, .undef => some .su
  | .localTable, .smc => none
  | .secureLocal, .fiq => some .sf
  | .secureLocal, .irq => some .si
  | .secureLocal, .dataAbort => some .sd
  | .secureLocal, .prefetchAbort => some .sp
  | .secureLocal, .svc => some .ss
  | .secureLocal, .undef => some .su
  | .secureLocal, .smc => none
  | .nonSecureLocal, .fiq => some .nsf
  | .nonSecureLocal, .irq => some .nsi
  | .nonSecureLocal, .dataAbort => some .nsd
  | .nonSecureLocal, .prefetchAbort => some .nsp
  | .nonSecureLocal, .svc => some .nss
  | .nonSecureLocal, .undef => some .nsu
  | .nonSecureLocal, .smc => none
  | .monitor, .fiq => some .mf
  | .monitor, .irq => some .mi
  | .monitor, .dataAbort => some .md
  | .monitor, .prefetchAbort => some .mp
  | .monitor, .smc => some .ms
  | .monitor, .svc => none
  | .monitor, .undef => none
  | .hyp, _ => none

/-- R14, R15, R16: the group an enable bit belongs to: Local or Secure Local, Non-secure Local, Monitor. -/
inductive BitGroup where
  | secure
  | nonSecure
  | monitor
deriving DecidableEq, Repr

def EnableBit.group (b : EnableBit) : BitGroup :=
  match b with
  | .sf => .secure
  | .si => .secure
  | .sd => .secure
  | .sp => .secure
  | .ss => .secure
  | .su => .secure
  | .nsf => .nonSecure
  | .nsi => .nonSecure
  | .nsd => .nonSecure
  | .nsp => .nonSecure
  | .nss => .nonSecure
  | .nsu => .nonSecure
  | .mf => .monitor
  | .mi => .monitor
  | .md => .monitor
  | .mp => .monitor
  | .ms => .monitor

/-- R18, R68 (`BitExists`). -/
def bitExists (cfg : Config) (b : EnableBit) : Bool :=
  match b.group with
  | .secure => true
  | .nonSecure => cfg.el3 != .absent
  | .monitor => cfg.el3 == .a32

/-- The value of an enable bit. -/
def Dbgvcr.get (d : Dbgvcr) (b : EnableBit) : Bool :=
  match b with
  | .sf => d.sf
  | .si => d.si
  | .sd => d.sd
  | .sp => d.sp
  | .ss => d.ss
  | .su => d.su
  | .nsf => d.nsf
  | .nsi => d.nsi
  | .nsd => d.nsd
  | .nsp => d.nsp
  | .nss => d.nss
  | .nsu => d.nsu
  | .mf => d.mf
  | .mi => d.mi
  | .md => d.md
  | .mp => d.mp
  | .ms => d.ms

/-- R68 (`Enabled`). -/
def enabled (cfg : Config) (d : Dbgvcr) (b : EnableBit) : Bool :=
  bitExists cfg b && d.get b

/-- R19: the position of an enable bit in the 32-bit DBGVCR (general knowledge, K2). -/
def bitPos (b : EnableBit) : Nat :=
  match b with
  | .su => 1
  | .ss => 2
  | .sp => 3
  | .sd => 4
  | .si => 6
  | .sf => 7
  | .ms => 10
  | .mp => 11
  | .md => 12
  | .mi => 14
  | .mf => 15
  | .nsu => 25
  | .nss => 26
  | .nsp => 27
  | .nsd => 28
  | .nsi => 30
  | .nsf => 31

/-- All enable bits (R14 to R16). -/
def allBits : List EnableBit :=
  [.sf, .si, .sd, .sp, .ss, .su, .nsf, .nsi, .nsd, .nsp, .nss, .nsu, .mf, .mi, .md, .mp, .ms]

/-- R76 (`Pack`): "places each existing enable bit at its position ... and 0 everywhere else". -/
def pack (cfg : Config) (d : Dbgvcr) : Word :=
  allBits.foldl (fun w b => if enabled cfg d b then w ||| BitVec.twoPow 32 (bitPos b) else w) 0

/-- R77, R79: the value a write leaves in an enable bit: bit `pos b` of the word if the bit exists; a RES0 bit ignores
the write (R18). -/
def writtenBit (cfg : Config) (w : Word) (d : Dbgvcr) (b : EnableBit) : Bool :=
  if bitExists cfg b then w.getLsbD (bitPos b) else d.get b

/-- R77, R79: the DBGVCR after a write of a word. -/
def Dbgvcr.writeWord (cfg : Config) (w : Word) (d : Dbgvcr) : Dbgvcr :=
  { sf := writtenBit cfg w d .sf
    si := writtenBit cfg w d .si
    sd := writtenBit cfg w d .sd
    sp := writtenBit cfg w d .sp
    ss := writtenBit cfg w d .ss
    su := writtenBit cfg w d .su
    nsf := writtenBit cfg w d .nsf
    nsi := writtenBit cfg w d .nsi
    nsd := writtenBit cfg w d .nsd
    nsp := writtenBit cfg w d .nsp
    nss := writtenBit cfg w d .nss
    nsu := writtenBit cfg w d .nsu
    mf := writtenBit cfg w d .mf
    mi := writtenBit cfg w d .mi
    md := writtenBit cfg w d .md
    mp := writtenBit cfg w d .mp
    ms := writtenBit cfg w d .ms }

/-- R21, K3: DBGDEVID.VectorCatch, read-only: 0 for the address-matching form, 1 for the exception-trapping form. -/
def dbgdevidVectorCatch (cfg : Config) : BitVec 4 :=
  match cfg.form with
  | .addressMatching => 0
  | .exceptionTrapping => 1

/-! ### Vector addresses and the enabled vector catch set -/

/-- R69 (`VectorBase`). The Hyp table's base is "not used by any rule". -/
def vectorBase (cfg : Config) (v : View) (t : Table) : Word :=
  match t with
  | .localTable => if v.high.s then 0xFFFF0000 else v.vbar.s
  | .secureLocal => if v.high.of cfg .secure then 0xFFFF0000 else v.vbar.of cfg .secure
  | .nonSecureLocal => if v.high.of cfg .nonSecure then 0xFFFF0000 else v.vbar.of cfg .nonSecure
  | .monitor => v.mvbar
  | .hyp => 0

/-- R70 (`VectorAddr`): addition modulo 2^32. -/
def vectorAddr (cfg : Config) (v : View) (t : Table) (x : XType) : Word :=
  vectorBase cfg v t + offset x

/-- R8, R66: the tables that exist in an implementation. -/
def tables (cfg : Config) : List Table :=
  (if cfg.el3 == .absent then [.localTable] else [.secureLocal, .nonSecureLocal])
    ++ (if cfg.el3 == .a32 then [.monitor] else [])
    ++ (if cfg.el2 == .a32 then [.hyp] else [])

/-- R66: the exception types. -/
def xtypes : List XType :=
  [.fiq, .irq, .dataAbort, .prefetchAbort, .svc, .smc, .undef]

/-- R71: the element of a table and a type, where its enable bit is defined and enabled. -/
def catchVector (cfg : Config) (v : View) (t : Table) (x : XType) : Option CatchVector :=
  match enableBit t x with
  | none => none
  | some b => if enabled cfg v.dbgvcr b then some ⟨b, t, x, vectorAddr cfg v t x⟩ else none

/-- R71 (`EnabledSet`). -/
def enabledSet (cfg : Config) (v : View) : List CatchVector :=
  (tables cfg).flatMap fun t => xtypes.filterMap fun x => catchVector cfg v t x

end Sys2Proof.Machine
end

