-- ==== Sys2Proof/Machine/Flags.lean ====
section
/-! DEFINITION. The condition code check of the A32 and T32 forms (rules R12, R76, R77). The mechanism itself reads and
writes no flag (R40): the check is the only reader. -/

namespace Sys2Proof.Machine

/-- The test of a condition against N, Z, C, V (R12: "the test of an A32/T32 instruction's condition against the
flags"). The test of each condition is the family's (PRESUMED, log entry 6). -/
def condHolds (c : Cond) (p : Psr) : Bool :=
  match c with
  | .eq => p.z
  | .ne => !p.z
  | .cs => p.c
  | .cc => !p.c
  | .mi => p.n
  | .pl => !p.n
  | .vs => p.v
  | .vc => !p.v
  | .hi => p.c && !p.z
  | .ls => !p.c || p.z
  | .ge => p.n == p.v
  | .lt => p.n != p.v
  | .gt => !p.z && p.n == p.v
  | .le => p.z || p.n != p.v
  | .al => true

/-- The condition an IT block gives its current instruction, from IT[7:4] (PRESUMED, log entry 6). The spec gives
1111 no condition (R59 excludes it from the A32 field); taking it as always is the family's (PRESUMED, log entry 6). -/
def itCond (it : BitVec 8) : Cond :=
  match (it.extractLsb' 4 4).toNat with
  | 0 => .eq
  | 1 => .ne
  | 2 => .cs
  | 3 => .cc
  | 4 => .mi
  | 5 => .pl
  | 6 => .vs
  | 7 => .vc
  | 8 => .hi
  | 9 => .ls
  | 10 => .ge
  | 11 => .lt
  | 12 => .gt
  | 13 => .le
  | _ => .al

/-- Whether a T32 instruction stands in an IT block: IT[3:0] is not 0 (PRESUMED, log entry 6). -/
def inItBlock (it : BitVec 8) : Bool :=
  it.extractLsb' 0 4 != 0

/-- `ConditionPassed()` of a T32 instruction (R76: "A32/T32 condition"): the condition of its IT block, or always
outside one. -/
def itPassed (p : Psr) : Bool :=
  !inItBlock p.it || condHolds (itCond p.it) p

/-- The IT state after one T32 instruction (PRESUMED, log entry 6). -/
def itAdvance (it : BitVec 8) : BitVec 8 :=
  if it.extractLsb' 0 3 == 0 then 0 else it.extractLsb' 5 3 ++ it.extractLsb' 0 4 ++ 0#1

end Sys2Proof.Machine
end

