-- ==== Sys2Proof/Machine/Operands.lean ====
section
/-! DEFINITION. The operand forms of the register-access instructions: the transfer register `Rt` of MRC and MCR in the
register bank of the current mode, and `Xt` of MRS and MSR with `xzr` (rules R39, R62, R76 to R79). The layout of the
banks is the family's (PRESUMED, log entry 8). -/

namespace Sys2Proof.Machine

/-- The stack pointer of a mode in `State.gpr`. -/
def spIndex (m : Mode) : Fin 33 :=
  match m with
  | .user => 13
  | .system => 13
  | .fiq => 20
  | .irq => 22
  | .supervisor => 24
  | .abort => 26
  | .undefined => 28
  | .monitor => 30
  | .hyp => 32

/-- The link register of a mode in `State.gpr` (R131: LR_abt; 95_test_vectors.md P1: LR_svc); Hyp mode uses the one of
User mode, and returns through ELR_hyp. -/
def lrIndex (m : Mode) : Fin 33 :=
  match m with
  | .user => 14
  | .system => 14
  | .hyp => 14
  | .fiq => 21
  | .irq => 23
  | .supervisor => 25
  | .abort => 27
  | .undefined => 29
  | .monitor => 31

/-- Where general register `n` of a mode stands in `State.gpr`; none for r15, which is no transfer register (R63). -/
def gprIndex (m : Mode) (n : Fin 16) : Option (Fin 33) :=
  if n.val < 8 then some (Fin.ofNat 33 n.val)
  else if n.val < 13 then some (Fin.ofNat 33 (if m = .fiq then n.val + 7 else n.val))
  else if n.val = 13 then some (spIndex m)
  else if n.val = 14 then some (lrIndex m)
  else none

/-- A copy of the state with one AArch32 general register written. -/
def State.writeGpr (s : State) (k : Fin 33) (v : Word) : State :=
  { s with gpr := s.gpr.set k v }

/-- `X[Xt]` as a source (R79): "x0 to x30, or xzr (writes zero)". -/
def State.readX (s : State) (n : Fin 32) : DWord :=
  if h : n.val < 31 then s.xreg[n.val] else 0

/-- `X[Xt]` as a destination (R78): "x0 to x30, or xzr (result discarded)". -/
def State.writeX (s : State) (n : Fin 32) (v : DWord) : State :=
  if h : n.val < 31 then { s with xreg := s.xreg.set n.val v } else s

end Sys2Proof.Machine
end

