-- ==== Sys2Proof/Machine/Ops.lean ====
section
/-! DEFINITION. The named operations over memory and registers, the instruction fetch, taking an exception as one
shared operation and the return from one (rules R3, R34, R35, R38, R58, R126, R131, R132). -/

namespace Sys2Proof.Machine

/-! ### Memory: a list of cells with strictly rising addresses, none of which holds what an unlisted address reads as -/

/-- What a byte of memory that nothing has written reads as (log entry 3). -/
def Memory.unwritten : Byte := 0

/-- The byte at an address. -/
def Memory.read (m : List Host.Cell) (a : Nat) : Byte :=
  match m with
  | [] => Memory.unwritten
  | (k, b) :: rest => if k = a then b else Memory.read rest a

/-- A cell put before a list, unless it holds what an unlisted address reads as. -/
def Memory.cell (a : Nat) (b : Byte) (rest : List Host.Cell) : List Host.Cell :=
  if b = Memory.unwritten then rest else (a, b) :: rest

/-- One byte written, the canonical form kept. -/
def Memory.write (m : List Host.Cell) (a : Nat) (b : Byte) : List Host.Cell :=
  match m with
  | [] => Memory.cell a b []
  | (k, c) :: rest =>
    if a < k then Memory.cell a b ((k, c) :: rest)
    else if a = k then Memory.cell a b rest
    else (k, c) :: Memory.write rest a b

/-- The canonical form of a list that starts at a bound or above: its addresses rise strictly, and no cell holds what an
unlisted address reads as. -/
def Memory.wfFrom (lo : Nat) (m : List Host.Cell) : Bool :=
  match m with
  | [] => true
  | (k, b) :: rest => decide (lo ≤ k) && b != Memory.unwritten && Memory.wfFrom (k + 1) rest

/-- The canonical form. -/
def Memory.wf (m : List Host.Cell) : Bool :=
  Memory.wfFrom 0 m

/-! ### Saved status and return registers -/

/-- A saved status register by mode; none for User and System mode, which have none. -/
def SavedPsrs.read (p : SavedPsrs) (m : Mode) : Option Psr :=
  match m with
  | .user => none
  | .system => none
  | .fiq => some p.fiq
  | .irq => some p.irq
  | .supervisor => some p.svc
  | .monitor => some p.mon
  | .abort => some p.abt
  | .hyp => some p.hyp
  | .undefined => some p.und

/-- `SPSR_<mode> <- v`. -/
def SavedPsrs.write (p : SavedPsrs) (m : Mode) (v : Psr) : SavedPsrs :=
  match m with
  | .user => p
  | .system => p
  | .fiq => { p with fiq := v }
  | .irq => { p with irq := v }
  | .supervisor => { p with svc := v }
  | .monitor => { p with mon := v }
  | .abort => { p with abt := v }
  | .hyp => { p with hyp := v }
  | .undefined => { p with und := v }

/-- ELR and SPSR of an Exception level using AArch64. -/
def State.a64Return (s : State) (el : EL) : Option A64Return :=
  match el with
  | .el0 => none
  | .el1 => some s.ret1
  | .el2 => some s.ret2
  | .el3 => some s.ret3

/-- A write to them. -/
def State.writeA64Return (s : State) (el : EL) (r : A64Return) : State :=
  match el with
  | .el0 => s
  | .el1 => { s with ret1 := r }
  | .el2 => { s with ret2 := r }
  | .el3 => { s with ret3 := r }

/-! ### The parameters of R7 that are functions of the state -/

/-- A single bit. -/
abbrev flag (b : Bool) : BitVec 1 :=
  BitVec.ofBool b

/-- A status register; none for one that does not exist. -/
def State.statusReg (s : State) (r : StatusReg) : Option Psr :=
  match r with
  | .cpsr => some s.cpsr
  | .spsr m => s.spsr.read m
  | .spsrA64 el => (s.a64Return el).map (·.psr)

/-- The status bits a parameter may read, in the order `StateField.status` says. -/
def Psr.bits (p : Psr) : BitVec 17 :=
  flag p.n ++ flag p.z ++ flag p.c ++ flag p.v ++ flag p.e ++ flag p.a ++ flag p.i ++ flag p.f ++ flag p.t ++ p.it

/-- The value of a field in the state, 0 for a register that does not exist. Of a register whose writes become visible
late it is the newest (log entry 14). -/
def State.field (s : State) (f : StateField) : Nat :=
  match f with
  | .pc => s.pc.toNat
  | .gpr k => s.gpr[k].toNat
  | .xreg k => s.xreg[k].toNat
  | .elrHyp => s.elrHyp.toNat
  | .elr el => ((s.a64Return el).map (·.elr.toNat)).getD 0
  | .status r => ((s.statusReg r).map (·.bits.toNat)).getD 0
  | .enable b => (s.ctl.dbgvcr.cur.get b).toNat
  | .vbar ss => (s.ctl.vbar.of s.cfg ss).cur.toNat
  | .high ss => (s.ctl.high.of s.cfg ss).cur.toNat
  | .mvbar => s.ctl.mvbar.cur.toNat
  | .tge => s.ctl.tge.cur.toNat
  | .tde => s.ctl.tde.cur.toNat
  | .hcr => (flag s.sys.imo ++ flag s.sys.fmo ++ flag s.sys.amo).toNat
  | .scr => (flag s.sys.scrIrq ++ flag s.sys.scrFiq ++ flag s.sys.scrEa ++ flag s.sys.scrNs).toNat
  | .te ss => (s.sys.te.of s.cfg ss).toNat
  | .ee ss => (s.sys.ee.of s.cfg ss).toNat
  | .hte => s.sys.hte.toNat
  | .hee => s.sys.hee.toNat
  | .hvbar => s.sys.hvbar.toNat
  | .ifsrFs ss => (s.syn.ifsrFs.of s.cfg ss).toNat
  | .ifar => s.syn.ifar.toNat
  | .moe => s.syn.moe.toNat
  | .hsr => (s.syn.hsr.ec ++ s.syn.hsr.il ++ s.syn.hsr.iss).toNat
  | .hifar => s.syn.hifar.toNat
  | .byte a => (Memory.read s.mem a.toNat).toNat

/-- Whether a predicate holds in a state (R7: "state to Boolean"). -/
def StatePred.eval (p : StatePred) (s : State) : Bool :=
  match p with
  | .const b => b
  | .exec e => s.exec == e
  | .security ss => s.ss == ss
  | .mode r m => ((s.statusReg r).map (·.m)) == some m
  | .savedExec el e => ((s.a64Return el).map (·.exec)) == some e
  | .bit f k => (s.field f).testBit k
  | .not p => !p.eval s
  | .and p q => p.eval s && q.eval s
  | .or p q => p.eval s || q.eval s

/-! ### Level, privilege, regime -/

/-- The rank of an Exception level, EL0 least privileged (R12). -/
def EL.rank (e : EL) : Nat :=
  match e with
  | .el0 => 0
  | .el1 => 1
  | .el2 => 2
  | .el3 => 3

/-- R12, R38, K7: the Exception level a mode executes at: PL1 modes are at EL3 in Secure state when EL3 is using
AArch32, else at EL1. -/
def modeEL (cfg : Config) (ss : SecurityState) (m : Mode) : EL :=
  match m with
  | .user => .el0
  | .hyp => .el2
  | .monitor => .el3
  | .fiq | .irq | .supervisor | .abort | .undefined | .system =>
    if cfg.el3 == .a32 && ss == .secure then .el3 else .el1

/-- R38: the current Exception level. -/
def State.el (s : State) : EL :=
  match s.exec with
  | .aarch64 e => e
  | .aarch32 => modeEL s.cfg s.ss s.cpsr.m

/-- R12: the privilege level of a mode. -/
def modePL (m : Mode) : PL :=
  match m with
  | .user => .pl0
  | .hyp => .pl2
  | .fiq | .irq | .supervisor | .monitor | .abort | .undefined | .system => .pl1

/-- R3 (`UsingAArch32Regime`). -/
def State.usingAArch32Regime (s : State) : Bool :=
  s.exec == .aarch32 && (s.el != .el0 || (s.el0is32 && s.el1is32))

/-- R35, R57: the instruction set the PE executes. -/
def State.iset (s : State) : ISet :=
  match s.exec with
  | .aarch64 _ => .a64
  | .aarch32 => if s.cpsr.t then .t32 else .a32

/-- R34: the virtual address of the next instruction in AArch32. -/
def State.addr (s : State) : Word :=
  s.pc.setWidth 32

/-- R12: whether PL2 (Hyp mode) exists in a Security state: EL2 using AArch32, and Non-secure state or no EL3 (R115). -/
def hypExists (cfg : Config) (ss : SecurityState) : Bool :=
  cfg.el2 == .a32 && (cfg.el3 == .absent || ss == .nonSecure)

/-- Whether the implementation has the Execution state, mode and Security state the PE is in (R7, R12, R18). EL0 using
AArch64 under EL1 using AArch32 is none it has, so that a return to it is refused: R7 leaves EL1is32 and EL0is32 free, and
that a level below one using AArch32 uses AArch32 is the family's (PRESUMED, log entry 2). -/
def State.legalContext (s : State) : Bool :=
  match s.exec with
  | .aarch64 .el0 => !s.el0is32 && !s.el1is32
  | .aarch64 .el1 => !s.el1is32
  | .aarch64 .el2 => s.cfg.el2 == .a64 && (s.cfg.el3 == .absent || s.ss == .nonSecure)
  | .aarch64 .el3 => s.cfg.el3 == .a64 && s.ss == .secure
  | .aarch32 =>
    match s.cpsr.m with
    | .user => s.el0is32
    | .hyp => hypExists s.cfg s.ss
    | .monitor => s.cfg.el3 == .a32 && s.ss == .secure
    | .fiq | .irq | .supervisor | .abort | .undefined | .system =>
      s.el1is32 || (s.cfg.el3 == .a32 && s.ss == .secure)

/-- R22, R24, R45: bits [4:0] of a vector base are 0. -/
def baseAligned (w : Word) : Bool :=
  w &&& 0x1F == 0

/-- R45, D8: VBAR and MVBAR are well-formed, in every value an evaluation may use. -/
def State.basesAligned (s : State) : Bool :=
  s.ctl.vbar.s.all baseAligned && s.ctl.vbar.ns.all baseAligned && s.ctl.mvbar.all baseAligned

/-- A write to a vector base: bits [4:0] are RES0 (R22, R24). -/
def maskBase (w : Word) : Word :=
  w &&& 0xFFFFFFE0

/-- One evaluation has drawn its free values (R11: "made afresh at each occurrence"). -/
def State.tick (s : State) : State :=
  { s with draws := s.draws + 1 }

/-- The controls as the evaluation now due sees them (R51). -/
def State.view (s : State) : View :=
  s.ctl.view s.draws

/-- A context synchronisation event (R51). -/
def State.sync (s : State) : State :=
  { s with ctl := s.ctl.sync }

/-- R13, R20, R77, R79: a write to the DBGVCR under either name. -/
def State.writeDbgvcr (s : State) (w : Word) : State :=
  { s with ctl := { s.ctl with dbgvcr := s.ctl.dbgvcr.write (s.ctl.dbgvcr.cur.writeWord s.cfg w) } }

/-! ### The program counter and the instruction fetch -/

/-- An address as a program counter of an Execution state and an instruction set: A32 and A64 at word-aligned, T32 at
halfword-aligned addresses (R45), 32 bits in AArch32 (R34). -/
def alignPc (exec : ExecState) (t : Bool) (a : DWord) : DWord :=
  match exec with
  | .aarch64 _ => a &&& 0xFFFFFFFFFFFFFFFC
  | .aarch32 => (a.setWidth 32 &&& (if t then 0xFFFFFFFE else 0xFFFFFFFC)).setWidth 64

/-- The address `k` bytes after the pc, modulo 2^32 in AArch32 and 2^64 in AArch64 (log entry 18). -/
def State.pcPlus (s : State) (k : Nat) : DWord :=
  match s.exec with
  | .aarch64 _ => s.pc + BitVec.ofNat 64 k
  | .aarch32 => (s.addr + BitVec.ofNat 32 k).setWidth 64

/-- The IT block moved on past a T32 instruction (log entry 6). -/
def State.moveIt (s : State) : State :=
  match s.exec with
  | .aarch64 _ => s
  | .aarch32 => { s with cpsr := { s.cpsr with it := if s.cpsr.t then itAdvance s.cpsr.it else s.cpsr.it } }

/-- `pc <- pc + L`. -/
def State.movePc (s : State) (len : Nat) : State :=
  { s with pc := s.pcPlus len }

/-- `pc <- pc + L` (R76 to R79); a T32 instruction also moves the IT block on. -/
def State.advance (s : State) (len : Nat) : State :=
  (s.movePc len).moveIt

/-- The byte of memory `k` bytes after the pc, as the newest store to it left it: what makes a store visible to the fetch
the spec leaves to the host model (R53, D15), and here it is visible at once (DESIGN CHOICE, log entry 25). -/
def State.fetchByte (s : State) (k : Nat) : Byte :=
  Memory.read s.mem (s.pcPlus k).toNat

/-- Bytes stored where the fetch reads them, the first one `k` bytes after the pc. -/
def State.storeAtPc (s : State) (k : Nat) (bs : List Byte) : List Host.Cell :=
  match bs with
  | [] => s.mem
  | b :: rest => Memory.write (s.storeAtPc (k + 1) rest) (s.pcPlus k).toNat b

/-- R35, R57, R58: the length of the next instruction in bytes. Only in T32 does it need memory, the first halfword. -/
def State.instrLength (s : State) : Nat :=
  match s.iset with
  | .a32 => 4
  | .a64 => 4
  | .t32 => if t32IsWide (s.fetchByte 1 ++ s.fetchByte 0) then 4 else 2

/-- The bytes of the next instruction. -/
def State.fetch (s : State) (len : Nat) : List Byte :=
  (List.range len).map s.fetchByte

/-! ### Taking an exception -/

/-- R103, R102: the vector table of an entry (`ET_Table`). Without EL3 every PL1 mode uses the one Local table
(90_conflicts.md C2). -/
def targetTable (cfg : Config) (m : Mode) (ss : SecurityState) : Table :=
  match m with
  | .hyp => .hyp
  | .monitor => if cfg.el3 == .absent then .localTable else .monitor
  | .user | .fiq | .irq | .supervisor | .abort | .undefined | .system =>
    if cfg.el3 == .absent then .localTable
    else if ss == .secure then .secureLocal
    else .nonSecureLocal

/-- A vector the spec does not give (N16): a free word-aligned address (R45). -/
def freeVector (n : Nat) : Word :=
  (Config.draw .vector n).setWidth 32 &&& 0xFFFFFFFC

/-- R70, R131: the address execution is forced to by an entry to an AArch32 mode: the vector of the table and the type
where the spec gives one; HVBAR + 0x14 for a Hyp trap; else a free one. -/
def entryVector (s : State) (t : Table) (e : EType) : Word :=
  match e with
  | .x x => if (enableBit t x).isSome then vectorAddr s.cfg s.ctl.current t x else freeVector s.draws
  | .hypTrap => if t == .hyp then s.sys.hvbar + 0x14 else freeVector s.draws
  | .monitorTrap => freeVector s.draws
  | .other => freeVector s.draws

/-- Whether an entry to a mode other than Hyp sets CPSR.A: R131 for a Prefetch Abort; the others are the family's
(PRESUMED, log entry 9). -/
def entrySetsA (m : Mode) (e : EType) : Bool :=
  m == .monitor ||
    match e with
    | .x .prefetchAbort => true
    | .x .dataAbort => true
    | .x .irq => true
    | .x .fiq => true
    | .x .svc | .x .smc | .x .undef | .monitorTrap | .hypTrap | .other => false

/-- Whether an entry to a mode other than Hyp sets CPSR.F: the family's (PRESUMED, log entry 9). -/
def entrySetsF (m : Mode) (e : EType) : Bool :=
  m == .monitor || e == .x .fiq

/-- Entry to an AArch32 mode other than Hyp, shaped as `TakePrefetchAbortEntry` of R131: SPSR and LR of the mode, mode,
masks, IT, T and E, and the pc at the vector. An exception entry is a context synchronisation event (R51). An entry made
from Monitor mode (a Vector Catch exception taken to Secure Abort mode, AM29) leaves SCR.NS as it was, and `returnSS` reads
it later: R131 and N13 do not say whether it changes, and leaving it is the model's choice (DESIGN CHOICE, log entry 9). -/
def enterMode (m : Mode) (ss : SecurityState) (e : EType) (link : Word) (s : State) : State :=
  { s with
    exec := .aarch32
    ss := ss
    spsr := s.spsr.write m s.cpsr
    gpr := s.gpr.set (lrIndex m) link
    cpsr := { s.cpsr with
      m := m
      it := 0
      i := true
      a := s.cpsr.a || entrySetsA m e
      f := s.cpsr.f || entrySetsF m e
      t := s.sys.te.of s.cfg ss
      e := s.sys.ee.of s.cfg ss }
    pc := (entryVector s (targetTable s.cfg m ss) e).setWidth 64
    ctl := s.ctl.sync
    entered := some ⟨e, .mode m ss⟩
    draws := s.draws + 1 }

/-- CPSR.{A, I, F} with values the spec does not give (K9: "set per HCR/SCR rules"). -/
def freeMasks (p : Psr) (n : Nat) : Psr :=
  { p with
    a := (Config.draw .masks n).getLsbD 0
    i := (Config.draw .masks n).getLsbD 1
    f := (Config.draw .masks n).getLsbD 2 }

/-- Entry to Hyp mode, `TakeHypTrapEntry` of R131: SPSR_hyp, ELR_hyp, mode, IT, T and E, and the pc at the vector. -/
def enterHyp (ss : SecurityState) (e : EType) (pra : DWord) (s : State) : State :=
  { s with
    exec := .aarch32
    ss := ss
    spsr := s.spsr.write .hyp s.cpsr
    elrHyp := pra.setWidth 32
    cpsr := freeMasks { s.cpsr with m := .hyp, it := 0, t := s.sys.hte, e := s.sys.hee } s.draws
    pc := (entryVector s .hyp e).setWidth 64
    ctl := s.ctl.sync
    entered := some ⟨e, .mode .hyp ss⟩
    draws := s.draws + 1 }

/-- The AArch64 registers on coming from an Execution state: kept from AArch64, free from AArch32 (the spec does not
relate the two register files; log entry 10). -/
def State.xregAfter (s : State) : Vector DWord 31 :=
  match s.exec with
  | .aarch64 _ => s.xreg
  | .aarch32 => Vector.ofFn fun k => Config.draw (.xreg k.val) s.draws

/-- The AArch32 registers on coming from an Execution state: kept from AArch32, free from AArch64 (log entry 10). -/
def State.gprAfter (s : State) : Vector Word 33 :=
  match s.exec with
  | .aarch32 => s.gpr
  | .aarch64 _ => Vector.ofFn fun k => (Config.draw (.gpr k.val) s.draws).setWidth 32

/-- Entry to an Exception level using AArch64 (R110): ELR and SPSR of the level; the vector, the masks and the registers
after a change of Execution state are free, since the spec describes no such entry (log entry 10). -/
def enterA64 (el : EL) (e : EType) (pra : DWord) (s : State) : State :=
  { s.writeA64Return el ⟨pra, s.cpsr, s.exec⟩ with
    exec := .aarch64 el
    ss := if el == .el3 then .secure else s.ss
    cpsr := freeMasks s.cpsr s.draws
    xreg := s.xregAfter
    pc := Config.draw .vector s.draws &&& 0xFFFFFFFFFFFFFFFC
    ctl := s.ctl.sync
    entered := some ⟨e, .aarch64 el⟩
    draws := s.draws + 1 }

/-- TAKING AN EXCEPTION, the one shared operation: an entry with its preferred return address, and the link value an
AArch32 mode other than Hyp gets. -/
def takeException (e : Entry) (pra : DWord) (link : Word) (s : State) : State :=
  match e.target with
  | .mode .hyp ss => enterHyp ss e.etype pra s
  | .mode m ss => enterMode m ss e.etype link s
  | .aarch64 el => enterA64 el e.etype pra s

/-- The preferred return address of an exception of the host PE on the instruction at the pc, of length `len`: the next
instruction for a call, else the instruction itself (95_test_vectors.md P1 for SVC; the others PRESUMED, log entry 9).
The next instruction of one at the top of the AArch32 address space is at 0: the spec has no rule for that wrap-around
(N17), and modulo 2^32 is the model's choice (PRESUMED, log entry 18). -/
def preferredReturn (e : EType) (s : State) (len : Nat) : DWord :=
  match e with
  | .x .svc => s.pcPlus len
  | .x .smc => s.pcPlus len
  | .x .fiq | .x .irq | .x .dataAbort | .x .prefetchAbort | .x .undef | .monitorTrap | .hypTrap | .other => s.pc

/-- The link value of an entry to a mode other than Hyp, from the preferred return address: R131 for a Prefetch Abort
(`pra + 4`), 95_test_vectors.md P1 for a Supervisor Call; the other offsets are the family's (PRESUMED, log entry 9);
free for a type the spec does not describe. -/
def linkValue (e : EType) (pra : Word) (t : Bool) (n : Nat) : Word :=
  match e with
  | .x .svc => pra
  | .x .smc => pra
  | .x .undef => pra + (if t then 2 else 4)
  | .x .prefetchAbort => pra + 4
  | .x .dataAbort => pra + 8
  | .x .irq => pra + 4
  | .x .fiq => pra + 4
  | .monitorTrap | .hypTrap | .other => (Config.draw .link n).setWidth 32

/-- R32: HSR from a 32-bit value, EC at 31:26, IL at 25, ISS at 24:0. -/
def Hsr.ofWord (w : Word) : Hsr :=
  { ec := w.extractLsb' 26 6, il := w.extractLsb' 25 1, iss := w.extractLsb' 0 25 }

/-- R32: the HSR word. -/
def Hsr.toWord (h : Hsr) : Word :=
  h.ec ++ h.il ++ h.iss

/-- The syndrome of an exception of the host PE that is no Vector Catch and no Breakpoint exception: the registers an
abort or a Hyp entry may write take free values, since the spec does not give them (log entry 9); every other entry
leaves them. Which registers these are the spec does not say either (R129, N16): that a Data Abort leaves IFSR.FS and IFAR
and frees MOE only, that a Prefetch Abort leaves HSR and HIFAR, and that an entry to Hyp mode leaves IFSR.FS and IFAR, is
the model's choice (DESIGN CHOICE, log entry 9). -/
def hostSyndrome (e : Entry) (s : State) : State :=
  match e.target with
  | .mode .hyp _ =>
    { s with syn := { s.syn with
        hsr := Hsr.ofWord ((Config.draw .hsr s.draws).setWidth 32)
        hifar := (Config.draw .hifar s.draws).setWidth 32
        moe := (Config.draw .moe s.draws).setWidth 4 } }
  | .mode _ ss =>
    match e.etype with
    | .x .prefetchAbort =>
      { s with syn := { s.syn with
          ifsrFs := s.syn.ifsrFs.write s.cfg ss ((Config.draw .ifsr s.draws).setWidth 5)
          ifar := (Config.draw .ifar s.draws).setWidth 32
          moe := (Config.draw .moe s.draws).setWidth 4 } }
    | .x .dataAbort => { s with syn := { s.syn with moe := (Config.draw .moe s.draws).setWidth 4 } }
    | .x .fiq | .x .irq | .x .svc | .x .smc | .x .undef | .monitorTrap | .hypTrap | .other => s
  | .aarch64 _ => s

/-- Where the Undefined Instruction exception of an access from User mode is taken to (R76, D22): EL2 using AArch64
where the host PE routes it there (R137); EL1 using AArch64 where EL1 is; Hyp mode, as a Hyp trap, when HCR.TGE is 1
(R109: "Exceptions are routed away from Non-secure PL1 vectors, to PL2"); else Undefined mode (K7). -/
def undefEntry (s : State) : Entry :=
  if s.cfg.el2 == .a64 && (s.cfg.el3 == .absent || s.ss == .nonSecure) && s.params.undefToA64EL2.eval s
  then ⟨.x .undef, .aarch64 .el2⟩
  else if !s.el1is32 then ⟨.x .undef, .aarch64 .el1⟩
  else if hypExists s.cfg s.ss && s.ctl.tge.cur then ⟨.hypTrap, .mode .hyp s.ss⟩
  else ⟨.x .undef, .mode .undefined s.ss⟩

/-- `raise Undefined()` (R76, R77): the instruction at the pc is abandoned and the exception taken. -/
def raiseUndefined (s : State) : State :=
  takeException (undefEntry s) s.pc (linkValue (.x .undef) s.addr s.cpsr.t s.draws) (hostSyndrome (undefEntry s) s)

/-! ### Returning from an exception -/

/-- The Security state a return enters: from Monitor mode or EL3 the one SCR.NS selects (Monitor mode and EL3 themselves
stay Secure), else the current one (PRESUMED, log entry 8). -/
def returnSS (s : State) (exec : ExecState) (m : Mode) : SecurityState :=
  if s.cfg.el3 == .absent then s.ss
  else if s.exec == .aarch64 .el3 || (s.exec == .aarch32 && s.cpsr.m == .monitor) then
    if exec == .aarch64 .el3 || (exec == .aarch32 && m == .monitor) then .secure
    else if s.sys.scrNs then .nonSecure
    else .secure
  else s.ss

/-- The state a return restores: the status, the Execution state and the Security state, and the pc at the return
address; a context synchronisation event (K12), and no exception entry (R106). -/
def restored (exec : ExecState) (p : Psr) (target : DWord) (s : State) : State :=
  { s with
    exec := exec
    ss := returnSS s exec p.m
    cpsr := p
    gpr := if exec == .aarch32 then s.gprAfter else s.gpr
    pc := alignPc exec p.t target
    ctl := s.ctl.sync
    draws := s.draws + 1 }

/-- THE RETURN FROM AN EXCEPTION. Refused where the restored state is not one the implementation has, or is more
privileged. -/
def restore (exec : ExecState) (p : Psr) (target : DWord) (s : State) : Host.Outcome State Fault Refusal :=
  if (restored exec p target s).legalContext && decide ((restored exec p target s).el.rank ≤ s.el.rank) then
    .next (restored exec p target s)
  else .refused .illegalReturn

/-- `SUBS PC, LR, #imm` (R132) from a PL1 mode with a saved status. -/
def returnSubs (imm : Word) (s : State) : Host.Outcome State Fault Refusal :=
  match s.exec with
  | .aarch64 _ => .refused .illegalReturn
  | .aarch32 =>
    if s.cpsr.m == .hyp then .refused .illegalReturn
    else
      match s.spsr.read s.cpsr.m with
      | none => .refused .illegalReturn
      | some p => restore .aarch32 p ((s.gpr[lrIndex s.cpsr.m] - imm).setWidth 64) s

/-- `ERET`: from Hyp mode to ELR_hyp (R132); from an Exception level using AArch64 to its ELR (P5); from another
AArch32 mode to its link register (PRESUMED, log entry 9). -/
def returnEret (s : State) : Host.Outcome State Fault Refusal :=
  match s.exec with
  | .aarch64 el =>
    match s.a64Return el with
    | none => .refused .illegalReturn
    | some r => restore r.exec r.psr r.elr s
  | .aarch32 => if s.cpsr.m == .hyp then restore .aarch32 s.spsr.hyp (s.elrHyp.setWidth 64) s else returnSubs 0 s

/-! ### Reset -/

/-- The values R41 leaves unspecified after reset. -/
structure ResetValues where
  dbgvcr : Dbgvcr
  vbar : Banked Word
  high : Banked Bool
  mvbar : Word
  tge : Bool
  tde : Bool
  syn : Syndrome
deriving DecidableEq, Repr

/-- R41, R142: the machine after reset with the unspecified values at `r`. VBAR and MVBAR hold well-formed bases
(R45). -/
def State.resetWith (r : ResetValues) : State :=
  { State.reset with
    ctl := { dbgvcr := ⟨r.dbgvcr, []⟩
             vbar := ⟨⟨maskBase r.vbar.s, []⟩, ⟨maskBase r.vbar.ns, []⟩⟩
             high := ⟨⟨r.high.s, []⟩, ⟨r.high.ns, []⟩⟩
             mvbar := ⟨maskBase r.mvbar, []⟩
             tge := ⟨r.tge, []⟩
             tde := ⟨r.tde, []⟩ }
    syn := r.syn }

end Sys2Proof.Machine
end

