-- ==== Sys2Proof/Machine/SystemRegister.lean ====
section
/-! DEFINITION. The meanings of the register-access instructions (rules R76 to R79): one definition per row of the
opcode table over two shared operations for the AArch32 forms and two for the A64 forms. -/

namespace Sys2Proof.Machine

/-- R38, R76: `st.PL`. -/
def State.pl (s : State) : PL :=
  match s.exec with
  | .aarch32 => modePL s.cpsr.m
  | .aarch64 .el0 => .pl0
  | .aarch64 .el1 => .pl1
  | .aarch64 .el2 => .pl2
  | .aarch64 .el3 => .pl1

/-- R136, D22: whether a trap of the access is configured; the model "refuses programs that rely on them" (log entry 20). -/
def State.accessTrapped (s : State) : Bool :=
  s.params.accessTrapped.eval s

/-- R76: `x[Rt] <- Pack(st.DBGVCR)`, skipped if the condition fails, an Undefined Instruction exception at PL0; refused
where a trap of the access is configured (R136, D22). -/
def readDbgvcr (passed : Bool) (rt : Fin 16) (len : Nat) (s : State) : Host.Outcome State Fault Refusal :=
  match gprIndex s.cpsr.m rt with
  | none => .refused .unusableForm
  | some k =>
    if !passed then .next (s.advance len)
    else if s.pl == .pl0 then .next (raiseUndefined s)
    else if s.accessTrapped then .refused .accessTrapConfigured
    else .next ((s.writeGpr k (pack s.cfg s.ctl.dbgvcr.cur)).advance len)

/-- R77: each existing enable bit from its position in `x[Rt]`, skipped if the condition fails, an Undefined Instruction
exception at PL0; refused where a trap of the access is configured (R136, D22). -/
def writeDbgvcr (passed : Bool) (rt : Fin 16) (len : Nat) (s : State) : Host.Outcome State Fault Refusal :=
  match gprIndex s.cpsr.m rt with
  | none => .refused .unusableForm
  | some k =>
    if !passed then .next (s.advance len)
    else if s.pl == .pl0 then .next (raiseUndefined s)
    else if s.accessTrapped then .refused .accessTrapConfigured
    else .next ((s.writeDbgvcr s.gpr[k]).advance len)

/-- R78, R79: `st.EL in {EL2, EL3} and st.EL is using AArch64`. -/
def State.mayAccessDbgvcr32 (s : State) : Bool :=
  s.exec == .aarch64 .el2 || s.exec == .aarch64 .el3

/-- `MRC{<c>} p14, 0, <Rt>, c0, c7, 0` in A32 (R76). -/
def execMrcA32 (cond : Cond) (rt : Fin 16) (s : State) : Host.Outcome State Fault Refusal :=
  readDbgvcr (condHolds cond s.cpsr) rt 4 s

/-- `MCR{<c>} p14, 0, <Rt>, c0, c7, 0` in A32 (R77). -/
def execMcrA32 (cond : Cond) (rt : Fin 16) (s : State) : Host.Outcome State Fault Refusal :=
  writeDbgvcr (condHolds cond s.cpsr) rt 4 s

/-- `MRC p14, 0, <Rt>, c0, c7, 0` in T32 (R76). -/
def execMrcT32 (rt : Fin 16) (s : State) : Host.Outcome State Fault Refusal :=
  readDbgvcr (itPassed s.cpsr) rt 4 s

/-- `MCR p14, 0, <Rt>, c0, c7, 0` in T32 (R77). -/
def execMcrT32 (rt : Fin 16) (s : State) : Host.Outcome State Fault Refusal :=
  writeDbgvcr (itPassed s.cpsr) rt 4 s

/-- `MRS <Xt>, DBGVCR32_EL2` (R78): `X[Xt] <- zext_64(Pack(st.DBGVCR))`. -/
def execMrsA64 (rt : Fin 32) (s : State) : Host.Outcome State Fault Refusal :=
  if !s.mayAccessDbgvcr32 then .refused .debugRegisterLevel
  else if s.accessTrapped then .refused .accessTrapConfigured
  else .next ((s.writeX rt ((pack s.cfg s.ctl.dbgvcr.cur).setWidth 64)).advance 4)

/-- `MSR DBGVCR32_EL2, <Xt>` (R79): "bits [63:32] ignored". -/
def execMsrA64 (rt : Fin 32) (s : State) : Host.Outcome State Fault Refusal :=
  if !s.mayAccessDbgvcr32 then .refused .debugRegisterLevel
  else if s.accessTrapped then .refused .accessTrapConfigured
  else .next ((s.writeDbgvcr ((s.readX rt).setWidth 32)).advance 4)

end Sys2Proof.Machine
end

