-- ==== Sys2Proof/Machine/Dispatch.lean ====
section
/-! DEFINITION. One arm per constructor of `Instr`. -/

namespace Sys2Proof.Machine

def exec (i : Instr) (s : State) : Host.Outcome State Fault Refusal :=
  match i with
  -- R76
  | .mrcA32 cond rt => Sys2Proof.Machine.execMrcA32 cond rt s
  -- R77
  | .mcrA32 cond rt => Sys2Proof.Machine.execMcrA32 cond rt s
  -- R76
  | .mrcT32 rt => Sys2Proof.Machine.execMrcT32 rt s
  -- R77
  | .mcrT32 rt => Sys2Proof.Machine.execMcrT32 rt s
  -- R78
  | .mrsA64 rt => Sys2Proof.Machine.execMrsA64 rt s
  -- R79
  | .msrA64 rt => Sys2Proof.Machine.execMsrA64 rt s

end Sys2Proof.Machine
end

