-- ==== Sys2Proof/Machine/VectorCatch.lean ====
section
/-! DEFINITION. Spec file 60: routing (R115), the debug target Exception level (R116), and taking the Vector Catch
exception (R112 to R128), with the Breakpoint exception it ties with (R94). -/

namespace Sys2Proof.Machine

/-- R115 (`RouteToHyp`). -/
def routeToHyp (cfg : Config) (v : View) (ss : SecurityState) (m : Mode) : Bool :=
  hypExists cfg ss && m != .hyp && (v.tge || v.tde)

/-- R116 (`ELD`): the debug target Exception level. -/
def eld (cfg : Config) (v : View) (ss : SecurityState) (m : Mode) : EL :=
  if routeToHyp cfg v ss m then .el2
  else if cfg.el3 == .a32 && ss == .secure then .el3
  else .el1

/-- R7 (`DebugExceptionsEnabled(st)`), evaluated in the state the check is made in (D3, D12). -/
def State.debugExceptionsEnabled (s : State) : Bool :=
  s.params.debugEnabled.eval s

/-- R7, R115 (`RoutedToAArch64EL2(st)`). -/
def State.routedToAArch64EL2 (s : State) : Bool :=
  s.params.routedToA64EL2.eval s

/-- R31, R118, R123: the method of entry of a Vector Catch exception. -/
def moeVectorCatch : BitVec 4 := 0b0101

/-- R94, K17(a): the method of entry of a Breakpoint exception (general knowledge). -/
def moeBreakpoint : BitVec 4 := 0b0001

/-- R117: IFSR.FS of a debug exception. -/
def fsDebug : BitVec 5 := 0b00010

/-- R120, R121, R122: HSR of a debug exception: EC 0x20, IL 1, and in the ISS only IFSC, 0b100010. -/
def hsrDebug : Hsr :=
  { ec := 0x20, il := 1, iss := 0b100010 }

/-- R120 to R124: the syndrome of a debug exception taken to Hyp mode. -/
def hypSyndrome (moe : BitVec 4) (s : State) : State :=
  { s with syn := { s.syn with
      hsr := hsrDebug
      moe := moe
      hifar := (Config.draw .hifar s.draws).setWidth 32 } }

/-- R117 to R119: the syndrome of a debug exception taken to Abort mode, in the IFSR of the current Security state. -/
def abortSyndrome (moe : BitVec 4) (s : State) : State :=
  { s with syn := { s.syn with
      ifsrFs := s.syn.ifsrFs.write s.cfg s.ss fsDebug
      moe := moe
      ifar := (Config.draw .ifar s.draws).setWidth 32 } }

/-- R113: the entry of a debug exception taken to PL1. -/
def abortEntry (s : State) : Entry :=
  ⟨.x .prefetchAbort, .mode .abort s.ss⟩

/-- R114: the entry of a debug exception taken to PL2. -/
def hypEntry (s : State) : Entry :=
  ⟨.hypTrap, .mode .hyp s.ss⟩

/-- R128: taking a debug exception with a method of entry and a preferred return address, routed by the controls `v`:
refused where it would go to EL2 using AArch64 (R115), as a Hyp trap (R114), or as a Prefetch Abort (R113). -/
def takeDebugRouted (v : View) (moe : BitVec 4) (pra : Word) (s : State) : Host.Outcome State Fault Refusal :=
  if s.cfg.el2 == .a64 && s.routedToAArch64EL2 then .refused .routedToAArch64EL2
  else if routeToHyp s.cfg v s.ss s.cpsr.m then
    .next (takeException (hypEntry s) (pra.setWidth 64) 0 (hypSyndrome moe s))
  else
    .next (takeException (abortEntry s) (pra.setWidth 64) (linkValue (.x .prefetchAbort) pra s.cpsr.t s.draws)
      (abortSyndrome moe s))

/-- A debug exception routed by the controls as this evaluation sees them (R51). -/
def takeDebug (moe : BitVec 4) (pra : Word) (s : State) : Host.Outcome State Fault Refusal :=
  takeDebugRouted s.view moe pra s

/-- R128 (`TakeVC`). -/
def takeVC (pra : Word) (s : State) : Host.Outcome State Fault Refusal :=
  takeDebug moeVectorCatch pra s

/-- The controls that route a Breakpoint exception. In the exception-trapping form they are the newest, so that while HCR.TGE
is 1 none goes to Non-secure Abort mode, where its entry could be trapped (R109). In the address-matching form they are as
this evaluation sees them, so that it "differs ... only in DBGDSCRext.MOE" (R94) from the Vector Catch exception it ties
with: R51 speaks of the generation rules only, and this is the model's choice (DESIGN CHOICE, log entry 14). -/
def State.breakpointView (s : State) : View :=
  match s.cfg.form with
  | .addressMatching => s.view
  | .exceptionTrapping => s.ctl.current

/-- R94: the Breakpoint exception, which "differs ... only in DBGDSCRext.MOE". -/
def takeBreakpoint (pra : Word) (s : State) : Host.Outcome State Fault Refusal :=
  takeDebugRouted s.breakpointView moeBreakpoint pra s

end Sys2Proof.Machine
end

