-- ==== Sys2Proof/Machine/AddressMatching.lean ====
section
/-! DEFINITION. Spec file 41: generation in the address-matching form (rules R80 to R99). -/

namespace Sys2Proof.Machine

/-- R99: what `AM_Check` returns. -/
inductive AMResult where
  | noVC
  | breakpoint
  | vc (a : Word)
deriving DecidableEq, Repr

/-- R99: the outcomes of its three `choose`s. -/
structure AMChoices where
  /-- R91: a half match generates the exception. -/
  halfMatch : Bool
  /-- R125: the vector catch of an abort vector at ELD is ignored. -/
  ignoreAbort : Bool
  /-- R94: the Breakpoint exception is taken, not the Vector Catch exception. -/
  takeBreakpoint : Bool
deriving DecidableEq, Repr

/-- The choices of evaluation `n` (R11: "made afresh at each occurrence"). -/
def amChoices (n : Nat) : AMChoices :=
  { halfMatch := Config.choose .halfMatch n
    ignoreAbort := Config.choose .abortVectorAddress n
    takeBreakpoint := Config.choose .breakpoint n }

/-- R82, R83: whether the vectors of a table are compared in a Security state. -/
def amTable (cfg : Config) (ss : SecurityState) (t : Table) : Bool :=
  match cfg.el3, ss with
  | .absent, _ => t == .localTable
  | .a64, .nonSecure => t == .nonSecureLocal
  | .a32, .nonSecure => t == .nonSecureLocal
  | .a64, .secure => t == .secureLocal
  | .a32, .secure => t == .secureLocal || t == .monitor

/-- R82, R83 (`AM_Subset`). -/
def amSubset (cfg : Config) (v : View) (ss : SecurityState) : List CatchVector :=
  (enabledSet cfg v).filter fun e => amTable cfg ss e.table

/-- R99: the elements whose vector is an address. -/
def vectorsAt (l : List CatchVector) (a : Word) : List CatchVector :=
  l.filter fun e => e.addr == a

/-- R125: whether an exception type is Prefetch Abort or Data Abort. -/
def XType.isAbort (x : XType) : Bool :=
  x == .prefetchAbort || x == .dataAbort

/-- R94 (`BreakpointAt(st, A)`), where the PE can take an AArch32 debug exception at all. -/
def State.breakpointAt (s : State) (a : Word) : Bool :=
  s.usingAArch32Regime && s.cpsr.m != .hyp && s.params.breakpoints.any fun k => k.addr == a && k.cond.eval s

/-- R99, its guards: the form, the regime, the mode, the enable controls. -/
def State.amApplies (s : State) : Bool :=
  s.cfg.form == .addressMatching && s.usingAArch32Regime && s.cpsr.m != .hyp && s.debugExceptionsEnabled

/-- R91, R93, R99: the elements an instruction hits: those at its address; else, for a 32-bit T32 instruction and if the
choice is so made, those two bytes on. -/
def amHit (half : Bool) (l : List CatchVector) (a : Word) (len : Nat) (isT32 : Bool) : List CatchVector :=
  if (vectorsAt l a).isEmpty then
    if isT32 && len == 4 && half then vectorsAt l (a + 2) else []
  else vectorsAt l a

/-- R99 (`AM_Check`), with its choices and the controls it uses as arguments. -/
def amCheck (c : AMChoices) (v : View) (s : State) (a : Word) (len : Nat) (isT32 : Bool) : AMResult :=
  let hit := amHit c.halfMatch (amSubset s.cfg v s.ss) a len isT32
  if !s.amApplies then .noVC
  else if hit.isEmpty then .noVC
  else if hit.any (·.xtype.isAbort) && s.el == eld s.cfg v s.ss s.cpsr.m && c.ignoreAbort then .noVC
  else if s.breakpointAt a && c.takeBreakpoint then .breakpoint
  else .vc a

end Sys2Proof.Machine
end

