-- ==== Sys2Proof/Machine/ExceptionTrapping.lean ====
section
/-! DEFINITION. Spec file 42: generation in the exception-trapping form (rules R100 to R111). -/

namespace Sys2Proof.Machine

/-- R102, R103 (`ET_Table`): none for an entry to an Exception level using AArch64. -/
def etTable (cfg : Config) (e : Entry) : Option Table :=
  match e.target with
  | .mode m ss => some (targetTable cfg m ss)
  | .aarch64 _ => none

/-- R111: `E.target_EL`. -/
def Target.el (cfg : Config) (t : Target) : EL :=
  match t with
  | .mode m ss => modeEL cfg ss m
  | .aarch64 el => el

/-- R111: `E.type in {PrefetchAbort, DataAbort}`. -/
def EType.isAbort (e : EType) : Bool :=
  match e with
  | .x t => t.isAbort
  | .monitorTrap => false
  | .hypTrap => false
  | .other => false

/-- R111, its guards: the form, the regime and the enable controls, in the state after the entry (R108, D12). -/
def State.etApplies (s : State) : Bool :=
  s.cfg.form == .exceptionTrapping && s.usingAArch32Regime && s.debugExceptionsEnabled

/-- R111: the vector of an entry that is in the subset tested (R101 to R103). -/
def etVector (cfg : Config) (v : View) (e : Entry) : Option Word :=
  match etTable cfg e, e.etype with
  | some t, .x x =>
    match enableBit t x with
    | some b => if enabled cfg v.dbgvcr b then some (vectorAddr cfg v t x) else none
    | none => none
  | _, _ => none

/-- R111 (`ET_Check`), with its choice (R125: the vector catch is ignored) and the controls it uses as arguments: the
vector of the Vector Catch exception, or none. -/
def etCheck (ignoreAbort : Bool) (v : View) (s : State) (e : Entry) : Option Word :=
  if !s.etApplies then none
  else if e.etype.isAbort && e.target.el s.cfg == eld s.cfg v s.ss s.cpsr.m && ignoreAbort then none
  else etVector s.cfg v e

end Sys2Proof.Machine
end

