-- ==== Sys2Proof/Machine/HostPE.lean ====
section
/-! DEFINITION. What the host PE brings to a step (rule R141: "everything not named here is the host model's"): its own
exceptions (R129, R134, R137) and the effects of instructions outside the opcode table (R46, R61), as the plain data of
`HostInput` says them. -/

namespace Sys2Proof.Machine

/-- Whether an exception of the host PE may be taken to a target: not to User or System mode; to the current Security
state but for Monitor mode and EL3, which are Secure; and not to a Non-secure PL1 mode while HCR.TGE is 1 (R109:
"Exceptions are routed away from Non-secure PL1 vectors, to PL2"). -/
def targetAllowed (s : State) (t : Target) : Bool :=
  match t with
  | .mode .user _ => false
  | .mode .system _ => false
  | .mode .monitor ss => ss == .secure
  | .mode .hyp ss => ss == s.ss
  | .mode .fiq ss | .mode .irq ss | .mode .supervisor ss | .mode .abort ss | .mode .undefined ss =>
    ss == s.ss && !(hypExists s.cfg s.ss && s.ctl.tge.cur)
  | .aarch64 .el0 => false
  | .aarch64 .el1 | .aarch64 .el2 | .aarch64 .el3 => true

/-- An exception `E` of the host PE on the instruction at the pc, of length `len`: the entry, with the syndrome
registers the spec does not give left free. Refused where no PE could take it: the target is not allowed, does not
exist, or is less privileged than the level it is taken from. No mask is consulted: the host PE brings an asynchronous
exception only where it is due, since R134 and N23 leave masking and delivery to it, and that CPSR.{A, I, F} hold none off
here is the model's choice (DESIGN CHOICE, log entry 17). -/
def hostException (e : Entry) (len : Nat) (s : State) : Host.Outcome State Fault Refusal :=
  let pra := preferredReturn e.etype s len
  let t := takeException e pra (linkValue e.etype (pra.setWidth 32) s.cpsr.t s.draws) (hostSyndrome e s)
  if targetAllowed s e.target && t.legalContext && decide (s.el.rank ≤ t.el.rank) then .next t
  else .refused .hostInputIllegal

/-- Whether the register a write goes to exists where it is made: MVBAR where EL3 is using AArch32, in Secure PL1 modes
only (R24, K4); HCR, and with it the other registers of Hyp mode, where EL2 is using AArch32 (R25); SCR where EL3 is
implemented (R28); the Secure instance of a banked register in Secure state (R22, K4); ELR and SPSR of a level that is
using AArch64. Otherwise a write is made from every mode and in either Security state, since what each mode may do is open
(R135): the model's choice (DESIGN CHOICE, log entry 12). -/
def writeExists (s : State) (w : HostWrite) : Bool :=
  match w with
  | .mvbar _ => s.cfg.el3 == .a32 && s.exec == .aarch32 && s.ss == .secure && modePL s.cpsr.m == .pl1
  | .tge _ | .tde _ | .hcr _ _ _ | .hsctlr _ _ | .hvbar _ => s.cfg.el2 == .a32
  | .scr _ _ _ _ => s.cfg.el3 != .absent
  | .vbar ss _ | .high ss _ | .sctlr ss _ _ => s.cfg.el3 != .a32 || ss == .nonSecure || s.ss == .secure
  | .a64Return .el0 _ => false
  | .a64Return .el1 _ => !s.el1is32
  | .a64Return .el2 _ => s.cfg.el2 == .a64
  | .a64Return .el3 _ => s.cfg.el3 == .a64
  | .gpr _ _ | .xreg _ _ | .flags _ _ _ _ | .psr _ | .byte _ _ => true

/-- One thing an instruction outside the opcode table writes. The writes to VBAR, SCTLR.V, MVBAR, HCR.TGE and HDCR.TDE
become visible late (R51); bits [4:0] of a vector base are RES0 (R22, R24). No write changes the Security state: that a
write of the CPSR that leaves Monitor mode, and a write of SCR.NS in a Secure PL1 mode, stay Secure whatever SCR.NS is, is
the model's choice (DESIGN CHOICE, log entry 8), since the spec leaves how modes are entered and left open (R135, N15).
Where a register exists is `writeExists`. A byte written is
what the next fetch reads (R53; DESIGN CHOICE, log entry 25). -/
def applyWrite (s : State) (w : HostWrite) : State :=
  match w with
  | .gpr n v =>
    match gprIndex s.cpsr.m n with
    | some k => s.writeGpr k v
    | none => s
  | .xreg n v => { s with xreg := s.xreg.set n v }
  | .flags n z c v => { s with cpsr := { s.cpsr with n := n, z := z, c := c, v := v } }
  | .psr p => { s with cpsr := { p with t := s.cpsr.t } }
  | .byte a b => { s with mem := Memory.write s.mem a.toNat b }
  | .vbar ss v =>
    { s with ctl := { s.ctl with
        vbar := s.ctl.vbar.write s.cfg ss ((s.ctl.vbar.of s.cfg ss).write (maskBase v)) } }
  | .high ss b =>
    { s with ctl := { s.ctl with high := s.ctl.high.write s.cfg ss ((s.ctl.high.of s.cfg ss).write b) } }
  | .mvbar v => { s with ctl := { s.ctl with mvbar := s.ctl.mvbar.write (maskBase v) } }
  | .tge b => { s with ctl := { s.ctl with tge := s.ctl.tge.write b } }
  | .tde b => { s with ctl := { s.ctl with tde := s.ctl.tde.write b } }
  | .hcr imo fmo amo => { s with sys := { s.sys with imo := imo, fmo := fmo, amo := amo } }
  | .scr irq fiq ea ns => { s with sys := { s.sys with scrIrq := irq, scrFiq := fiq, scrEa := ea, scrNs := ns } }
  | .sctlr ss te ee =>
    { s with sys := { s.sys with te := s.sys.te.write s.cfg ss te, ee := s.sys.ee.write s.cfg ss ee } }
  | .hsctlr te ee => { s with sys := { s.sys with hte := te, hee := ee } }
  | .hvbar v => { s with sys := { s.sys with hvbar := maskBase v } }
  | .a64Return el r => s.writeA64Return el r

/-- A branch: the pc at the target, in AArch32 in the instruction set it selects. It is no exception entry (R106) and no
context synchronisation event. -/
def branchTo (target : DWord) (t32 : Bool) (s : State) : State :=
  match s.exec with
  | .aarch64 _ => { s with pc := alignPc s.exec false target }
  | .aarch32 => { s with pc := alignPc s.exec t32 target, cpsr := { s.cpsr with t := t32 } }

/-- How an instruction of length `len` outside the opcode table ends. -/
def hostFlow (f : HostFlow) (len : Nat) (s : State) : Host.Outcome State Fault Refusal :=
  match f with
  | .next => .next (s.movePc len)
  | .sync => .next (s.sync.movePc len)
  | .branch target t32 => .next (branchTo target t32 s)
  | .takes e => hostException e len s
  | .subsPcLr imm => returnSubs imm s
  | .eret => returnEret s

/-- Whether an instruction that ends so has completed: all but one that takes an exception that returns to it. -/
def HostFlow.completes (f : HostFlow) : Bool :=
  match f with
  | .takes e => e.etype == .x .svc || e.etype == .x .smc
  | .next | .sync | .branch _ _ | .subsPcLr _ | .eret => true

/-- The state the writes of an instruction outside the opcode table are made in: an instruction that completes has moved
the IT block on (log entry 6), so that the IT bits it writes itself stand. -/
def HostEffect.start (eff : HostEffect) (s : State) : State :=
  if eff.flow.completes then s.moveIt else s

/-- The effect of an instruction outside the opcode table (R46: the mechanism never reads its bits): its writes, then
how it ends. Refused where it writes a register that does not exist there, or where the writes leave the Exception level
or a legal mode, which no instruction but a return does. -/
def hostRun (eff : HostEffect) (len : Nat) (s : State) : Host.Outcome State Fault Refusal :=
  let t := eff.writes.foldl applyWrite (eff.start s)
  if eff.writes.all (writeExists s) && t.legalContext && t.el == s.el then hostFlow eff.flow len t else .refused .hostInputIllegal

end Sys2Proof.Machine
end

