-- ==== Sys2Proof/Machine/PEStep.lean ====
section
/-! DEFINITION. The PE step (rule R141): `AfterEntry` for the entry just made, then the asynchronous exceptions the host
PE brings, then `AM_Check` on the next instruction, then the instruction. -/

namespace Sys2Proof.Machine

/-- The other synchronous exceptions of the next instruction's fetch (R95). -/
def State.fetchExceptions (s : State) : List FetchException :=
  s.params.fetchExceptions.filter fun f => f.addr == s.pc && f.cond.eval s

/-- The place of a class in `FetchPriority`, the highest first; after all that are listed if it is not (log entry 22). -/
def fetchRank (p : List FetchClass) (c : FetchClass) : Nat :=
  p.findIdx (· == c)

/-- R95: the one of several other fetch exceptions that is taken: the highest in `FetchPriority`, the first of equals. -/
def highestFetch (p : List FetchClass) (l : List FetchException) : Option FetchException :=
  match l with
  | [] => none
  | f :: rest =>
    match highestFetch p rest with
    | none => some f
    | some g => if fetchRank p (.source f.source) ≤ fetchRank p (.source g.source) then some f else some g

/-- What comes of the next instruction. -/
inductive Commit where
  /-- The Vector Catch exception is taken instead of it (R85). -/
  | vectorCatch
  /-- A Breakpoint exception is taken instead of it (R94). -/
  | breakpoint
  /-- Another exception of its fetch is taken (R95, R96). -/
  | fetchException (e : Entry)
  /-- It is executed. -/
  | execute
deriving DecidableEq, Repr

/-- R94, R95, R141: the debug exception of an instruction from what `AM_Check` returned; a Breakpoint exception with no
Vector Catch exception is the host PE's. -/
def debugOutcome (r : AMResult) (brk : Bool) : Option Commit :=
  match r with
  | .vc _ => some .vectorCatch
  | .breakpoint => some .breakpoint
  | .noVC => if brk then some .breakpoint else none

/-- R95: the debug exception, if any, ordered against the other exceptions of the fetch by `FetchPriority`. -/
def commitOutcome (p : List FetchClass) (dbg : Option Commit) (others : List FetchException) : Commit :=
  match dbg, highestFetch p others with
  | none, none => .execute
  | none, some f => .fetchException f.entry
  | some c, none => c
  | some c, some f => if fetchRank p (.source f.source) ≤ fetchRank p .debug then .fetchException f.entry else c

/-- R81, R85: the checks made on the next instruction, of length `len`, before it is executed. -/
def State.checkCommit (s : State) (len : Nat) : Commit :=
  commitOutcome s.cfg.fetchPriority
    (debugOutcome (amCheck (amChoices s.draws) s.view s s.addr len s.cpsr.t) (s.breakpointAt s.addr))
    s.fetchExceptions

/-- The next instruction is executed: one of the opcode table by its meaning (R76 to R79), any other by the effect the
host PE brings (R61). -/
def runInstruction (eff : Option HostEffect) (len : Nat) (s : State) : Host.Outcome State Fault Refusal :=
  match decode s.iset (s.fetch len) with
  | .ok (i, _) => exec i s
  | .error .reservedCondition => .refused .unusableForm
  | .error .unusableRt => .refused .unusableForm
  | .error .outsideTable | .error .truncated =>
    match eff with
    | some x => hostRun x len s
    | none => .refused .hostInstruction

/-- R141: the next instruction: its checks, then the exception taken instead of it, or the instruction. -/
def commitNext (eff : Option HostEffect) (s : State) : Host.Outcome State Fault Refusal :=
  match s.checkCommit s.instrLength with
  | .vectorCatch => takeVC s.addr s.tick
  | .breakpoint => takeBreakpoint s.addr s.tick
  | .fetchException e => hostException e s.instrLength s.tick
  | .execute => runInstruction eff s.instrLength s.tick

/-- R141 (`PE_Step`), once no `AfterEntry` is due: the host PE's input for this step, an asynchronous exception first
(R96). -/
def peStep (s : State) : Host.Outcome State Fault Refusal :=
  match s.inputs with
  | [] => commitNext none s
  | .exception e :: rest => hostException e 0 { s with inputs := rest }
  | .instruction eff :: rest => commitNext (some eff) { s with inputs := rest }
  | .parameters p :: rest => .next { s with params := p, inputs := rest }

/-- R141 (`AfterEntry`): the Vector Catch exception of the entry just made, before anything else (R105, R107); its own
entry is tested in the next step, so that a step ends where R133's loop does not. With none, the PE goes on. -/
def afterEntry (e : Entry) (s : State) : Host.Outcome State Fault Refusal :=
  match etCheck (Config.choose .abortVectorTrap s.draws) s.view s e with
  | some v => takeVC v s.tick
  | none => peStep { s.tick with entered := none }

/-- One step of the machine: refused outside the configurations of R8 and the well-formed vector bases of R45. -/
def stepMachine (s : State) : Host.Outcome State Fault Refusal :=
  if !s.cfg.listed then .refused .configurationNotListed
  else if !s.basesAligned then .refused .vectorBaseMisaligned
  else
    match s.entered with
    | some e => afterEntry e s
    | none => peStep s

/-- The Execution state, Security state and instruction set in which a word of an instruction set is fetched: A64 words
at EL2 or EL3 using AArch64, A32 and T32 words in AArch32 in the mode of the CPSR. -/
def State.withSet (s : State) (set : ISet) : State :=
  match set with
  | .a64 => if s.mayAccessDbgvcr32 then s else { s with exec := .aarch64 .el3, ss := .secure }
  | .a32 => { s with exec := .aarch32, cpsr := { s.cpsr with t := false } }
  | .t32 => { s with exec := .aarch32, cpsr := { s.cpsr with t := true } }

/-- A state with the pc aligned for its instruction set, and nothing between it and the instruction at the pc: no entry
to test, no input of the host PE, no debug exception enabled, no trap (log entry 5). -/
def State.readyToFetch (s : State) : State :=
  { s with
    pc := alignPc s.exec s.cpsr.t s.pc
    params := Parameters.quiet
    inputs := []
    entered := none }

/-- A state with a table word stored at the pc, in the instruction set it belongs to. -/
def State.placeWord (s : State) (set : ISet) (w : Word) : State :=
  let t := (s.withSet set).readyToFetch
  { t with mem := t.storeAtPc 0 (bytesOfWord set w) }

end Sys2Proof.Machine
end

