-- ==== Sys2Proof/Machine/Step.lean ====
section
/-! DEFINITION. The step of the machine, and the placing of an instruction where the step fetches it. -/

namespace Sys2Proof.Machine

/-- One step: R141, in Machine/PEStep.lean. -/
def step (s : State) : Host.Outcome State Fault Refusal :=
  stepMachine s

/-- The state with a word of the opcode table stored where the step fetches its next instruction. -/
def State.withFetchWord (s : State) (nbits w : Nat) : State :=
  s.placeWord (tableSet (tableWord nbits w)) (tableWord nbits w)

end Sys2Proof.Machine
end

