-- ==== Sys2Proof/Safety.lean ====
section
/-! DEFINITION. What counts as a legal state, and the notions the statements are made of: the states an implementation
can be in, register writes all visible, what an operation leaves unchanged, and the premises and tables the statements share. -/

namespace Sys2Proof

/-- Whether an instruction writes the DBGVCR (R77, R79). -/
def Instr.writesDbgvcr (i : Instr) : Bool :=
  match i with
  | .mrcA32 _ _ => false
  | .mcrA32 _ _ => true
  | .mrcT32 _ => false
  | .mcrT32 _ => true
  | .mrsA64 _ => false
  | .msrA64 _ => true

end Sys2Proof

namespace Sys2Proof.Machine

/-- The Execution states of EL0 and EL1 fit the implementation: a level below one using AArch32 uses AArch32. R7 leaves
EL1is32 and EL0is32 free and D2 takes them from the host model: the rule is the family's (PRESUMED, log entry 2). -/
def State.levelsFit (s : State) : Bool :=
  (!(s.cfg.el2 == .a32 || s.cfg.el3 == .a32) || s.el1is32) && (!s.el1is32 || s.el0is32)

/-- R34, R45: the pc is an address of the current instruction set: word-aligned in A32 and A64, halfword-aligned in T32,
32 bits wide in AArch32. -/
def State.pcAligned (s : State) : Bool :=
  s.pc == alignPc s.exec s.cpsr.t s.pc

/-- R51: every register write is visible. -/
def State.synced (s : State) : Bool :=
  s.ctl.sync == s.ctl

/-- R105: an entry whose test is due left the PE in its target, at the vector the spec gives it (if it gives one), with
every register write visible. -/
def State.enteredFits (s : State) : Bool :=
  match s.entered with
  | none => true
  | some ⟨_, .aarch64 el⟩ => s.synced && s.exec == .aarch64 el
  | some ⟨e, .mode m ss⟩ =>
    s.synced && s.exec == .aarch32 && s.cpsr.m == m && s.ss == ss &&
      match e with
      | .x x =>
        match enableBit (targetTable s.cfg m ss) x with
        | some _ => s.addr == vectorAddr s.cfg s.ctl.current (targetTable s.cfg m ss) x
        | none => true
      | .monitorTrap | .hypTrap | .other => true

/-- The states an implementation of the spec can be in: a configuration of R8, a mode and levels it has, well-formed
vector bases (R22, R24, R45), an aligned pc, memory in canonical form. -/
def State.WF (s : State) : Bool :=
  s.cfg.listed && s.levelsFit && s.legalContext && s.basesAligned && baseAligned s.sys.hvbar && s.pcAligned &&
    Memory.wf s.mem && s.enteredFits

/-- Two memories read the same at an address. -/
def readsSame (s t : State) (a : Nat) : Prop :=
  Memory.read t.mem a = Memory.read s.mem a

/-- `t` is `s` but for the AArch32 general registers, the pc and the IT bits of the CPSR. -/
def sameButGprPc (s t : State) : Prop :=
  { t with gpr := s.gpr, pc := s.pc, cpsr := { t.cpsr with it := s.cpsr.it } } = s

/-- `t` is `s` but for the AArch64 general registers and the pc. -/
def sameButXregPc (s t : State) : Prop :=
  { t with xreg := s.xreg, pc := s.pc } = s

/-- `t` is `s` but for the DBGVCR, the pc and the IT bits of the CPSR. -/
def sameButDbgvcrPc (s t : State) : Prop :=
  { t with ctl := { t.ctl with dbgvcr := s.ctl.dbgvcr }, pc := s.pc, cpsr := { t.cpsr with it := s.cpsr.it } } = s

/-- The values an evaluation may use for the DBGVCR (R51). -/
def Windowed.may {α : Type} (w : Windowed α) (x : α) : Prop :=
  x = w.cur ∨ x ∈ w.old

/-- R51: a register after a write of `x`: an evaluation uses `x` or a value from before, each of `x` and the value before
is admitted, and after a context synchronisation event only `x` is used. -/
def writtenLate {α : Type} (before after : Windowed α) (x : α) : Prop :=
  (∀ k, after.seen k = x ∨ before.may (after.seen k)) ∧ (∃ k, after.seen k = x) ∧ (∃ k, after.seen k = before.cur) ∧
    ∀ k, after.sync.seen k = x

/-! ### Notions the statements share -/

/-- R95: a class of exceptions of a fetch has a higher place in `FetchPriority` than another. -/
def goesBefore (cfg : Config) (a b : FetchClass) : Prop :=
  fetchRank cfg.fetchPriority a < fetchRank cfg.fetchPriority b

/-- The rows of Table G2-22: the type of an exception, its offset from VBAR and its High vector (R14, R15). -/
def localVectorRows : List (XType × Word × Word) :=
  [(.fiq, 0x0000001C, 0xFFFF001C), (.irq, 0x00000018, 0xFFFF0018), (.dataAbort, 0x00000010, 0xFFFF0010),
   (.prefetchAbort, 0x0000000C, 0xFFFF000C), (.svc, 0x00000008, 0xFFFF0008), (.undef, 0x00000004, 0xFFFF0004)]

/-- The enable bits of Table G2-22, first column, in the order of `localVectorRows` (R14). -/
def secureBits : List EnableBit := [.sf, .si, .sd, .sp, .ss, .su]

/-- The enable bits of Table G2-22, second column, in the order of `localVectorRows` (R15). -/
def nonSecureBits : List EnableBit := [.nsf, .nsi, .nsd, .nsp, .nss, .nsu]

/-- The rows of Table G2-23: the bit, the type and the offset from MVBAR (R16). -/
def monitorVectorRows : List (EnableBit × XType × Word) :=
  [(.mf, .fiq, 0x0000001C), (.mi, .irq, 0x00000018), (.md, .dataAbort, 0x00000010), (.mp, .prefetchAbort, 0x0000000C),
   (.ms, .smc, 0x00000008)]

/-- The table the bits SF to SU serve (R14). -/
def secureTable (cfg : Config) : Table :=
  if cfg.el3 = .absent then .localTable else .secureLocal

/-- The bits a write of the DBGVCR can set (R18, R19), as a word. -/
def existingBits (cfg : Config) : Word :=
  match cfg.el3 with
  | .absent => 0x000000DE
  | .a64 => 0xDE0000DE
  | .a32 => 0xDE00DCDE

/-- The vector bases of a view are well-formed (R45). -/
def View.aligned (v : View) : Prop :=
  baseAligned v.vbar.s = true ∧ baseAligned v.vbar.ns = true ∧ baseAligned v.mvbar = true

/-- Nothing but the machine's own instruction comes next: the state is one the step gives a meaning to, and the host PE
brings no exception and no change of parameters, but perhaps the effect of an instruction outside the opcode table. -/
def nextIsInstruction (s : State) (eff : Option HostEffect) (rest : List HostInput) : Prop :=
  s.cfg.listed = true ∧ s.basesAligned = true ∧
    match eff with
    | none => s.inputs = [] ∧ rest = []
    | some x => s.inputs = .instruction x :: rest

/-- The state in which the next instruction is checked and executed, once the entry just made (if any) has been tested
without a Vector Catch exception: the entry forgotten, the host PE's input taken, the free values drawn. -/
def atInstruction (s : State) (rest : List HostInput) : State :=
  match s.entered with
  | none => { s with inputs := rest }
  | some _ => { s.tick with entered := none, inputs := rest }

/-- The entry just made, if any, generates no Vector Catch exception. -/
def entryPasses (s : State) : Prop :=
  ∀ e, s.entered = some e → etCheck (Config.choose .abortVectorTrap s.draws) s.view s e = none

/-- The next instruction certainly matches (R99 with no `choose` left): every register write is visible, the guards
hold, its address is a compared vector, no abort vector at ELD, no breakpoint, no other exception of its fetch. -/
def certainMatch (s : State) : Prop :=
  s.synced = true ∧ s.amApplies = true ∧
    (∃ e ∈ amSubset s.cfg s.ctl.current s.ss, e.addr = s.addr) ∧
    ((∀ e ∈ amSubset s.cfg s.ctl.current s.ss, e.addr = s.addr → e.xtype.isAbort = false) ∨
      s.el ≠ eld s.cfg s.ctl.current s.ss s.cpsr.m) ∧
    s.breakpointAt s.addr = false ∧ s.fetchExceptions = []

/-- The state a PE in AArch32 is in when it executes an MRC or MCR of its instruction set. -/
def runsIn (i : Instr) (s : State) : Prop :=
  s.iset = i.set

/-- Whether the condition of an MRC or MCR holds (A32: its field; T32: its IT block). -/
def conditionPassed (i : Instr) (s : State) : Bool :=
  match i with
  | .mrcA32 c _ => condHolds c s.cpsr
  | .mcrA32 c _ => condHolds c s.cpsr
  | .mrcT32 _ => itPassed s.cpsr
  | .mcrT32 _ => itPassed s.cpsr
  | .mrsA64 _ => true
  | .msrA64 _ => true

/-- R137: the host PE routes an Undefined Instruction exception of the current state to EL2 using AArch64 (EL2 exists in
the current Security state, and the parameter says so). -/
def State.undefinedToAArch64EL2 (s : State) : Bool :=
  s.cfg.el2 == .a64 && (s.cfg.el3 == .absent || s.ss == .nonSecure) && s.params.undefToA64EL2.eval s

/-- The IT bits after an instruction (log entry 6): moved on in T32, kept in A32. -/
def itAfter (s : State) : BitVec 8 :=
  if s.cpsr.t then itAdvance s.cpsr.it else s.cpsr.it

end Sys2Proof.Machine
end

