-- ==== Sys2Proof/Certificates/Slice0/Obligations.lean ====
section
/-! DEFINITION. The statements for the provers, from the spec's numbered rules; each docstring names the rule, or the
spec's own decision or the model's log entry, that a clause rests on. -/

open Sys2Proof Sys2Proof.Machine

/-! ### Encodings -/

/-- The worked encodings of R61 and of 95_test_vectors.md ES15, as bytes in memory order (R58 to R60), decode to the
instructions they are written for. -/
def Obligations.WorkedEncodingsDecode : Prop :=
  decode .a32 [0x17, 0x0E, 0x00, 0xEE] = .ok (.mcrA32 .al 0, []) ∧
  decode .a32 [0x17, 0x1E, 0x10, 0xEE] = .ok (.mrcA32 .al 1, []) ∧
  decode .a32 [0x17, 0x0E, 0x00, 0x1E] = .ok (.mcrA32 .ne 0, []) ∧
  decode .t32 [0x00, 0xEE, 0x17, 0x0E] = .ok (.mcrT32 0, []) ∧
  decode .t32 [0x10, 0xEE, 0x17, 0x1E] = .ok (.mrcT32 1, []) ∧
  decode .a64 [0x00, 0x07, 0x14, 0xD5] = .ok (.msrA64 0, []) ∧
  decode .a64 [0x03, 0x07, 0x34, 0xD5] = .ok (.mrsA64 3, [])

/-- Decoding the encoding of a well-formed instruction gives it back, whatever bytes follow (R59 to R61). -/
def Obligations.DecodeOfEncode : Prop :=
  ∀ (i : Instr) (rest : List Byte), i.wellFormed = true → decode i.set (encode i ++ rest) = .ok (i, rest)

/-- Bytes that decode are the encoding of the well-formed instruction they decode to, in that instruction set, and the
bytes left over: each word has one meaning (R59 to R61, R63). -/
def Obligations.DecodedBytesAreTheEncoding : Prop :=
  ∀ (set : ISet) (bytes rest : List Byte) (i : Instr), decode set bytes = .ok (i, rest) →
    i.wellFormed = true ∧ i.set = set ∧ bytes = encode i ++ rest

/-- R61: a word is outside the opcode table exactly when no row of its instruction set selects it by
`(word & mask) == match`. -/
def Obligations.OutsideTheTableMeansNoRow : Prop :=
  ∀ (set : ISet) (w : Word),
    decodeWord set w = .error .outsideTable ↔ ∀ r ∈ opcodeRows, r.set = set → w &&& r.mask ≠ r.pattern

/-- R63 with decision D22: a word of an MRC or MCR row with condition 1111, or with `Rt` 15, decodes to no instruction
and is rejected by name; and the meaning of such a form refuses in every state. -/
def Obligations.UnusableFormsAreRefused : Prop :=
  (∀ w : Word, (w &&& 0x0FFF0FFF = 0x0E100E17 ∨ w &&& 0x0FFF0FFF = 0x0E000E17) →
    (w.extractLsb' 28 4 = 0b1111 → decodeWord .a32 w = .error .reservedCondition) ∧
    (w.extractLsb' 28 4 ≠ 0b1111 → w.extractLsb' 12 4 = 0b1111 → decodeWord .a32 w = .error .unusableRt)) ∧
  (∀ w : Word, (w &&& 0xFFFF0FFF = 0xEE100E17 ∨ w &&& 0xFFFF0FFF = 0xEE000E17) → w.extractLsb' 12 4 = 0b1111 →
    decodeWord .t32 w = .error .unusableRt) ∧
  (∀ (c : Cond) (s : State),
    exec (.mrcA32 c 15) s = .refused .unusableForm ∧ exec (.mcrA32 c 15) s = .refused .unusableForm ∧
    exec (.mrcT32 15) s = .refused .unusableForm ∧ exec (.mcrT32 15) s = .refused .unusableForm)

/-! ### The step -/

/-- R141: with no exception due before it and no debug or other exception on its fetch, the instruction whose bytes
stand at the pc is executed by its meaning, in the state whose entry (if any) has been tested; the step adds one draw
of free values to `exec`. -/
def Obligations.StepRunsTheDecodedInstruction : Prop :=
  ∀ (s : State) (eff : Option HostEffect) (rest : List HostInput) (left : List Byte) (i : Instr),
    nextIsInstruction s eff rest → entryPasses s → (atInstruction s rest).checkCommit s.instrLength = .execute →
    decode s.iset (s.fetch s.instrLength) = .ok (i, left) →
    step s = exec i (atInstruction s rest).tick

/-- R61, R141: an instruction outside the opcode table has the effect the host PE brings, and is refused if it brings
none (the refusal is log entry 12's DESIGN CHOICE: R61 only calls the instruction opaque); an unusable form is refused
(R63, D22). -/
def Obligations.OtherInstructionsAreTheHostPEs : Prop :=
  ∀ (s : State) (eff : Option HostEffect) (rest : List HostInput),
    nextIsInstruction s eff rest → entryPasses s → (atInstruction s rest).checkCommit s.instrLength = .execute →
    (decode s.iset (s.fetch s.instrLength) = .error .outsideTable →
      step s = match eff with
        | some x => hostRun x s.instrLength (atInstruction s rest).tick
        | none => .refused .hostInstruction) ∧
    (decode s.iset (s.fetch s.instrLength) = .error .reservedCondition → step s = .refused .unusableForm) ∧
    (decode s.iset (s.fetch s.instrLength) = .error .unusableRt → step s = .refused .unusableForm)

/-- Log entry 5 (the model's own interface): an instruction of the opcode table placed where the step fetches is the
one the next step executes, in every state whose memory is in canonical form (which every step keeps,
StepKeepsWellFormed). -/
def Obligations.PlacedWordRunsNext : Prop :=
  ∀ (s : State) (i : Instr), i.wellFormed = true → s.cfg.listed = true → s.basesAligned = true →
    Memory.wf s.mem = true →
    step (s.placeWord i.set (encodeWord i)) = exec i (s.placeWord i.set (encodeWord i)).tick

/-- R8 (the pair EL2 using AArch64, EL3 using AArch32 is refused: the spec's derivation and D2) and R45 with D8 (a
vector base with a nonzero bit in [4:0] is refused). -/
def Obligations.UnlistedConfigurationsAreRefused : Prop :=
  (∀ s : State, s.cfg.el2 = .a64 → s.cfg.el3 = .a32 → step s = .refused .configurationNotListed) ∧
  (∀ s : State, ¬(s.cfg.el2 = .a64 ∧ s.cfg.el3 = .a32) →
    (s.ctl.vbar.s.cur &&& 0x1F ≠ 0 ∨ s.ctl.vbar.ns.cur &&& 0x1F ≠ 0 ∨ s.ctl.mvbar.cur &&& 0x1F ≠ 0) →
    step s = .refused .vectorBaseMisaligned)

/-- R96, R141: an asynchronous exception the host PE brings is taken before the next instruction, whatever vector that
instruction stands at: the Vector Catch exception is preempted, and nothing of it is kept. -/
def Obligations.AsynchronousExceptionComesFirst : Prop :=
  ∀ (s : State) (e : Entry) (rest : List HostInput), s.cfg.listed = true → s.basesAligned = true →
    s.inputs = .exception e :: rest → entryPasses s →
    step s = hostException e 0 (atInstruction s rest)

/-! ### Enable bits and the enabled vector catch set -/

/-- R71: the members of the enabled vector catch set: their table exists and is not the Hyp table, their bit is the
enable bit of table and type and is enabled, their address is the vector's; without EL3 they are Local vectors only. -/
def Obligations.EnabledSetMembers : Prop :=
  (∀ (cfg : Config) (v : View) (e : CatchVector),
    e ∈ enabledSet cfg v ↔
      (match e.table with
        | .localTable => cfg.el3 = .absent
        | .secureLocal => cfg.el3 ≠ .absent
        | .nonSecureLocal => cfg.el3 ≠ .absent
        | .monitor => cfg.el3 = .a32
        | .hyp => False) ∧
      enableBit e.table e.xtype = some e.bit ∧ enabled cfg v.dbgvcr e.bit = true ∧
      e.addr = vectorBase cfg v e.table + offset e.xtype) ∧
  (∀ (cfg : Config) (v : View) (e : CatchVector), cfg.el3 = .absent → e ∈ enabledSet cfg v → e.table = .localTable)

/-- R14, R15: the vectors of the Local tables, Normal and High, bit by bit. Which instance of VBAR and SCTLR.V a table
uses is the spec's decision D7, and how many there are (one per Security state where EL3 is using AArch32, else one) is
R22's general knowledge with K4 (log entry 21). -/
def Obligations.LocalVectorAddresses : Prop :=
  (∀ (cfg : Config) (v : View) (e : CatchVector),
    (∀ r ∈ List.zip secureBits localVectorRows,
      (e ∈ enabledSet cfg v ∧ e.bit = r.1) ↔
        (enabled cfg v.dbgvcr r.1 = true ∧
          e = ⟨r.1, secureTable cfg, r.2.1,
            if v.high.of cfg .secure then r.2.2.2 else v.vbar.of cfg .secure + r.2.2.1⟩)) ∧
    (∀ r ∈ List.zip nonSecureBits localVectorRows,
      (e ∈ enabledSet cfg v ∧ e.bit = r.1) ↔
        (enabled cfg v.dbgvcr r.1 = true ∧
          e = ⟨r.1, .nonSecureLocal, r.2.1,
            if v.high.of cfg .nonSecure then r.2.2.2 else v.vbar.of cfg .nonSecure + r.2.2.1⟩))) ∧
  (∀ (cfg : Config) (v : View) (ss : SecurityState),
    (cfg.el3 ≠ .a32 → v.vbar.of cfg ss = v.vbar.s ∧ v.high.of cfg ss = v.high.s) ∧
    (cfg.el3 = .a32 → v.vbar.of cfg .secure = v.vbar.s ∧ v.vbar.of cfg .nonSecure = v.vbar.ns ∧
      v.high.of cfg .secure = v.high.s ∧ v.high.of cfg .nonSecure = v.high.ns))

/-- R16: the five Monitor vectors: always MVBAR plus the offset, whatever SCTLR.V is, and none at offset 0x04. -/
def Obligations.MonitorVectorAddresses : Prop :=
  (∀ (cfg : Config) (v : View) (e : CatchVector), ∀ r ∈ monitorVectorRows,
    (e ∈ enabledSet cfg v ∧ e.bit = r.1) ↔
      (enabled cfg v.dbgvcr r.1 = true ∧ e = ⟨r.1, .monitor, r.2.1, v.mvbar + r.2.2⟩)) ∧
  (∀ (cfg : Config) (v : View) (e : CatchVector), e ∈ enabledSet cfg v → e.table = .monitor →
    ∃ r ∈ monitorVectorRows, e.bit = r.1)

/-- R18, R68, R75 with the spec's decision D9: which bits exist; a bit that does not exist reads as 0, ignores writes,
and its value reaches neither what is read nor the enabled vector catch set. -/
def Obligations.ReservedBitsDoNothing : Prop :=
  (∀ (cfg : Config) (b : EnableBit), bitExists cfg b = true ↔
    (b ∈ secureBits ∨ (b ∈ nonSecureBits ∧ cfg.el3 ≠ .absent) ∨
      (b ∈ monitorVectorRows.map (·.1) ∧ cfg.el3 = .a32))) ∧
  (∀ (cfg : Config) (w : Word) (d : Dbgvcr) (b : EnableBit), bitExists cfg b = false →
    (d.writeWord cfg w).get b = d.get b ∧ (pack cfg d).getLsbD (bitPos b) = false) ∧
  (∀ (cfg : Config) (d d' : Dbgvcr) (v : View), (∀ b, bitExists cfg b = true → d.get b = d'.get b) →
    pack cfg d = pack cfg d' ∧
      enabledSet cfg { v with dbgvcr := d } = enabledSet cfg { v with dbgvcr := d' })

/-- R19 and `Pack` of R76 (general knowledge, K2): each enable bit stands at `offset / 4` plus 0, 8 or 24 by its table,
every other bit reads 0, and reading after a write gives the written word's existing bits. -/
def Obligations.DbgvcrReadsItsBits : Prop :=
  (∀ (t : Table) (x : XType) (b : EnableBit), enableBit t x = some b →
    bitPos b = (offset x).toNat / 4 +
      (match b.group with
        | .secure => 0
        | .monitor => 8
        | .nonSecure => 24)) ∧
  (∀ (cfg : Config) (d : Dbgvcr), (∀ b, (pack cfg d).getLsbD (bitPos b) = enabled cfg d b) ∧
    ∀ i, (∀ b, bitPos b ≠ i) → (pack cfg d).getLsbD i = false) ∧
  (∀ (cfg : Config) (d : Dbgvcr) (w : Word), pack cfg (d.writeWord cfg w) = w &&& existingBits cfg)

/-- R13, R67, R101: a Vector Catch exception is generated only for a vector whose enable bit is defined, exists and is
1, in either form and whatever is chosen where a choice is open. -/
def Obligations.CatchNeedsAnEnabledBit : Prop :=
  (∀ (c : AMChoices) (v : View) (s : State) (a b : Word) (len : Nat) (isT32 : Bool),
    amCheck c v s a len isT32 = .vc b → b = a ∧
      ∃ e ∈ enabledSet s.cfg v, enableBit e.table e.xtype = some e.bit ∧ bitExists s.cfg e.bit = true ∧
        v.dbgvcr.get e.bit = true ∧ (e.addr = a ∨ (isT32 = true ∧ len = 4 ∧ e.addr = a + 2))) ∧
  (∀ (ignored : Bool) (v : View) (s : State) (e : Entry) (w : Word), etCheck ignored v s e = some w →
    ∃ t x b, e.etype = .x x ∧ etTable s.cfg e = some t ∧ enableBit t x = some b ∧ bitExists s.cfg b = true ∧
      v.dbgvcr.get b = true ∧ w = vectorAddr s.cfg v t x)

/-! ### Late visibility of register writes -/

/-- R51 with the spec's decision D15, for the DBGVCR, VBAR, MVBAR, SCTLR.V, HCR.TGE and HDCR.TDE: until the next context
synchronisation event an evaluation uses the register as written or one of the values before it (R51 names the old and
the new value only: any value since the last such event is log entry 14's DESIGN CHOICE), and the written value and the
one just before it are each admitted; after it, every generation and routing rule uses only the written value. That
bits [4:0] of a written VBAR or MVBAR are cleared is log entry 23 (DEDUCED from R22, R24: "RES0"). Where the registers
exist for a write is `writeExists` (log entry 12). -/
def Obligations.ControlWriteVisibility : Prop :=
  (∀ (s : State) (w : Word),
    writtenLate s.ctl.dbgvcr (s.writeDbgvcr w).ctl.dbgvcr (s.ctl.dbgvcr.cur.writeWord s.cfg w) ∧
    (s.writeDbgvcr w).sync.view.dbgvcr = s.ctl.dbgvcr.cur.writeWord s.cfg w) ∧
  (∀ (s : State) (ss : SecurityState) (w : Word),
    writtenLate (s.ctl.vbar.of s.cfg ss) ((applyWrite s (.vbar ss w)).ctl.vbar.of s.cfg ss) (w &&& 0xFFFFFFE0) ∧
    (applyWrite s (.vbar ss w)).sync.view.vbar.of s.cfg ss = w &&& 0xFFFFFFE0) ∧
  (∀ (s : State) (w : Word),
    writtenLate s.ctl.mvbar (applyWrite s (.mvbar w)).ctl.mvbar (w &&& 0xFFFFFFE0) ∧
    (applyWrite s (.mvbar w)).sync.view.mvbar = w &&& 0xFFFFFFE0) ∧
  (∀ (s : State) (ss : SecurityState) (b : Bool),
    writtenLate (s.ctl.high.of s.cfg ss) ((applyWrite s (.high ss b)).ctl.high.of s.cfg ss) b ∧
    (applyWrite s (.high ss b)).sync.view.high.of s.cfg ss = b) ∧
  (∀ (s : State) (b : Bool),
    writtenLate s.ctl.tge (applyWrite s (.tge b)).ctl.tge b ∧ (applyWrite s (.tge b)).sync.view.tge = b) ∧
  (∀ (s : State) (b : Bool),
    writtenLate s.ctl.tde (applyWrite s (.tde b)).ctl.tde b ∧ (applyWrite s (.tde b)).sync.view.tde = b) ∧
  (∀ s : State, s.ctl.dbgvcr.may s.view.dbgvcr ∧ s.ctl.vbar.s.may s.view.vbar.s ∧ s.ctl.vbar.ns.may s.view.vbar.ns ∧
    s.ctl.mvbar.may s.view.mvbar ∧ s.ctl.high.s.may s.view.high.s ∧ s.ctl.high.ns.may s.view.high.ns ∧
    s.ctl.tge.may s.view.tge ∧ s.ctl.tde.may s.view.tde)

/-- R51, K12: an exception entry, an exception return and an `ISB` are context synchronisation events: after them every
generation and routing rule uses the registers' values. -/
def Obligations.ContextSynchronisationEvents : Prop :=
  (∀ s t : State, step s = .next t → t.entered ≠ none → t.view = t.ctl.current) ∧
  (∀ (len : Nat) (s t : State), hostFlow .sync len s = .next t → t.view = t.ctl.current) ∧
  (∀ (imm : Word) (s t : State), returnSubs imm s = .next t → t.view = t.ctl.current) ∧
  (∀ s t : State, returnEret s = .next t → t.view = t.ctl.current)

/-! ### The register-access instructions -/

/-- R76 (general knowledge in the spec; the access permission is decision D22): MRC in A32 and T32, in every mode but
User, with its condition passed and no trap of the access configured (R136), completes: `Rt` holds the DBGVCR as read,
the pc moves on by 4, and nothing else changes but the IT bits of T32 (log entry 6); `gprIndex` places `Rt` (log entry 8). -/
def Obligations.MrcReadsDbgvcr : Prop :=
  ∀ (s : State) (c : Cond) (rt : Fin 16) (i : Instr), i = .mrcA32 c rt ∨ i = .mrcT32 rt → runsIn i s →
    rt.val < 15 → s.cpsr.m ≠ .user → conditionPassed i s = true → s.accessTrapped = false →
    ∃ k t, gprIndex s.cpsr.m rt = some k ∧ exec i s = .next t ∧
      t.gpr = s.gpr.set k (pack s.cfg s.ctl.dbgvcr.cur) ∧ t.pc = (s.addr + 4).setWidth 64 ∧
      t.cpsr = { s.cpsr with it := itAfter s } ∧ sameButGprPc s t ∧ ∀ a, readsSame s t a

/-- R77 (as R76): MCR in A32 and T32, in every mode but User, with its condition passed and no trap of the access
configured (R136), completes: each enable bit that exists takes its bit of `Rt`, the value before stays visible until a
context synchronisation event (R51), the pc moves on by 4, and nothing else changes but the IT bits of T32 (log entry 6). -/
def Obligations.McrWritesDbgvcr : Prop :=
  ∀ (s : State) (c : Cond) (rt : Fin 16) (i : Instr), i = .mcrA32 c rt ∨ i = .mcrT32 rt → runsIn i s →
    rt.val < 15 → s.cpsr.m ≠ .user → conditionPassed i s = true → s.accessTrapped = false →
    ∃ k t, gprIndex s.cpsr.m rt = some k ∧ exec i s = .next t ∧
      (∀ b, t.ctl.dbgvcr.cur.get b =
        if bitExists s.cfg b then s.gpr[k].getLsbD (bitPos b) else s.ctl.dbgvcr.cur.get b) ∧
      t.ctl.dbgvcr.old = s.ctl.dbgvcr.cur :: s.ctl.dbgvcr.old ∧ t.pc = (s.addr + 4).setWidth 64 ∧
      t.cpsr = { s.cpsr with it := itAfter s } ∧ sameButDbgvcrPc s t ∧ ∀ a, readsSame s t a

/-- R78 (as R76): MRS at EL2 or EL3 using AArch64 with no trap of the access configured (R136) completes: `X[Xt]` holds the
DBGVCR as read, zero-extended; with `xzr` the result is discarded; the pc moves on by 4, and nothing else changes. -/
def Obligations.MrsReadsDbgvcr : Prop :=
  ∀ (s : State) (rt : Fin 32), s.exec = .aarch64 .el2 ∨ s.exec = .aarch64 .el3 → s.accessTrapped = false →
    ∃ t, exec (.mrsA64 rt) s = .next t ∧
      (∀ h : rt.val < 31, t.xreg = s.xreg.set rt.val ((pack s.cfg s.ctl.dbgvcr.cur).setWidth 64)) ∧
      (rt.val = 31 → t.xreg = s.xreg) ∧ t.pc = s.pc + 4 ∧ sameButXregPc s t ∧ ∀ a, readsSame s t a

/-- R79 (as R76): MSR at EL2 or EL3 using AArch64 with no trap of the access configured (R136) completes: each enable bit
that exists takes its bit of the low word of `X[Xt]` (0 for `xzr`), the value before stays visible until a context
synchronisation event (R51), the pc moves on by 4, and nothing else changes. -/
def Obligations.MsrWritesDbgvcr : Prop :=
  ∀ (s : State) (rt : Fin 32), s.exec = .aarch64 .el2 ∨ s.exec = .aarch64 .el3 → s.accessTrapped = false →
    ∃ t, exec (.msrA64 rt) s = .next t ∧
      (∀ b, t.ctl.dbgvcr.cur.get b =
        if bitExists s.cfg b then
          (if h : rt.val < 31 then s.xreg[rt.val].getLsbD (bitPos b) else false)
        else s.ctl.dbgvcr.cur.get b) ∧
      t.ctl.dbgvcr.old = s.ctl.dbgvcr.cur :: s.ctl.dbgvcr.old ∧ t.pc = s.pc + 4 ∧
      t.cpsr = s.cpsr ∧ sameButDbgvcrPc s t ∧ ∀ a, readsSame s t a

/-- R76, R77: an MRC or MCR whose condition fails is skipped: only the pc (and the IT bits of T32, log entry 6)
moves on, in every mode. -/
def Obligations.FailedConditionSkips : Prop :=
  ∀ (s : State) (c : Cond) (rt : Fin 16) (i : Instr),
    i = .mrcA32 c rt ∨ i = .mcrA32 c rt ∨ i = .mrcT32 rt ∨ i = .mcrT32 rt → runsIn i s → rt.val < 15 →
    conditionPassed i s = false →
    exec i s = .next { s with pc := (s.addr + 4).setWidth 64, cpsr := { s.cpsr with it := itAfter s } }

/-- R76, R77 with decision D22: from User mode, with its condition passed, an MRC or MCR takes an Undefined Instruction
exception and neither reads nor writes the DBGVCR. Where it goes is not the spec's but log entry 16 (DEDUCED and DESIGN
CHOICE): to EL2 using AArch64 if the host PE's routing says so, else to EL1 if that uses AArch64, else to Hyp mode as a
Hyp trap if HCR.TGE, at its newest value, is 1, else to Undefined mode, whose vector is at the newest VBAR and SCTLR.V
(log entry 14). What an entry saves is R131's shape with the family's link offset (log entry 9), in AArch32 in the family's
LR_und and SPSR_und (log entry 8), in AArch64 in ELR and SPSR of the level (log entry 10). That the syndrome registers are
left by an entry to Undefined mode or to AArch64 is log entry 9's unsafe DESIGN CHOICE (R129 and N16 are silent), and that
User mode gives Undefined where a trap of the access is configured too is log entry 20's DESIGN CHOICE. -/
def Obligations.UserModeAccessIsUndefined : Prop :=
  ∀ (s : State) (c : Cond) (rt : Fin 16) (i : Instr),
    i = .mrcA32 c rt ∨ i = .mcrA32 c rt ∨ i = .mrcT32 rt ∨ i = .mcrT32 rt → runsIn i s → rt.val < 15 →
    s.cpsr.m = .user → conditionPassed i s = true →
    ∃ t, exec i s = .next t ∧ t.ctl = s.ctl.sync ∧ (∀ a, readsSame s t a) ∧
      (s.undefinedToAArch64EL2 = false → s.el1is32 = true → ¬(hypExists s.cfg s.ss = true ∧ s.ctl.tge.cur = true) →
        t.entered = some ⟨.x .undef, .mode .undefined s.ss⟩ ∧ t.exec = .aarch32 ∧ t.ss = s.ss ∧
        t.cpsr.m = .undefined ∧ t.spsr = { s.spsr with und := s.cpsr } ∧
        t.gpr = s.gpr.set 29 (s.addr + if s.cpsr.t then 2 else 4) ∧ t.syn = s.syn ∧
        t.pc = (vectorAddr s.cfg s.ctl.current
          (if s.cfg.el3 = .absent then .localTable else if s.ss = .secure then .secureLocal else .nonSecureLocal)
          .undef).setWidth 64) ∧
      (s.undefinedToAArch64EL2 = false → s.el1is32 = true → hypExists s.cfg s.ss = true → s.ctl.tge.cur = true →
        t.entered = some ⟨.hypTrap, .mode .hyp s.ss⟩ ∧ t.exec = .aarch32 ∧ t.ss = s.ss ∧ t.cpsr.m = .hyp ∧
        t.spsr = { s.spsr with hyp := s.cpsr } ∧ t.elrHyp = s.addr ∧ t.gpr = s.gpr ∧
        t.pc = (s.sys.hvbar + 0x14).setWidth 64) ∧
      (s.undefinedToAArch64EL2 = false → s.el1is32 = false →
        t.exec = .aarch64 .el1 ∧ t.ret1 = ⟨s.pc, s.cpsr, .aarch32⟩ ∧ t.syn = s.syn) ∧
      (s.undefinedToAArch64EL2 = true →
        t.exec = .aarch64 .el2 ∧ t.ret2 = ⟨s.pc, s.cpsr, .aarch32⟩ ∧ t.syn = s.syn)

/-- R78, R79, R136 with decision D22: an access to DBGVCR32_EL2 other than at EL2 or EL3 using AArch64 is refused, and so
is an access to either name that would otherwise complete where a trap of it is configured. -/
def Obligations.ForbiddenAccessesAreRefused : Prop :=
  (∀ (s : State) (rt : Fin 32), s.exec ≠ .aarch64 .el2 → s.exec ≠ .aarch64 .el3 →
    exec (.mrsA64 rt) s = .refused .debugRegisterLevel ∧ exec (.msrA64 rt) s = .refused .debugRegisterLevel) ∧
  (∀ (s : State) (rt : Fin 32), s.exec = .aarch64 .el2 ∨ s.exec = .aarch64 .el3 → s.accessTrapped = true →
    exec (.mrsA64 rt) s = .refused .accessTrapConfigured ∧ exec (.msrA64 rt) s = .refused .accessTrapConfigured) ∧
  (∀ (s : State) (c : Cond) (rt : Fin 16) (i : Instr),
    i = .mrcA32 c rt ∨ i = .mcrA32 c rt ∨ i = .mrcT32 rt ∨ i = .mcrT32 rt → runsIn i s → rt.val < 15 →
    s.cpsr.m ≠ .user → conditionPassed i s = true → s.accessTrapped = true →
    exec i s = .refused .accessTrapConfigured)

/-- R20: DBGVCR32_EL2 and DBGVCR are one piece of state: a write through either name is seen by a read through the
other (in any later state with the same register), and by the generation rules once it is visible. The values read rest
on the positions of R19 and K2 and the accesses of R76 to R79, all general knowledge in the spec, and on decisions D9
and D22. -/
def Obligations.TwoNamesOneRegister : Prop :=
  (∀ (s t u : State) (c : Cond) (rt : Fin 32) (rt' : Fin 16) (k : Fin 33) (i : Instr) (x : DWord),
    x = (if h : rt.val < 31 then s.xreg[rt.val] else 0) → exec (.msrA64 rt) s = .next t →
    u.cfg = t.cfg → u.ctl = t.ctl → i = .mrcA32 c rt' ∨ i = .mrcT32 rt' → runsIn i u → u.cpsr.m ≠ .user →
    conditionPassed i u = true → u.accessTrapped = false → gprIndex u.cpsr.m rt' = some k →
    (∃ y, exec i u = .next y ∧ y.gpr[k] = x.setWidth 32 &&& existingBits s.cfg) ∧
    ∀ b, enabled u.cfg u.sync.view.dbgvcr b = (bitExists s.cfg b && x.getLsbD (bitPos b))) ∧
  (∀ (s t u : State) (c : Cond) (rt : Fin 16) (rt' : Fin 32) (k : Fin 33) (i : Instr),
    i = .mcrA32 c rt ∨ i = .mcrT32 rt → runsIn i s → s.cpsr.m ≠ .user → conditionPassed i s = true →
    gprIndex s.cpsr.m rt = some k → exec i s = .next t → u.cfg = t.cfg → u.ctl = t.ctl →
    u.exec = .aarch64 .el2 ∨ u.exec = .aarch64 .el3 → u.accessTrapped = false →
    (∃ y, exec (.mrsA64 rt') u = .next y ∧
      (∀ h : rt'.val < 31, y.xreg[rt'.val] = (s.gpr[k] &&& existingBits s.cfg).setWidth 64) ∧
      (rt'.val = 31 → y.xreg = u.xreg)) ∧
    ∀ b, enabled u.cfg u.sync.view.dbgvcr b = (bitExists s.cfg b && s.gpr[k].getLsbD (bitPos b)))

/-! ### Generation, both forms -/

/-- R3, R4: the PE is using an AArch32 translation regime at EL1 or higher in AArch32, or at EL0 with EL0 and EL1 using
AArch32; otherwise neither form generates a Vector Catch exception, whatever is chosen. -/
def Obligations.NoCatchOutsideAArch32Regimes : Prop :=
  (∀ s : State, s.usingAArch32Regime = true ↔
    s.exec = .aarch32 ∧ (s.cpsr.m ≠ .user ∨ (s.el0is32 = true ∧ s.el1is32 = true))) ∧
  (∀ (c : AMChoices) (v : View) (s : State) (a : Word) (len : Nat) (isT32 : Bool), s.usingAArch32Regime = false →
    amCheck c v s a len isT32 = .noVC) ∧
  (∀ (ignored : Bool) (v : View) (s : State) (e : Entry), s.usingAArch32Regime = false →
    etCheck ignored v s e = none)

/-- R80, R100: only the rules of the implemented form apply: with the exception-trapping form no address is compared,
with the address-matching form no entry is trapped. -/
def Obligations.OnlyTheImplementedFormActs : Prop :=
  (∀ (c : AMChoices) (v : View) (s : State) (a : Word) (len : Nat) (isT32 : Bool),
    s.cfg.form = .exceptionTrapping → amCheck c v s a len isT32 = .noVC) ∧
  (∀ (ignored : Bool) (v : View) (s : State) (e : Entry), s.cfg.form = .addressMatching →
    etCheck ignored v s e = none)

/-- R75 (last sentence), R99, R111: while the debug exception enable controls, evaluated in the state the check is made
in (D3, D12), hold Vector Catch exceptions off, nothing is generated in either form. -/
def Obligations.DisabledControlsCatchNothing : Prop :=
  (∀ (c : AMChoices) (v : View) (s : State) (a : Word) (len : Nat) (isT32 : Bool),
    s.debugExceptionsEnabled = false → amCheck c v s a len isT32 = .noVC) ∧
  (∀ (ignored : Bool) (v : View) (s : State) (e : Entry), s.debugExceptionsEnabled = false →
    etCheck ignored v s e = none)

/-- R125 (its address-matching part with decision D11): a Prefetch Abort or Data Abort vector at ELD is caught or
ignored as the open choice has it; where the Exception level concerned is not ELD, the choice changes nothing. -/
def Obligations.AbortVectorsAtTheDebugTargetLevel : Prop :=
  (∀ (c : AMChoices) (v : View) (s : State) (a : Word) (len : Nat) (isT32 : Bool), s.amApplies = true →
    (∃ e ∈ amSubset s.cfg v s.ss, e.addr = a ∧ (e.xtype = .prefetchAbort ∨ e.xtype = .dataAbort)) →
    s.breakpointAt a = false →
    amCheck c v s a len isT32 =
      if s.el = eld s.cfg v s.ss s.cpsr.m ∧ c.ignoreAbort = true then .noVC else .vc a) ∧
  (∀ (ignored : Bool) (v : View) (s : State) (x : XType) (m : Mode) (ss : SecurityState) (b : EnableBit),
    s.etApplies = true → (x = .prefetchAbort ∨ x = .dataAbort) →
    enableBit (targetTable s.cfg m ss) x = some b → enabled s.cfg v.dbgvcr b = true →
    etCheck ignored v s ⟨.x x, .mode m ss⟩ =
      if modeEL s.cfg ss m = eld s.cfg v s.ss s.cpsr.m ∧ ignored = true then none
      else some (vectorAddr s.cfg v (targetTable s.cfg m ss) x))

/-! ### Generation, address-matching form -/

/-- R82, R83, R84: the subset compared: without EL3 the whole set, Local vectors only; with EL3 the Local vectors of
the current Security state, and in Secure state with EL3 using AArch32 the Monitor vectors too; and a Vector Catch
exception comes only from the subset. -/
def Obligations.SubsetComparedBySecurityState : Prop :=
  (∀ (cfg : Config) (v : View) (ss : SecurityState), cfg.el3 = .absent → amSubset cfg v ss = enabledSet cfg v ∧
    ∀ e ∈ enabledSet cfg v, e.table = .localTable) ∧
  (∀ (cfg : Config) (v : View) (e : CatchVector), cfg.el3 = .a64 →
    (e ∈ amSubset cfg v .secure ↔ e ∈ enabledSet cfg v ∧ e.table = .secureLocal) ∧
    (e ∈ amSubset cfg v .nonSecure ↔ e ∈ enabledSet cfg v ∧ e.table = .nonSecureLocal)) ∧
  (∀ (cfg : Config) (v : View) (e : CatchVector), cfg.el3 = .a32 →
    (e ∈ amSubset cfg v .secure ↔ e ∈ enabledSet cfg v ∧ (e.table = .secureLocal ∨ e.table = .monitor)) ∧
    (e ∈ amSubset cfg v .nonSecure ↔ e ∈ enabledSet cfg v ∧ e.table = .nonSecureLocal)) ∧
  (∀ (c : AMChoices) (v : View) (s : State) (a b : Word) (len : Nat) (isT32 : Bool),
    amCheck c v s a len isT32 = .vc b →
    ∃ e ∈ amSubset s.cfg v s.ss, e.addr = a ∨ (isT32 = true ∧ len = 4 ∧ e.addr = a + 2))

/-- R97: an instruction at a compared vector can generate the exception in every AArch32 mode except Hyp mode, User
mode among them while EL0 and EL1 use AArch32; in Hyp mode nothing is generated, whatever the DBGVCR holds. -/
def Obligations.EveryModeButHypMatches : Prop :=
  (∀ (v : View) (s : State) (a : Word) (len : Nat) (isT32 : Bool), s.cfg.form = .addressMatching →
    s.exec = .aarch32 → s.cpsr.m ≠ .hyp → (s.cpsr.m = .user → s.el0is32 = true ∧ s.el1is32 = true) →
    s.debugExceptionsEnabled = true → (∃ e ∈ amSubset s.cfg v s.ss, e.addr = a) →
    ∃ c, amCheck c v s a len isT32 = .vc a) ∧
  (∀ (c : AMChoices) (v : View) (s : State) (a : Word) (len : Nat) (isT32 : Bool), s.exec = .aarch32 →
    s.cpsr.m = .hyp → amCheck c v s a len isT32 = .noVC)

/-- R98, R115: with EL2 using AArch32 and HCR.TGE 1, a match in Non-secure User mode (or User mode without EL3) is
generated all the same, and is taken to Hyp mode. -/
def Obligations.TgeUserMatchGoesToHyp : Prop :=
  ∀ (c : AMChoices) (v : View) (s : State) (a : Word) (len : Nat) (isT32 : Bool), s.amApplies = true →
    s.cpsr.m = .user → s.cfg.el2 = .a32 → (s.cfg.el3 = .absent ∨ s.ss = .nonSecure) → v.tge = true →
    (∃ e ∈ amSubset s.cfg v s.ss, e.addr = a) → s.breakpointAt a = false →
    amCheck c v s a len isT32 = .vc a ∧
      ∃ t, takeDebugRouted v moeVectorCatch a s = .next t ∧ t.cpsr.m = .hyp ∧ t.ss = s.ss

/-- R93 (the spec's derivation from R81): at exactly the vector the match is certain for every length and instruction
set, whatever the half-match choice is; and with no vector at the address, and none two bytes on for a 32-bit T32
instruction, nothing is generated (R81, D18). -/
def Obligations.ExactMatchIsCertain : Prop :=
  (∀ (c : AMChoices) (v : View) (s : State) (a : Word) (len : Nat) (isT32 : Bool), s.amApplies = true →
    (∃ e ∈ amSubset s.cfg v s.ss, e.addr = a) →
    (∀ e ∈ amSubset s.cfg v s.ss, e.addr = a → e.xtype ≠ .prefetchAbort ∧ e.xtype ≠ .dataAbort) →
    s.breakpointAt a = false → amCheck c v s a len isT32 = .vc a) ∧
  (∀ (c : AMChoices) (v : View) (s : State) (a : Word) (len : Nat) (isT32 : Bool),
    (∀ e ∈ amSubset s.cfg v s.ss, e.addr ≠ a ∧ ¬(isT32 = true ∧ len = 4 ∧ e.addr = a + 2)) →
    amCheck c v s a len isT32 = .noVC)

/-- R91 (its last sentence is the spec's derivation): a 32-bit T32 instruction two bytes before a compared vector, and
at none itself, generates the exception or does not, as the open choice has it, and the address it reports is its own
(90_conflicts.md C5); where that vector is an abort vector at ELD it may be ignored besides (R125 with decision D11); a
16-bit instruction generates nothing. -/
def Obligations.HalfMatchIsAChoice : Prop :=
  ∀ (c : AMChoices) (v : View) (s : State) (a : Word), s.amApplies = true →
    (∀ e ∈ amSubset s.cfg v s.ss, e.addr ≠ a) → (∃ e ∈ amSubset s.cfg v s.ss, e.addr = a + 2) →
    (c.halfMatch = false → amCheck c v s a 4 true = .noVC) ∧
    (c.halfMatch = true → s.breakpointAt a = false →
      (∀ e ∈ amSubset s.cfg v s.ss, e.addr = a + 2 → e.xtype ≠ .prefetchAbort ∧ e.xtype ≠ .dataAbort) ∨
        s.el ≠ eld s.cfg v s.ss s.cpsr.m →
      amCheck c v s a 4 true = .vc a) ∧
    (c.halfMatch = true → s.breakpointAt a = false →
      (∃ e ∈ amSubset s.cfg v s.ss, e.addr = a + 2 ∧ (e.xtype = .prefetchAbort ∨ e.xtype = .dataAbort)) →
      s.el = eld s.cfg v s.ss s.cpsr.m →
      amCheck c v s a 4 true = if c.ignoreAbort then .noVC else .vc a) ∧
    amCheck c v s a 2 true = .noVC

/-- R92: a T32 instruction two bytes after a compared vector generates nothing for it: at all if it is 16 bits long or
no compared vector stands four bytes after the first, and else only by R91's choice for that next vector. -/
def Obligations.NoMatchTwoBytesAfterAVector : Prop :=
  ∀ (c : AMChoices) (v : View) (s : State) (e : CatchVector) (len : Nat), v.aligned →
    e ∈ amSubset s.cfg v s.ss →
    (len = 2 → amCheck c v s (e.addr + 2) len true = .noVC) ∧
    ((∀ e' ∈ amSubset s.cfg v s.ss, e'.addr ≠ e.addr + 4) → amCheck c v s (e.addr + 2) len true = .noVC) ∧
    (c.halfMatch = false → amCheck c v s (e.addr + 2) len true = .noVC)

/-- R94: an instruction that causes both debug exceptions takes one of them, which is open, whether it stands at a vector
or causes R91's half match; on an abort vector at ELD the vector catch may be ignored besides (R125, D11), and then, as
for every instruction with a Breakpoint exception alone, the Breakpoint exception is taken (log entry 22). It differs
from a Vector Catch exception only in DBGDSCRext.MOE (general knowledge in the spec, K17). That it is routed, inside a window
of HCR.TGE or HDCR.TDE, by the values this evaluation sees in the address-matching form is log entry 14's DESIGN CHOICE
(R51 names the generation rules only), and by the newest values in the exception-trapping form follows R109. -/
def Obligations.BreakpointTie : Prop :=
  (∀ (c : AMChoices) (v : View) (s : State) (a : Word) (len : Nat) (isT32 : Bool), s.amApplies = true →
    s.breakpointAt a = true → (∃ e ∈ amSubset s.cfg v s.ss, e.addr = a) →
    ((∀ e ∈ amSubset s.cfg v s.ss, e.addr = a → e.xtype ≠ .prefetchAbort ∧ e.xtype ≠ .dataAbort) →
      amCheck c v s a len isT32 = if c.takeBreakpoint then .breakpoint else .vc a) ∧
    ((∃ e ∈ amSubset s.cfg v s.ss, e.addr = a ∧ (e.xtype = .prefetchAbort ∨ e.xtype = .dataAbort)) →
      amCheck c v s a len isT32 =
        if s.el = eld s.cfg v s.ss s.cpsr.m ∧ c.ignoreAbort = true then .noVC
        else if c.takeBreakpoint then .breakpoint
        else .vc a)) ∧
  (∀ (c : AMChoices) (v : View) (s : State) (a : Word), s.amApplies = true → s.breakpointAt a = true →
    (∀ e ∈ amSubset s.cfg v s.ss, e.addr ≠ a) → (∃ e ∈ amSubset s.cfg v s.ss, e.addr = a + 2) →
    c.halfMatch = true →
    ((∀ e ∈ amSubset s.cfg v s.ss, e.addr = a + 2 → e.xtype ≠ .prefetchAbort ∧ e.xtype ≠ .dataAbort) →
      amCheck c v s a 4 true = if c.takeBreakpoint then .breakpoint else .vc a) ∧
    ((∃ e ∈ amSubset s.cfg v s.ss, e.addr = a + 2 ∧ (e.xtype = .prefetchAbort ∨ e.xtype = .dataAbort)) →
      amCheck c v s a 4 true =
        if s.el = eld s.cfg v s.ss s.cpsr.m ∧ c.ignoreAbort = true then .noVC
        else if c.takeBreakpoint then .breakpoint
        else .vc a)) ∧
  (∀ (s : State) (len : Nat), s.breakpointAt s.addr = true →
    amCheck (amChoices s.draws) s.view s s.addr len s.cpsr.t = .noVC → s.fetchExceptions = [] →
    s.checkCommit len = .breakpoint) ∧
  (∀ (pra : Word) (s t : State), s.cfg.form = .addressMatching → takeVC pra s = .next t →
    takeBreakpoint pra s = .next { t with syn := { t.syn with moe := 0b0001 } }) ∧
  (∀ (pra : Word) (s t : State), s.cfg.form = .exceptionTrapping →
    takeDebugRouted s.ctl.current moeVectorCatch pra s = .next t →
    takeBreakpoint pra s = .next { t with syn := { t.syn with moe := 0b0001 } })

/-- R85 to R90: an instruction at a compared vector is not executed: the Vector Catch exception is taken instead, with
its address as preferred return address, whether or not an exception entry has just been made, and with no condition on
the instruction, the flags, HCR.{IMO, FMO, AMO}, SCR.{IRQ, FIQ, EA} or how the pc came there. -/
def Obligations.MatchedInstructionIsNotExecuted : Prop :=
  ∀ (s : State) (eff : Option HostEffect) (rest : List HostInput),
    nextIsInstruction s eff rest → certainMatch s → step s = takeVC s.addr (atInstruction s rest).tick

/-- R95 (and K10's order, at the end): of the exceptions that result from the fetch of one instruction, the match among
them, the one with the highest place in the parameter `FetchPriority` is taken: another exception that comes before the
match and before every other one, or the Vector Catch exception if it comes before them all. -/
def Obligations.FetchPriorityOrdersTheExceptions : Prop :=
  (∀ (s : State) (eff : Option HostEffect) (rest : List HostInput), nextIsInstruction s eff rest →
    certainMatch { s with params := { s.params with fetchExceptions := [] } } →
    (∀ f ∈ s.fetchExceptions, goesBefore s.cfg (.source f.source) .debug →
      (∀ g ∈ s.fetchExceptions, g = f ∨ goesBefore s.cfg (.source f.source) (.source g.source)) →
      step s = hostException f.entry s.instrLength (atInstruction s rest).tick) ∧
    ((∀ f ∈ s.fetchExceptions, goesBefore s.cfg .debug (.source f.source)) →
      step s = takeVC s.addr (atInstruction s rest).tick)) ∧
  (∀ cfg : Config, cfg.fetchPriority = Config.recalledPriority →
    goesBefore cfg (.source .softwareStep) (.source .misalignedPc) ∧
    goesBefore cfg (.source .misalignedPc) (.source .instructionAbort) ∧
    goesBefore cfg (.source .instructionAbort) .debug)

/-! ### Generation, exception-trapping form -/

/-- R101, R111: an entry generates a Vector Catch exception exactly when the guards hold, the vector it used has an
enable bit that is enabled, and (R125) it is no abort taken to ELD that is ignored; what is reported is that vector. -/
def Obligations.EntryGeneratesTheCatch : Prop :=
  ∀ (ignored : Bool) (v : View) (s : State) (e : Entry) (w : Word),
    etCheck ignored v s e = some w ↔
      s.cfg.form = .exceptionTrapping ∧ s.usingAArch32Regime = true ∧ s.debugExceptionsEnabled = true ∧
      (∃ m ss x b, e = ⟨.x x, .mode m ss⟩ ∧ enableBit (targetTable s.cfg m ss) x = some b ∧
        enabled s.cfg v.dbgvcr b = true ∧ w = vectorAddr s.cfg v (targetTable s.cfg m ss) x ∧
        ¬((x = .prefetchAbort ∨ x = .dataAbort) ∧ modeEL s.cfg ss m = eld s.cfg v s.ss s.cpsr.m ∧ ignored = true))

/-- R102, R103, R104: the subset tested: without EL3 the Local vectors for an entry to a PL1 mode; with EL3 the Monitor
vectors for an entry to Monitor mode, and for the other PL1 modes the Local vectors of the Security state it is handled
in. The exception is generated exactly when the vector of the entry's type is in the enabled vector catch set of that
table, under the guards of R111 and but for an abort at ELD that is ignored (R125). -/
def Obligations.SubsetTestedByTheEntry : Prop :=
  ∀ (ignored : Bool) (v : View) (s : State) (x : XType) (m : Mode) (ss : SecurityState) (w : Word),
    m ≠ .hyp → (m = .monitor → s.cfg.el3 = .a32) →
    (etCheck ignored v s ⟨.x x, .mode m ss⟩ = some w ↔
      s.etApplies = true ∧
      ¬((x = .prefetchAbort ∨ x = .dataAbort) ∧ modeEL s.cfg ss m = eld s.cfg v s.ss s.cpsr.m ∧ ignored = true) ∧
      ∃ e ∈ enabledSet s.cfg v, e.xtype = x ∧ e.addr = w ∧
        (s.cfg.el3 = .absent → e.table = .localTable) ∧
        (s.cfg.el3 ≠ .absent → m = .monitor → e.table = .monitor) ∧
        (s.cfg.el3 ≠ .absent → m ≠ .monitor → ss = .secure → e.table = .secureLocal) ∧
        (s.cfg.el3 ≠ .absent → m ≠ .monitor → ss = .nonSecure → e.table = .nonSecureLocal))

/-- R110: an exception taken to Hyp mode, a Monitor trap, an exception taken to an Exception level using AArch64, and
one whose table and type have no enable bit never generate a Vector Catch exception in the exception-trapping form. -/
def Obligations.EntriesNeverTrapped : Prop :=
  ∀ (ignored : Bool) (v : View) (s : State),
    (∀ t ss, etCheck ignored v s ⟨t, .mode .hyp ss⟩ = none) ∧
    (∀ tgt, etCheck ignored v s ⟨.monitorTrap, tgt⟩ = none) ∧
    (∀ t el, etCheck ignored v s ⟨t, .aarch64 el⟩ = none) ∧
    (∀ tgt, etCheck ignored v s ⟨.other, tgt⟩ = none) ∧
    (∀ x m ss, enableBit (targetTable s.cfg m ss) x = none → etCheck ignored v s ⟨.x x, .mode m ss⟩ = none)

/-- R106 (its last sentence is the spec's derivation): in the exception-trapping form an instruction at a vector is
executed, however the pc came there, and a branch, a return or sequential execution is no entry. -/
def Obligations.BranchesAreNotTrapped : Prop :=
  (∀ (s : State) (eff : Option HostEffect) (rest : List HostInput), s.cfg.form = .exceptionTrapping →
    s.entered = none → nextIsInstruction s eff rest → s.breakpointAt s.addr = false → s.fetchExceptions = [] →
    step s = runInstruction eff s.instrLength { s with inputs := rest }.tick) ∧
  (∀ (f : HostFlow) (len : Nat) (s t : State), (∀ e, f ≠ .takes e) → s.entered = none →
    hostFlow f len s = .next t → t.entered = none)

/-- R105, R107: the Vector Catch exception of an entry is taken in the very next step, before any instruction and any
further exception: whatever the host PE brings is left for later. -/
def Obligations.EntryThenCatchAtOnce : Prop :=
  ∀ (s : State) (e : Entry) (w : Word), s.cfg.listed = true → s.basesAligned = true → s.entered = some e →
    s.synced = true → etCheck false s.ctl.current s e = some w →
    (e.etype.isAbort = false ∨ e.target.el s.cfg ≠ eld s.cfg s.ctl.current s.ss s.cpsr.m) →
    step s = takeVC w s.tick

/-- R109 (a consequence of the routing: log entry 17 refuses the host PE's exceptions to Non-secure PL1 modes while HCR.TGE
is 1, and log entries 16 and 14 route the Undefined Instruction and the Breakpoint exception by its newest value): with EL2 using AArch32 and HCR.TGE 1 no exception of
the host PE that is handled in Non-secure state (or without EL3), nor the Undefined Instruction exception of an access
from User mode, generates a Vector Catch exception in the exception-trapping form; and from a well-formed state no step, a
Breakpoint or a Vector Catch exception among what it takes, leaves an entry there that generates one while HCR.TGE is 1. -/
def Obligations.TgeLeavesNothingToTrap : Prop :=
  (∀ (e : Entry) (len : Nat) (s t : State) (ignored : Bool), hypExists s.cfg s.ss = true → s.ctl.tge.cur = true →
    hostException e len s = .next t → hypExists t.cfg t.ss = true → etCheck ignored t.view t e = none) ∧
  (∀ (s : State) (ignored : Bool), hypExists s.cfg s.ss = true → s.ctl.tge.cur = true → s.el1is32 = true →
    etCheck ignored (raiseUndefined s).view (raiseUndefined s) (undefEntry s) = none) ∧
  (∀ (s t : State) (e : Entry) (ignored : Bool), s.WF = true → step s = .next t → t.entered = some e →
    hypExists t.cfg t.ss = true → t.ctl.tge.cur = true → etCheck ignored t.view t e = none)

/-! ### Taking the exception -/

/-- R115, R116 with the spec's decision D4: the routing predicate and the debug target Exception level. -/
def Obligations.RoutingAndDebugTarget : Prop :=
  ∀ (cfg : Config) (v : View) (ss : SecurityState) (m : Mode),
    (routeToHyp cfg v ss m = true ↔
      cfg.el2 = .a32 ∧ (cfg.el3 = .absent ∨ ss = .nonSecure) ∧ m ≠ .hyp ∧ (v.tge = true ∨ v.tde = true)) ∧
    (routeToHyp cfg v ss m = true → eld cfg v ss m = .el2) ∧
    (routeToHyp cfg v ss m = false → cfg.el3 = .a32 → ss = .secure → eld cfg v ss m = .el3) ∧
    (routeToHyp cfg v ss m = false → ¬(cfg.el3 = .a32 ∧ ss = .secure) → eld cfg v ss m = .el1)

/-- R113, R117, R118, R119: taken to PL1 the exception is a Prefetch Abort exception to Abort mode in the current Security
state, with `pra` as its preferred return address; IFSR.FS, MOE and IFAR are written (IFAR with a free value), HSR and
HIFAR are not. That the IFSR is the one of the current Security state is R117's general knowledge (log entries 15, 21),
and the link value is that of R131's sketch (general knowledge, K9). -/
def Obligations.TakenToAbortMode : Prop :=
  ∀ (pra : Word) (s : State), routeToHyp s.cfg s.view s.ss s.cpsr.m = false →
    ¬(s.cfg.el2 = .a64 ∧ s.routedToAArch64EL2 = true) →
    ∃ t, takeVC pra s = .next t ∧ t.entered = some ⟨.x .prefetchAbort, .mode .abort s.ss⟩ ∧
      t.exec = .aarch32 ∧ t.cpsr.m = .abort ∧ t.ss = s.ss ∧
      t.syn = { s.syn with
        ifsrFs := s.syn.ifsrFs.write s.cfg s.ss 0b00010
        moe := 0b0101
        ifar := (Config.draw .ifar s.draws).setWidth 32 } ∧
      t = takeException ⟨.x .prefetchAbort, .mode .abort s.ss⟩ (pra.setWidth 64)
        (linkValue (.x .prefetchAbort) pra s.cpsr.t s.draws) { s with syn := t.syn }

/-- R114, R120 to R124: taken to PL2 the exception is a Hyp trap exception to Hyp mode, with `pra` as its preferred return
address; HSR.EC, HSR.IL, HSR.ISS, MOE and HIFAR are written (HIFAR with a free value), IFSR and IFAR are not. The HSR word
rests on K5's positions (general knowledge). -/
def Obligations.TakenToHypMode : Prop :=
  ∀ (pra : Word) (s : State), routeToHyp s.cfg s.view s.ss s.cpsr.m = true →
    ∃ t, takeVC pra s = .next t ∧ t.entered = some ⟨.hypTrap, .mode .hyp s.ss⟩ ∧
      t.exec = .aarch32 ∧ t.cpsr.m = .hyp ∧ t.ss = s.ss ∧
      t.syn.hsr.ec = 0x20 ∧ t.syn.hsr.il = 1 ∧ t.syn.hsr.iss.extractLsb' 10 15 = 0 ∧
      t.syn.hsr.iss.getLsbD 9 = false ∧ t.syn.hsr.iss.extractLsb' 6 3 = 0 ∧
      t.syn.hsr.iss.extractLsb' 0 6 = 0b100010 ∧ t.syn.hsr.toWord = 0x82000022 ∧ t.syn.moe = 0b0101 ∧
      t.syn.hifar = (Config.draw .hifar s.draws).setWidth 32 ∧ t.syn.ifsrFs = s.syn.ifsrFs ∧
      t.syn.ifar = s.syn.ifar ∧
      t = takeException ⟨.hypTrap, .mode .hyp s.ss⟩ (pra.setWidth 64) 0 { s with syn := t.syn }

/-- R131, R126 (general knowledge in the spec, K9): what a Vector Catch exception taken to Abort mode saves, and its
frame: SPSR_abt the CPSR, LR_abt the preferred return address plus 4, CPSR's mode, I, A, IT, T and E, the pc at the
Prefetch Abort vector of the current Security state's Local table (at the newest VBAR and SCTLR.V, inside a window of late
visibility too: log entry 14, an unsafe DESIGN CHOICE); no other register, control or byte of memory but the syndrome
(TakenToAbortMode). That SCR.NS is among the controls kept, on an entry made from Monitor mode too (AM29), is log entry 9's
unsafe DESIGN CHOICE: R131 and N13 do not say. -/
def Obligations.AbortEntryMechanics : Prop :=
  ∀ (pra : Word) (s t : State), takeVC pra s = .next t → t.cpsr.m = .abort →
    t.spsr = { s.spsr with abt := s.cpsr } ∧ t.gpr = s.gpr.set 27 (pra + 4) ∧
    t.cpsr = { s.cpsr with
      m := .abort, it := 0, i := true, a := true, t := s.sys.te.of s.cfg s.ss, e := s.sys.ee.of s.cfg s.ss } ∧
    t.pc = (vectorBase s.cfg s.ctl.current
      (if s.cfg.el3 = .absent then .localTable else if s.ss = .secure then .secureLocal else .nonSecureLocal) +
        0x0C).setWidth 64 ∧
    t.elrHyp = s.elrHyp ∧ t.xreg = s.xreg ∧ t.ret1 = s.ret1 ∧ t.ret2 = s.ret2 ∧ t.ret3 = s.ret3 ∧ t.ss = s.ss ∧
    t.cfg = s.cfg ∧ t.el1is32 = s.el1is32 ∧ t.el0is32 = s.el0is32 ∧ t.ctl = s.ctl.sync ∧ t.sys = s.sys ∧
    t.params = s.params ∧ t.inputs = s.inputs ∧ ∀ a, readsSame s t a

/-- R131, R126 (general knowledge in the spec, K9): what a Vector Catch exception taken to Hyp mode saves, and its
frame: SPSR_hyp the CPSR, ELR_hyp the preferred return address, CPSR's mode, IT, T and E, its A, I and F free (log
entry 9), the pc at HVBAR + 0x14; no other register, control or byte of memory but the syndrome (TakenToHypMode). -/
def Obligations.HypEntryMechanics : Prop :=
  ∀ (pra : Word) (s t : State), takeVC pra s = .next t → t.cpsr.m = .hyp →
    t.spsr = { s.spsr with hyp := s.cpsr } ∧ t.elrHyp = pra ∧ t.gpr = s.gpr ∧
    (∃ a i f, t.cpsr = { s.cpsr with m := .hyp, it := 0, t := s.sys.hte, e := s.sys.hee, a := a, i := i, f := f }) ∧
    t.pc = (s.sys.hvbar + 0x14).setWidth 64 ∧ t.xreg = s.xreg ∧ t.ret1 = s.ret1 ∧ t.ret2 = s.ret2 ∧ t.ret3 = s.ret3 ∧
    t.ss = s.ss ∧ t.cfg = s.cfg ∧ t.el1is32 = s.el1is32 ∧ t.el0is32 = s.el0is32 ∧ t.ctl = s.ctl.sync ∧ t.sys = s.sys ∧
    t.params = s.params ∧ t.inputs = s.inputs ∧ ∀ a, readsSame s t a

/-- R115, R128 with the spec's decision D4: with EL2 using AArch64, a Vector Catch exception that would be routed there
is refused, and it is the only one that is. -/
def Obligations.RefusedOnlyToAArch64EL2 : Prop :=
  ∀ (pra : Word) (s : State),
    (s.cfg.el2 = .a64 → s.routedToAArch64EL2 = true → takeVC pra s = .refused .routedToAArch64EL2) ∧
    (¬(s.cfg.el2 = .a64 ∧ s.routedToAArch64EL2 = true) →
      ∃ t, takeVC pra s = .next t ∧ t.exec = .aarch32 ∧ (t.cpsr.m = .abort ∨ t.cpsr.m = .hyp) ∧ t.ss = s.ss)

/-- R126: in the exception-trapping form the preferred return address of the Vector Catch exception is the vector the
entry used, which is where the pc then is: in every well-formed state with an entry to test, with every register write
visible (which the entry made so, R51). -/
def Obligations.TrappedVectorIsThePc : Prop :=
  ∀ (s : State) (e : Entry) (ignored : Bool) (w : Word), s.WF = true → s.entered = some e →
    etCheck ignored s.view s e = some w → w = s.addr ∧ s.pc = w.setWidth 64

/-- R133, R125: after a Vector Catch exception taken to Abort mode the Prefetch Abort vector may be caught again, or
not, as the open choice has it, in either form, if it is itself an enabled vector catch; one taken to Hyp mode cannot
recur. -/
def Obligations.RecursiveLoop : Prop :=
  (∀ (pra : Word) (s t : State) (b : EnableBit) (len : Nat) (isT32 : Bool) (c : AMChoices) (ignored : Bool),
    s.synced = true → s.cpsr.m ≠ .hyp → takeVC pra s = .next t →
    t.cpsr.m = .abort → t.debugExceptionsEnabled = true →
    enableBit (targetTable s.cfg .abort s.ss) .prefetchAbort = some b →
    enabled s.cfg s.ctl.dbgvcr.cur b = true →
    (s.cfg.form = .exceptionTrapping →
      etCheck ignored t.view t ⟨.x .prefetchAbort, .mode .abort s.ss⟩ = if ignored then none else some t.addr) ∧
    (s.cfg.form = .addressMatching → t.breakpointAt t.addr = false →
      amCheck c t.view t t.addr len isT32 = if c.ignoreAbort then .noVC else .vc t.addr)) ∧
  (∀ (pra : Word) (s t : State) (c : AMChoices) (ignored : Bool) (a : Word) (len : Nat) (isT32 : Bool),
    takeVC pra s = .next t → t.cpsr.m = .hyp →
    (∀ e, t.entered = some e → etCheck ignored t.view t e = none) ∧ amCheck c t.view t a len isT32 = .noVC)

/-- R132, R131 (the return instructions are general knowledge in the spec): a Vector Catch exception of the instruction
at the pc of a well-formed AArch32 state, then the return from its handler with nothing between, gives the state back:
pc, CPSR, Security state, every register, control and byte of memory, but for LR_abt (or ELR_hyp), the saved status of
that mode, the syndrome, the late visibility of writes (two context synchronisation events have passed) and the model's
own bookkeeping (the entry recorded, the count of draws). For a state in Monitor mode this rests on the entry leaving
SCR.NS as it was, log entry 9's unsafe DESIGN CHOICE (R131 and N13 are silent). -/
def Obligations.EntryThenReturnRestores : Prop :=
  ∀ s t : State, s.WF = true → s.usingAArch32Regime = true → s.cpsr.m ≠ .hyp → takeVC s.addr s = .next t →
    (t.cpsr.m = .abort → ∃ u, returnSubs 4 t = .next u ∧
      u = { s with
        gpr := s.gpr.set 27 (s.addr + 4)
        spsr := { s.spsr with abt := s.cpsr }
        syn := t.syn
        ctl := s.ctl.sync
        entered := t.entered
        draws := u.draws }) ∧
    (t.cpsr.m = .hyp → ∃ u, returnEret t = .next u ∧
      u = { s with
        elrHyp := s.addr
        spsr := { s.spsr with hyp := s.cpsr }
        syn := t.syn
        ctl := s.ctl.sync
        entered := t.entered
        draws := u.draws })

/-! ### Invariants -/

/-- Every step keeps a state well-formed: a configuration of R8 with levels that fit it (log entry 2), a mode, level and
Security state it has, vector bases with bits [4:0] zero (R22, R24, R45), an aligned pc, memory in canonical form, and an
entry to test that left the PE at its vector. -/
def Obligations.StepKeepsWellFormed : Prop :=
  ∀ s t : State, s.WF = true → step s = .next t → t.WF = true

/-- R41, R142: the reset state is well-formed for every choice of the values the spec leaves unspecified, holds those
values, and lists no memory; the reset state the machine starts from is one of them (its values are the model's, log
entries 1 and 4). -/
def Obligations.ResetIsWellFormed : Prop :=
  (∀ r : ResetValues, (State.resetWith r).WF = true ∧ (State.resetWith r).synced = true ∧
    (State.resetWith r).ctl.dbgvcr.cur = r.dbgvcr ∧ (State.resetWith r).ctl.tge.cur = r.tge ∧
    (State.resetWith r).ctl.tde.cur = r.tde ∧ (State.resetWith r).ctl.high.map Windowed.cur = r.high ∧
    (State.resetWith r).syn = r.syn ∧ (State.resetWith r).mem = []) ∧
  (∀ r : ResetValues, baseAligned r.vbar.s = true → baseAligned r.vbar.ns = true → baseAligned r.mvbar = true →
    (State.resetWith r).ctl.vbar.map Windowed.cur = r.vbar ∧ (State.resetWith r).ctl.mvbar.cur = r.mvbar) ∧
  (∃ r : ResetValues, State.reset = State.resetWith r)

/-- R5, R144 (and D2 for the levels): no step changes the form, the configuration or the Execution states of EL0 and
EL1. -/
def Obligations.ConfigurationIsFixed : Prop :=
  ∀ s t : State, step s = .next t → t.cfg = s.cfg ∧ t.el1is32 = s.el1is32 ∧ t.el0is32 = s.el0is32

/-- R6, R48, R55: the enable bits change only when an MCR or MSR of the opcode table, fetched at the pc, is executed, and
the step is that execution and no exception: no exception, no return and no other instruction writes the DBGVCR. -/
def Obligations.OnlyItsInstructionsWriteDbgvcr : Prop :=
  ∀ s t : State, step s = .next t → t.ctl.dbgvcr.cur ≠ s.ctl.dbgvcr.cur →
    ∃ eff rest i left, nextIsInstruction s eff rest ∧ entryPasses s ∧
      (atInstruction s rest).checkCommit s.instrLength = .execute ∧
      decode s.iset (s.fetch s.instrLength) = .ok (i, left) ∧ i.writesDbgvcr = true ∧
      exec i (atInstruction s rest).tick = .next t ∧ t.entered = none

/-- R48: the syndrome registers are written only as part of taking an exception: a step that changes one of them ends
with an exception entry just made. -/
def Obligations.SyndromeWrittenOnlyByEntries : Prop :=
  ∀ s t : State, step s = .next t → t.syn ≠ s.syn → t.entered ≠ none

/-- R143 (its premise, a claim's own, is what State.reset has, log entry 4): while the controls enable no debug exception
and no breakpoint is set, no step takes a debug exception: whatever the DBGVCR holds and whatever entry was just made,
the next instruction is executed. -/
def Obligations.NothingCaughtWhileDisabled : Prop :=
  ∀ (s : State) (eff : Option HostEffect) (rest : List HostInput), s.debugExceptionsEnabled = false →
    s.breakpointAt s.addr = false → s.fetchExceptions = [] → nextIsInstruction s eff rest →
    step s = runInstruction eff s.instrLength (atInstruction s rest).tick
end

