-- ==== Sys2Proof/Laws/Decode.lean ====
section
/-! SUPPORT. The opcode table: lengths, and no word selected by two rows of one instruction set. -/

namespace Sys2Proof

@[simp] theorem bytesOfWord_length (set : ISet) (w : Word) : (bytesOfWord set w).length = 4 := by
  cases set <;> rfl

/-- The bytes of a word, in the order the hardware stores them, make the word again. -/
theorem word_of_its_bytes (w : Word) :
    w.extractLsb' 24 8 ++ w.extractLsb' 16 8 ++ w.extractLsb' 8 8 ++ w.extractLsb' 0 8 = w := by
  refine BitVec.eq_of_getLsbD_eq fun i hi => ?_
  simp only [BitVec.getLsbD_append, BitVec.getLsbD_extractLsb']
  split <;> rename_i h1
  · simp [h1]
  · split <;> rename_i h2
    · have : i - 8 < 8 := h2
      simp [this]; congr 1; omega
    · split <;> rename_i h3
      · have : i - 8 - 8 < 8 := h3
        simp [this]; congr 1; omega
      · have : i - 8 - 8 - 8 < 8 := by omega
        simp [this]; congr 1; omega

/-- Two rows of one instruction set differ in a bit that both fix, so no word is selected by both. -/
theorem opcodeRows_disjoint :
    opcodeRows.Pairwise fun r r' => r.set = r'.set → r.pattern &&& r'.mask &&& r.mask ≠ r'.pattern &&& r.mask &&& r'.mask := by
  decide

end Sys2Proof
end

