-- ==== Sys2Proof/Laws/State.lean ====
section
/-! SUPPORT. One lemma per field per update of the state, true by unfolding the update, so that no proof unfolds a record
update. -/

namespace Sys2Proof.Machine

section tick
variable (s : State)

@[simp] theorem tick_cfg : s.tick.cfg = s.cfg := rfl
@[simp] theorem tick_el1is32 : s.tick.el1is32 = s.el1is32 := rfl
@[simp] theorem tick_el0is32 : s.tick.el0is32 = s.el0is32 := rfl
@[simp] theorem tick_exec : s.tick.exec = s.exec := rfl
@[simp] theorem tick_ss : s.tick.ss = s.ss := rfl
@[simp] theorem tick_pc : s.tick.pc = s.pc := rfl
@[simp] theorem tick_cpsr : s.tick.cpsr = s.cpsr := rfl
@[simp] theorem tick_gpr : s.tick.gpr = s.gpr := rfl
@[simp] theorem tick_spsr : s.tick.spsr = s.spsr := rfl
@[simp] theorem tick_elrHyp : s.tick.elrHyp = s.elrHyp := rfl
@[simp] theorem tick_xreg : s.tick.xreg = s.xreg := rfl
@[simp] theorem tick_ret1 : s.tick.ret1 = s.ret1 := rfl
@[simp] theorem tick_ret2 : s.tick.ret2 = s.ret2 := rfl
@[simp] theorem tick_ret3 : s.tick.ret3 = s.ret3 := rfl
@[simp] theorem tick_ctl : s.tick.ctl = s.ctl := rfl
@[simp] theorem tick_sys : s.tick.sys = s.sys := rfl
@[simp] theorem tick_syn : s.tick.syn = s.syn := rfl
@[simp] theorem tick_params : s.tick.params = s.params := rfl
@[simp] theorem tick_inputs : s.tick.inputs = s.inputs := rfl
@[simp] theorem tick_entered : s.tick.entered = s.entered := rfl
@[simp] theorem tick_mem : s.tick.mem = s.mem := rfl
@[simp] theorem tick_draws : s.tick.draws = s.draws + 1 := rfl

end tick

section sync
variable (s : State)

@[simp] theorem sync_cfg : s.sync.cfg = s.cfg := rfl
@[simp] theorem sync_el1is32 : s.sync.el1is32 = s.el1is32 := rfl
@[simp] theorem sync_el0is32 : s.sync.el0is32 = s.el0is32 := rfl
@[simp] theorem sync_exec : s.sync.exec = s.exec := rfl
@[simp] theorem sync_ss : s.sync.ss = s.ss := rfl
@[simp] theorem sync_pc : s.sync.pc = s.pc := rfl
@[simp] theorem sync_cpsr : s.sync.cpsr = s.cpsr := rfl
@[simp] theorem sync_gpr : s.sync.gpr = s.gpr := rfl
@[simp] theorem sync_spsr : s.sync.spsr = s.spsr := rfl
@[simp] theorem sync_elrHyp : s.sync.elrHyp = s.elrHyp := rfl
@[simp] theorem sync_xreg : s.sync.xreg = s.xreg := rfl
@[simp] theorem sync_ret1 : s.sync.ret1 = s.ret1 := rfl
@[simp] theorem sync_ret2 : s.sync.ret2 = s.ret2 := rfl
@[simp] theorem sync_ret3 : s.sync.ret3 = s.ret3 := rfl
@[simp] theorem sync_ctl : s.sync.ctl = s.ctl.sync := rfl
@[simp] theorem sync_sys : s.sync.sys = s.sys := rfl
@[simp] theorem sync_syn : s.sync.syn = s.syn := rfl
@[simp] theorem sync_params : s.sync.params = s.params := rfl
@[simp] theorem sync_inputs : s.sync.inputs = s.inputs := rfl
@[simp] theorem sync_entered : s.sync.entered = s.entered := rfl
@[simp] theorem sync_mem : s.sync.mem = s.mem := rfl
@[simp] theorem sync_draws : s.sync.draws = s.draws := rfl

end sync

section writeGpr
variable (s : State) (k : Fin 33) (v : Word)

@[simp] theorem writeGpr_cfg : (s.writeGpr k v).cfg = s.cfg := rfl
@[simp] theorem writeGpr_el1is32 : (s.writeGpr k v).el1is32 = s.el1is32 := rfl
@[simp] theorem writeGpr_el0is32 : (s.writeGpr k v).el0is32 = s.el0is32 := rfl
@[simp] theorem writeGpr_exec : (s.writeGpr k v).exec = s.exec := rfl
@[simp] theorem writeGpr_ss : (s.writeGpr k v).ss = s.ss := rfl
@[simp] theorem writeGpr_pc : (s.writeGpr k v).pc = s.pc := rfl
@[simp] theorem writeGpr_cpsr : (s.writeGpr k v).cpsr = s.cpsr := rfl
@[simp] theorem writeGpr_gpr : (s.writeGpr k v).gpr = s.gpr.set k v := rfl
@[simp] theorem writeGpr_spsr : (s.writeGpr k v).spsr = s.spsr := rfl
@[simp] theorem writeGpr_elrHyp : (s.writeGpr k v).elrHyp = s.elrHyp := rfl
@[simp] theorem writeGpr_xreg : (s.writeGpr k v).xreg = s.xreg := rfl
@[simp] theorem writeGpr_ret1 : (s.writeGpr k v).ret1 = s.ret1 := rfl
@[simp] theorem writeGpr_ret2 : (s.writeGpr k v).ret2 = s.ret2 := rfl
@[simp] theorem writeGpr_ret3 : (s.writeGpr k v).ret3 = s.ret3 := rfl
@[simp] theorem writeGpr_ctl : (s.writeGpr k v).ctl = s.ctl := rfl
@[simp] theorem writeGpr_sys : (s.writeGpr k v).sys = s.sys := rfl
@[simp] theorem writeGpr_syn : (s.writeGpr k v).syn = s.syn := rfl
@[simp] theorem writeGpr_params : (s.writeGpr k v).params = s.params := rfl
@[simp] theorem writeGpr_inputs : (s.writeGpr k v).inputs = s.inputs := rfl
@[simp] theorem writeGpr_entered : (s.writeGpr k v).entered = s.entered := rfl
@[simp] theorem writeGpr_mem : (s.writeGpr k v).mem = s.mem := rfl
@[simp] theorem writeGpr_draws : (s.writeGpr k v).draws = s.draws := rfl

end writeGpr

section writeDbgvcr
variable (s : State) (w : Word)

@[simp] theorem writeDbgvcr_cfg : (s.writeDbgvcr w).cfg = s.cfg := rfl
@[simp] theorem writeDbgvcr_el1is32 : (s.writeDbgvcr w).el1is32 = s.el1is32 := rfl
@[simp] theorem writeDbgvcr_el0is32 : (s.writeDbgvcr w).el0is32 = s.el0is32 := rfl
@[simp] theorem writeDbgvcr_exec : (s.writeDbgvcr w).exec = s.exec := rfl
@[simp] theorem writeDbgvcr_ss : (s.writeDbgvcr w).ss = s.ss := rfl
@[simp] theorem writeDbgvcr_pc : (s.writeDbgvcr w).pc = s.pc := rfl
@[simp] theorem writeDbgvcr_cpsr : (s.writeDbgvcr w).cpsr = s.cpsr := rfl
@[simp] theorem writeDbgvcr_gpr : (s.writeDbgvcr w).gpr = s.gpr := rfl
@[simp] theorem writeDbgvcr_spsr : (s.writeDbgvcr w).spsr = s.spsr := rfl
@[simp] theorem writeDbgvcr_elrHyp : (s.writeDbgvcr w).elrHyp = s.elrHyp := rfl
@[simp] theorem writeDbgvcr_xreg : (s.writeDbgvcr w).xreg = s.xreg := rfl
@[simp] theorem writeDbgvcr_ret1 : (s.writeDbgvcr w).ret1 = s.ret1 := rfl
@[simp] theorem writeDbgvcr_ret2 : (s.writeDbgvcr w).ret2 = s.ret2 := rfl
@[simp] theorem writeDbgvcr_ret3 : (s.writeDbgvcr w).ret3 = s.ret3 := rfl
@[simp] theorem writeDbgvcr_ctl : (s.writeDbgvcr w).ctl = { s.ctl with dbgvcr := s.ctl.dbgvcr.write (s.ctl.dbgvcr.cur.writeWord s.cfg w) } := rfl
@[simp] theorem writeDbgvcr_sys : (s.writeDbgvcr w).sys = s.sys := rfl
@[simp] theorem writeDbgvcr_syn : (s.writeDbgvcr w).syn = s.syn := rfl
@[simp] theorem writeDbgvcr_params : (s.writeDbgvcr w).params = s.params := rfl
@[simp] theorem writeDbgvcr_inputs : (s.writeDbgvcr w).inputs = s.inputs := rfl
@[simp] theorem writeDbgvcr_entered : (s.writeDbgvcr w).entered = s.entered := rfl
@[simp] theorem writeDbgvcr_mem : (s.writeDbgvcr w).mem = s.mem := rfl
@[simp] theorem writeDbgvcr_draws : (s.writeDbgvcr w).draws = s.draws := rfl

end writeDbgvcr

section hypSyndrome
variable (b : BitVec 4) (s : State)

@[simp] theorem hypSyndrome_cfg : (hypSyndrome b s).cfg = s.cfg := rfl
@[simp] theorem hypSyndrome_el1is32 : (hypSyndrome b s).el1is32 = s.el1is32 := rfl
@[simp] theorem hypSyndrome_el0is32 : (hypSyndrome b s).el0is32 = s.el0is32 := rfl
@[simp] theorem hypSyndrome_exec : (hypSyndrome b s).exec = s.exec := rfl
@[simp] theorem hypSyndrome_ss : (hypSyndrome b s).ss = s.ss := rfl
@[simp] theorem hypSyndrome_pc : (hypSyndrome b s).pc = s.pc := rfl
@[simp] theorem hypSyndrome_cpsr : (hypSyndrome b s).cpsr = s.cpsr := rfl
@[simp] theorem hypSyndrome_gpr : (hypSyndrome b s).gpr = s.gpr := rfl
@[simp] theorem hypSyndrome_spsr : (hypSyndrome b s).spsr = s.spsr := rfl
@[simp] theorem hypSyndrome_elrHyp : (hypSyndrome b s).elrHyp = s.elrHyp := rfl
@[simp] theorem hypSyndrome_xreg : (hypSyndrome b s).xreg = s.xreg := rfl
@[simp] theorem hypSyndrome_ret1 : (hypSyndrome b s).ret1 = s.ret1 := rfl
@[simp] theorem hypSyndrome_ret2 : (hypSyndrome b s).ret2 = s.ret2 := rfl
@[simp] theorem hypSyndrome_ret3 : (hypSyndrome b s).ret3 = s.ret3 := rfl
@[simp] theorem hypSyndrome_ctl : (hypSyndrome b s).ctl = s.ctl := rfl
@[simp] theorem hypSyndrome_sys : (hypSyndrome b s).sys = s.sys := rfl
@[simp] theorem hypSyndrome_syn : (hypSyndrome b s).syn = { s.syn with hsr := hsrDebug, moe := b, hifar := (Config.draw .hifar s.draws).setWidth 32 } := rfl
@[simp] theorem hypSyndrome_params : (hypSyndrome b s).params = s.params := rfl
@[simp] theorem hypSyndrome_inputs : (hypSyndrome b s).inputs = s.inputs := rfl
@[simp] theorem hypSyndrome_entered : (hypSyndrome b s).entered = s.entered := rfl
@[simp] theorem hypSyndrome_mem : (hypSyndrome b s).mem = s.mem := rfl
@[simp] theorem hypSyndrome_draws : (hypSyndrome b s).draws = s.draws := rfl

end hypSyndrome

section abortSyndrome
variable (b : BitVec 4) (s : State)

@[simp] theorem abortSyndrome_cfg : (abortSyndrome b s).cfg = s.cfg := rfl
@[simp] theorem abortSyndrome_el1is32 : (abortSyndrome b s).el1is32 = s.el1is32 := rfl
@[simp] theorem abortSyndrome_el0is32 : (abortSyndrome b s).el0is32 = s.el0is32 := rfl
@[simp] theorem abortSyndrome_exec : (abortSyndrome b s).exec = s.exec := rfl
@[simp] theorem abortSyndrome_ss : (abortSyndrome b s).ss = s.ss := rfl
@[simp] theorem abortSyndrome_pc : (abortSyndrome b s).pc = s.pc := rfl
@[simp] theorem abortSyndrome_cpsr : (abortSyndrome b s).cpsr = s.cpsr := rfl
@[simp] theorem abortSyndrome_gpr : (abortSyndrome b s).gpr = s.gpr := rfl
@[simp] theorem abortSyndrome_spsr : (abortSyndrome b s).spsr = s.spsr := rfl
@[simp] theorem abortSyndrome_elrHyp : (abortSyndrome b s).elrHyp = s.elrHyp := rfl
@[simp] theorem abortSyndrome_xreg : (abortSyndrome b s).xreg = s.xreg := rfl
@[simp] theorem abortSyndrome_ret1 : (abortSyndrome b s).ret1 = s.ret1 := rfl
@[simp] theorem abortSyndrome_ret2 : (abortSyndrome b s).ret2 = s.ret2 := rfl
@[simp] theorem abortSyndrome_ret3 : (abortSyndrome b s).ret3 = s.ret3 := rfl
@[simp] theorem abortSyndrome_ctl : (abortSyndrome b s).ctl = s.ctl := rfl
@[simp] theorem abortSyndrome_sys : (abortSyndrome b s).sys = s.sys := rfl
@[simp] theorem abortSyndrome_syn : (abortSyndrome b s).syn = { s.syn with ifsrFs := s.syn.ifsrFs.write s.cfg s.ss fsDebug, moe := b, ifar := (Config.draw .ifar s.draws).setWidth 32 } := rfl
@[simp] theorem abortSyndrome_params : (abortSyndrome b s).params = s.params := rfl
@[simp] theorem abortSyndrome_inputs : (abortSyndrome b s).inputs = s.inputs := rfl
@[simp] theorem abortSyndrome_entered : (abortSyndrome b s).entered = s.entered := rfl
@[simp] theorem abortSyndrome_mem : (abortSyndrome b s).mem = s.mem := rfl
@[simp] theorem abortSyndrome_draws : (abortSyndrome b s).draws = s.draws := rfl

end abortSyndrome

section readyToFetch
variable (s : State)

@[simp] theorem readyToFetch_cfg : s.readyToFetch.cfg = s.cfg := rfl
@[simp] theorem readyToFetch_el1is32 : s.readyToFetch.el1is32 = s.el1is32 := rfl
@[simp] theorem readyToFetch_el0is32 : s.readyToFetch.el0is32 = s.el0is32 := rfl
@[simp] theorem readyToFetch_exec : s.readyToFetch.exec = s.exec := rfl
@[simp] theorem readyToFetch_ss : s.readyToFetch.ss = s.ss := rfl
@[simp] theorem readyToFetch_pc : s.readyToFetch.pc = alignPc s.exec s.cpsr.t s.pc := rfl
@[simp] theorem readyToFetch_cpsr : s.readyToFetch.cpsr = s.cpsr := rfl
@[simp] theorem readyToFetch_gpr : s.readyToFetch.gpr = s.gpr := rfl
@[simp] theorem readyToFetch_spsr : s.readyToFetch.spsr = s.spsr := rfl
@[simp] theorem readyToFetch_elrHyp : s.readyToFetch.elrHyp = s.elrHyp := rfl
@[simp] theorem readyToFetch_xreg : s.readyToFetch.xreg = s.xreg := rfl
@[simp] theorem readyToFetch_ret1 : s.readyToFetch.ret1 = s.ret1 := rfl
@[simp] theorem readyToFetch_ret2 : s.readyToFetch.ret2 = s.ret2 := rfl
@[simp] theorem readyToFetch_ret3 : s.readyToFetch.ret3 = s.ret3 := rfl
@[simp] theorem readyToFetch_ctl : s.readyToFetch.ctl = s.ctl := rfl
@[simp] theorem readyToFetch_sys : s.readyToFetch.sys = s.sys := rfl
@[simp] theorem readyToFetch_syn : s.readyToFetch.syn = s.syn := rfl
@[simp] theorem readyToFetch_params : s.readyToFetch.params = Parameters.quiet := rfl
@[simp] theorem readyToFetch_inputs : s.readyToFetch.inputs = [] := rfl
@[simp] theorem readyToFetch_entered : s.readyToFetch.entered = none := rfl
@[simp] theorem readyToFetch_mem : s.readyToFetch.mem = s.mem := rfl
@[simp] theorem readyToFetch_draws : s.readyToFetch.draws = s.draws := rfl

end readyToFetch

section enterHyp
variable (ss : SecurityState) (e : EType) (a : DWord) (s : State)

@[simp] theorem enterHyp_cfg : (enterHyp ss e a s).cfg = s.cfg := rfl
@[simp] theorem enterHyp_el1is32 : (enterHyp ss e a s).el1is32 = s.el1is32 := rfl
@[simp] theorem enterHyp_el0is32 : (enterHyp ss e a s).el0is32 = s.el0is32 := rfl
@[simp] theorem enterHyp_exec : (enterHyp ss e a s).exec = .aarch32 := rfl
@[simp] theorem enterHyp_ss : (enterHyp ss e a s).ss = ss := rfl
@[simp] theorem enterHyp_pc : (enterHyp ss e a s).pc = (entryVector s .hyp e).setWidth 64 := rfl
@[simp] theorem enterHyp_cpsr : (enterHyp ss e a s).cpsr = freeMasks { s.cpsr with m := .hyp, it := 0, t := s.sys.hte, e := s.sys.hee } s.draws := rfl
@[simp] theorem enterHyp_gpr : (enterHyp ss e a s).gpr = s.gpr := rfl
@[simp] theorem enterHyp_spsr : (enterHyp ss e a s).spsr = s.spsr.write .hyp s.cpsr := rfl
@[simp] theorem enterHyp_elrHyp : (enterHyp ss e a s).elrHyp = a.setWidth 32 := rfl
@[simp] theorem enterHyp_xreg : (enterHyp ss e a s).xreg = s.xreg := rfl
@[simp] theorem enterHyp_ret1 : (enterHyp ss e a s).ret1 = s.ret1 := rfl
@[simp] theorem enterHyp_ret2 : (enterHyp ss e a s).ret2 = s.ret2 := rfl
@[simp] theorem enterHyp_ret3 : (enterHyp ss e a s).ret3 = s.ret3 := rfl
@[simp] theorem enterHyp_ctl : (enterHyp ss e a s).ctl = s.ctl.sync := rfl
@[simp] theorem enterHyp_sys : (enterHyp ss e a s).sys = s.sys := rfl
@[simp] theorem enterHyp_syn : (enterHyp ss e a s).syn = s.syn := rfl
@[simp] theorem enterHyp_params : (enterHyp ss e a s).params = s.params := rfl
@[simp] theorem enterHyp_inputs : (enterHyp ss e a s).inputs = s.inputs := rfl
@[simp] theorem enterHyp_entered : (enterHyp ss e a s).entered = some ⟨e, .mode .hyp ss⟩ := rfl
@[simp] theorem enterHyp_mem : (enterHyp ss e a s).mem = s.mem := rfl
@[simp] theorem enterHyp_draws : (enterHyp ss e a s).draws = s.draws + 1 := rfl

end enterHyp

section enterMode
variable (m : Mode) (ss : SecurityState) (e : EType) (l : Word) (s : State)

@[simp] theorem enterMode_cfg : (enterMode m ss e l s).cfg = s.cfg := rfl
@[simp] theorem enterMode_el1is32 : (enterMode m ss e l s).el1is32 = s.el1is32 := rfl
@[simp] theorem enterMode_el0is32 : (enterMode m ss e l s).el0is32 = s.el0is32 := rfl
@[simp] theorem enterMode_exec : (enterMode m ss e l s).exec = .aarch32 := rfl
@[simp] theorem enterMode_ss : (enterMode m ss e l s).ss = ss := rfl
@[simp] theorem enterMode_pc : (enterMode m ss e l s).pc = (entryVector s (targetTable s.cfg m ss) e).setWidth 64 := rfl
@[simp] theorem enterMode_cpsr : (enterMode m ss e l s).cpsr = { s.cpsr with m := m, it := 0, i := true, a := s.cpsr.a || entrySetsA m e, f := s.cpsr.f || entrySetsF m e, t := s.sys.te.of s.cfg ss, e := s.sys.ee.of s.cfg ss } := rfl
@[simp] theorem enterMode_gpr : (enterMode m ss e l s).gpr = s.gpr.set (lrIndex m) l := rfl
@[simp] theorem enterMode_spsr : (enterMode m ss e l s).spsr = s.spsr.write m s.cpsr := rfl
@[simp] theorem enterMode_elrHyp : (enterMode m ss e l s).elrHyp = s.elrHyp := rfl
@[simp] theorem enterMode_xreg : (enterMode m ss e l s).xreg = s.xreg := rfl
@[simp] theorem enterMode_ret1 : (enterMode m ss e l s).ret1 = s.ret1 := rfl
@[simp] theorem enterMode_ret2 : (enterMode m ss e l s).ret2 = s.ret2 := rfl
@[simp] theorem enterMode_ret3 : (enterMode m ss e l s).ret3 = s.ret3 := rfl
@[simp] theorem enterMode_ctl : (enterMode m ss e l s).ctl = s.ctl.sync := rfl
@[simp] theorem enterMode_sys : (enterMode m ss e l s).sys = s.sys := rfl
@[simp] theorem enterMode_syn : (enterMode m ss e l s).syn = s.syn := rfl
@[simp] theorem enterMode_params : (enterMode m ss e l s).params = s.params := rfl
@[simp] theorem enterMode_inputs : (enterMode m ss e l s).inputs = s.inputs := rfl
@[simp] theorem enterMode_entered : (enterMode m ss e l s).entered = some ⟨e, .mode m ss⟩ := rfl
@[simp] theorem enterMode_mem : (enterMode m ss e l s).mem = s.mem := rfl
@[simp] theorem enterMode_draws : (enterMode m ss e l s).draws = s.draws + 1 := rfl

end enterMode

section writeX
variable (s : State) (n : Fin 32) (v : DWord)

@[simp] theorem writeX_cfg : (s.writeX n v).cfg = s.cfg := by
  unfold State.writeX; split <;> rfl
@[simp] theorem writeX_el1is32 : (s.writeX n v).el1is32 = s.el1is32 := by
  unfold State.writeX; split <;> rfl
@[simp] theorem writeX_el0is32 : (s.writeX n v).el0is32 = s.el0is32 := by
  unfold State.writeX; split <;> rfl
@[simp] theorem writeX_exec : (s.writeX n v).exec = s.exec := by
  unfold State.writeX; split <;> rfl
@[simp] theorem writeX_ss : (s.writeX n v).ss = s.ss := by
  unfold State.writeX; split <;> rfl
@[simp] theorem writeX_pc : (s.writeX n v).pc = s.pc := by
  unfold State.writeX; split <;> rfl
@[simp] theorem writeX_cpsr : (s.writeX n v).cpsr = s.cpsr := by
  unfold State.writeX; split <;> rfl
@[simp] theorem writeX_gpr : (s.writeX n v).gpr = s.gpr := by
  unfold State.writeX; split <;> rfl
@[simp] theorem writeX_spsr : (s.writeX n v).spsr = s.spsr := by
  unfold State.writeX; split <;> rfl
@[simp] theorem writeX_elrHyp : (s.writeX n v).elrHyp = s.elrHyp := by
  unfold State.writeX; split <;> rfl
@[simp] theorem writeX_ret1 : (s.writeX n v).ret1 = s.ret1 := by
  unfold State.writeX; split <;> rfl
@[simp] theorem writeX_ret2 : (s.writeX n v).ret2 = s.ret2 := by
  unfold State.writeX; split <;> rfl
@[simp] theorem writeX_ret3 : (s.writeX n v).ret3 = s.ret3 := by
  unfold State.writeX; split <;> rfl
@[simp] theorem writeX_ctl : (s.writeX n v).ctl = s.ctl := by
  unfold State.writeX; split <;> rfl
@[simp] theorem writeX_sys : (s.writeX n v).sys = s.sys := by
  unfold State.writeX; split <;> rfl
@[simp] theorem writeX_syn : (s.writeX n v).syn = s.syn := by
  unfold State.writeX; split <;> rfl
@[simp] theorem writeX_params : (s.writeX n v).params = s.params := by
  unfold State.writeX; split <;> rfl
@[simp] theorem writeX_inputs : (s.writeX n v).inputs = s.inputs := by
  unfold State.writeX; split <;> rfl
@[simp] theorem writeX_entered : (s.writeX n v).entered = s.entered := by
  unfold State.writeX; split <;> rfl
@[simp] theorem writeX_mem : (s.writeX n v).mem = s.mem := by
  unfold State.writeX; split <;> rfl
@[simp] theorem writeX_draws : (s.writeX n v).draws = s.draws := by
  unfold State.writeX; split <;> rfl

end writeX

section movePc
variable (s : State) (len : Nat)

@[simp] theorem movePc_pc : (s.movePc len).pc = s.pcPlus len := rfl
@[simp] theorem movePc_cfg : (s.movePc len).cfg = s.cfg := rfl
@[simp] theorem movePc_el1is32 : (s.movePc len).el1is32 = s.el1is32 := rfl
@[simp] theorem movePc_el0is32 : (s.movePc len).el0is32 = s.el0is32 := rfl
@[simp] theorem movePc_exec : (s.movePc len).exec = s.exec := rfl
@[simp] theorem movePc_ss : (s.movePc len).ss = s.ss := rfl
@[simp] theorem movePc_cpsr : (s.movePc len).cpsr = s.cpsr := rfl
@[simp] theorem movePc_gpr : (s.movePc len).gpr = s.gpr := rfl
@[simp] theorem movePc_spsr : (s.movePc len).spsr = s.spsr := rfl
@[simp] theorem movePc_elrHyp : (s.movePc len).elrHyp = s.elrHyp := rfl
@[simp] theorem movePc_xreg : (s.movePc len).xreg = s.xreg := rfl
@[simp] theorem movePc_ret1 : (s.movePc len).ret1 = s.ret1 := rfl
@[simp] theorem movePc_ret2 : (s.movePc len).ret2 = s.ret2 := rfl
@[simp] theorem movePc_ret3 : (s.movePc len).ret3 = s.ret3 := rfl
@[simp] theorem movePc_ctl : (s.movePc len).ctl = s.ctl := rfl
@[simp] theorem movePc_sys : (s.movePc len).sys = s.sys := rfl
@[simp] theorem movePc_syn : (s.movePc len).syn = s.syn := rfl
@[simp] theorem movePc_params : (s.movePc len).params = s.params := rfl
@[simp] theorem movePc_inputs : (s.movePc len).inputs = s.inputs := rfl
@[simp] theorem movePc_entered : (s.movePc len).entered = s.entered := rfl
@[simp] theorem movePc_mem : (s.movePc len).mem = s.mem := rfl
@[simp] theorem movePc_draws : (s.movePc len).draws = s.draws := rfl

end movePc

/-- Moving the IT block on changes the IT bits and nothing else. -/
theorem moveIt_eq (s : State) : ∃ x, s.moveIt = { s with cpsr := { s.cpsr with it := x } } := by
  unfold State.moveIt
  split
  · exact ⟨s.cpsr.it, rfl⟩
  · exact ⟨_, rfl⟩

/-- What an instruction outside the opcode table starts from differs in the IT bits only. -/
theorem HostEffect.start_eq (eff : HostEffect) (s : State) :
    ∃ x, eff.start s = { s with cpsr := { s.cpsr with it := x } } := by
  unfold HostEffect.start
  split
  · exact moveIt_eq s
  · exact ⟨s.cpsr.it, rfl⟩

section advance
variable (s : State) (len : Nat)

@[simp] theorem advance_cfg : (s.advance len).cfg = s.cfg := by
  unfold State.advance State.moveIt; split <;> rfl
@[simp] theorem advance_el1is32 : (s.advance len).el1is32 = s.el1is32 := by
  unfold State.advance State.moveIt; split <;> rfl
@[simp] theorem advance_el0is32 : (s.advance len).el0is32 = s.el0is32 := by
  unfold State.advance State.moveIt; split <;> rfl
@[simp] theorem advance_exec : (s.advance len).exec = s.exec := by
  unfold State.advance State.moveIt; split <;> rfl
@[simp] theorem advance_ss : (s.advance len).ss = s.ss := by
  unfold State.advance State.moveIt; split <;> rfl
@[simp] theorem advance_pc : (s.advance len).pc = s.pcPlus len := by
  unfold State.advance State.moveIt; split <;> rfl
@[simp] theorem advance_cpsr_t : (s.advance len).cpsr.t = s.cpsr.t := by
  unfold State.advance State.moveIt; split <;> rfl
@[simp] theorem advance_cpsr_m : (s.advance len).cpsr.m = s.cpsr.m := by
  unfold State.advance State.moveIt; split <;> rfl
@[simp] theorem advance_gpr : (s.advance len).gpr = s.gpr := by
  unfold State.advance State.moveIt; split <;> rfl
@[simp] theorem advance_spsr : (s.advance len).spsr = s.spsr := by
  unfold State.advance State.moveIt; split <;> rfl
@[simp] theorem advance_elrHyp : (s.advance len).elrHyp = s.elrHyp := by
  unfold State.advance State.moveIt; split <;> rfl
@[simp] theorem advance_xreg : (s.advance len).xreg = s.xreg := by
  unfold State.advance State.moveIt; split <;> rfl
@[simp] theorem advance_ret1 : (s.advance len).ret1 = s.ret1 := by
  unfold State.advance State.moveIt; split <;> rfl
@[simp] theorem advance_ret2 : (s.advance len).ret2 = s.ret2 := by
  unfold State.advance State.moveIt; split <;> rfl
@[simp] theorem advance_ret3 : (s.advance len).ret3 = s.ret3 := by
  unfold State.advance State.moveIt; split <;> rfl
@[simp] theorem advance_ctl : (s.advance len).ctl = s.ctl := by
  unfold State.advance State.moveIt; split <;> rfl
@[simp] theorem advance_sys : (s.advance len).sys = s.sys := by
  unfold State.advance State.moveIt; split <;> rfl
@[simp] theorem advance_syn : (s.advance len).syn = s.syn := by
  unfold State.advance State.moveIt; split <;> rfl
@[simp] theorem advance_params : (s.advance len).params = s.params := by
  unfold State.advance State.moveIt; split <;> rfl
@[simp] theorem advance_inputs : (s.advance len).inputs = s.inputs := by
  unfold State.advance State.moveIt; split <;> rfl
@[simp] theorem advance_entered : (s.advance len).entered = s.entered := by
  unfold State.advance State.moveIt; split <;> rfl
@[simp] theorem advance_mem : (s.advance len).mem = s.mem := by
  unfold State.advance State.moveIt; split <;> rfl
@[simp] theorem advance_draws : (s.advance len).draws = s.draws := by
  unfold State.advance State.moveIt; split <;> rfl

theorem advance_aarch64 (el : EL) (h : s.exec = .aarch64 el) : s.advance len = { s with pc := s.pc + BitVec.ofNat 64 len } := by
  simp [State.advance, State.moveIt, State.movePc, State.pcPlus, h]

theorem advance_aarch32 (h : s.exec = .aarch32) : s.advance len =
    { s with
      pc := (s.addr + BitVec.ofNat 32 len).setWidth 64
      cpsr := { s.cpsr with it := if s.cpsr.t then itAdvance s.cpsr.it else s.cpsr.it } } := by
  simp [State.advance, State.moveIt, State.movePc, State.pcPlus, h]

end advance

section hostSyndrome
variable (e : Entry) (s : State)

@[simp] theorem hostSyndrome_cfg : (hostSyndrome e s).cfg = s.cfg := by
  unfold hostSyndrome; repeat' split
  all_goals rfl
@[simp] theorem hostSyndrome_el1is32 : (hostSyndrome e s).el1is32 = s.el1is32 := by
  unfold hostSyndrome; repeat' split
  all_goals rfl
@[simp] theorem hostSyndrome_el0is32 : (hostSyndrome e s).el0is32 = s.el0is32 := by
  unfold hostSyndrome; repeat' split
  all_goals rfl
@[simp] theorem hostSyndrome_exec : (hostSyndrome e s).exec = s.exec := by
  unfold hostSyndrome; repeat' split
  all_goals rfl
@[simp] theorem hostSyndrome_ss : (hostSyndrome e s).ss = s.ss := by
  unfold hostSyndrome; repeat' split
  all_goals rfl
@[simp] theorem hostSyndrome_pc : (hostSyndrome e s).pc = s.pc := by
  unfold hostSyndrome; repeat' split
  all_goals rfl
@[simp] theorem hostSyndrome_cpsr : (hostSyndrome e s).cpsr = s.cpsr := by
  unfold hostSyndrome; repeat' split
  all_goals rfl
@[simp] theorem hostSyndrome_gpr : (hostSyndrome e s).gpr = s.gpr := by
  unfold hostSyndrome; repeat' split
  all_goals rfl
@[simp] theorem hostSyndrome_spsr : (hostSyndrome e s).spsr = s.spsr := by
  unfold hostSyndrome; repeat' split
  all_goals rfl
@[simp] theorem hostSyndrome_elrHyp : (hostSyndrome e s).elrHyp = s.elrHyp := by
  unfold hostSyndrome; repeat' split
  all_goals rfl
@[simp] theorem hostSyndrome_xreg : (hostSyndrome e s).xreg = s.xreg := by
  unfold hostSyndrome; repeat' split
  all_goals rfl
@[simp] theorem hostSyndrome_ret1 : (hostSyndrome e s).ret1 = s.ret1 := by
  unfold hostSyndrome; repeat' split
  all_goals rfl
@[simp] theorem hostSyndrome_ret2 : (hostSyndrome e s).ret2 = s.ret2 := by
  unfold hostSyndrome; repeat' split
  all_goals rfl
@[simp] theorem hostSyndrome_ret3 : (hostSyndrome e s).ret3 = s.ret3 := by
  unfold hostSyndrome; repeat' split
  all_goals rfl
@[simp] theorem hostSyndrome_ctl : (hostSyndrome e s).ctl = s.ctl := by
  unfold hostSyndrome; repeat' split
  all_goals rfl
@[simp] theorem hostSyndrome_sys : (hostSyndrome e s).sys = s.sys := by
  unfold hostSyndrome; repeat' split
  all_goals rfl
@[simp] theorem hostSyndrome_params : (hostSyndrome e s).params = s.params := by
  unfold hostSyndrome; repeat' split
  all_goals rfl
@[simp] theorem hostSyndrome_inputs : (hostSyndrome e s).inputs = s.inputs := by
  unfold hostSyndrome; repeat' split
  all_goals rfl
@[simp] theorem hostSyndrome_entered : (hostSyndrome e s).entered = s.entered := by
  unfold hostSyndrome; repeat' split
  all_goals rfl
@[simp] theorem hostSyndrome_mem : (hostSyndrome e s).mem = s.mem := by
  unfold hostSyndrome; repeat' split
  all_goals rfl
@[simp] theorem hostSyndrome_draws : (hostSyndrome e s).draws = s.draws := by
  unfold hostSyndrome; repeat' split
  all_goals rfl

end hostSyndrome

section writeA64Return
variable (s : State) (el : EL) (r : A64Return)

@[simp] theorem writeA64Return_cfg : (s.writeA64Return el r).cfg = s.cfg := by
  cases el <;> rfl
@[simp] theorem writeA64Return_el1is32 : (s.writeA64Return el r).el1is32 = s.el1is32 := by
  cases el <;> rfl
@[simp] theorem writeA64Return_el0is32 : (s.writeA64Return el r).el0is32 = s.el0is32 := by
  cases el <;> rfl
@[simp] theorem writeA64Return_exec : (s.writeA64Return el r).exec = s.exec := by
  cases el <;> rfl
@[simp] theorem writeA64Return_ss : (s.writeA64Return el r).ss = s.ss := by
  cases el <;> rfl
@[simp] theorem writeA64Return_pc : (s.writeA64Return el r).pc = s.pc := by
  cases el <;> rfl
@[simp] theorem writeA64Return_cpsr : (s.writeA64Return el r).cpsr = s.cpsr := by
  cases el <;> rfl
@[simp] theorem writeA64Return_gpr : (s.writeA64Return el r).gpr = s.gpr := by
  cases el <;> rfl
@[simp] theorem writeA64Return_spsr : (s.writeA64Return el r).spsr = s.spsr := by
  cases el <;> rfl
@[simp] theorem writeA64Return_elrHyp : (s.writeA64Return el r).elrHyp = s.elrHyp := by
  cases el <;> rfl
@[simp] theorem writeA64Return_xreg : (s.writeA64Return el r).xreg = s.xreg := by
  cases el <;> rfl
@[simp] theorem writeA64Return_ctl : (s.writeA64Return el r).ctl = s.ctl := by
  cases el <;> rfl
@[simp] theorem writeA64Return_sys : (s.writeA64Return el r).sys = s.sys := by
  cases el <;> rfl
@[simp] theorem writeA64Return_syn : (s.writeA64Return el r).syn = s.syn := by
  cases el <;> rfl
@[simp] theorem writeA64Return_params : (s.writeA64Return el r).params = s.params := by
  cases el <;> rfl
@[simp] theorem writeA64Return_inputs : (s.writeA64Return el r).inputs = s.inputs := by
  cases el <;> rfl
@[simp] theorem writeA64Return_entered : (s.writeA64Return el r).entered = s.entered := by
  cases el <;> rfl
@[simp] theorem writeA64Return_mem : (s.writeA64Return el r).mem = s.mem := by
  cases el <;> rfl
@[simp] theorem writeA64Return_draws : (s.writeA64Return el r).draws = s.draws := by
  cases el <;> rfl

end writeA64Return

section branchTo
variable (a : DWord) (b : Bool) (s : State)

@[simp] theorem branchTo_cfg : (branchTo a b s).cfg = s.cfg := by
  unfold branchTo; split <;> rfl
@[simp] theorem branchTo_el1is32 : (branchTo a b s).el1is32 = s.el1is32 := by
  unfold branchTo; split <;> rfl
@[simp] theorem branchTo_el0is32 : (branchTo a b s).el0is32 = s.el0is32 := by
  unfold branchTo; split <;> rfl
@[simp] theorem branchTo_exec : (branchTo a b s).exec = s.exec := by
  unfold branchTo; split <;> rfl
@[simp] theorem branchTo_ss : (branchTo a b s).ss = s.ss := by
  unfold branchTo; split <;> rfl
@[simp] theorem branchTo_gpr : (branchTo a b s).gpr = s.gpr := by
  unfold branchTo; split <;> rfl
@[simp] theorem branchTo_spsr : (branchTo a b s).spsr = s.spsr := by
  unfold branchTo; split <;> rfl
@[simp] theorem branchTo_elrHyp : (branchTo a b s).elrHyp = s.elrHyp := by
  unfold branchTo; split <;> rfl
@[simp] theorem branchTo_xreg : (branchTo a b s).xreg = s.xreg := by
  unfold branchTo; split <;> rfl
@[simp] theorem branchTo_ret1 : (branchTo a b s).ret1 = s.ret1 := by
  unfold branchTo; split <;> rfl
@[simp] theorem branchTo_ret2 : (branchTo a b s).ret2 = s.ret2 := by
  unfold branchTo; split <;> rfl
@[simp] theorem branchTo_ret3 : (branchTo a b s).ret3 = s.ret3 := by
  unfold branchTo; split <;> rfl
@[simp] theorem branchTo_ctl : (branchTo a b s).ctl = s.ctl := by
  unfold branchTo; split <;> rfl
@[simp] theorem branchTo_sys : (branchTo a b s).sys = s.sys := by
  unfold branchTo; split <;> rfl
@[simp] theorem branchTo_syn : (branchTo a b s).syn = s.syn := by
  unfold branchTo; split <;> rfl
@[simp] theorem branchTo_params : (branchTo a b s).params = s.params := by
  unfold branchTo; split <;> rfl
@[simp] theorem branchTo_inputs : (branchTo a b s).inputs = s.inputs := by
  unfold branchTo; split <;> rfl
@[simp] theorem branchTo_entered : (branchTo a b s).entered = s.entered := by
  unfold branchTo; split <;> rfl
@[simp] theorem branchTo_mem : (branchTo a b s).mem = s.mem := by
  unfold branchTo; split <;> rfl
@[simp] theorem branchTo_draws : (branchTo a b s).draws = s.draws := by
  unfold branchTo; split <;> rfl

end branchTo

section bookkeeping
variable (s : State) (p : Parameters) (i : List HostInput) (e : Option Entry) (n : Nat)

/-- The architectural state is not the model's own bookkeeping (parameters, queue, entry to test, count of draws). -/
theorem field_bookkeeping (f : StateField) :
    { s with params := p, inputs := i, entered := e, draws := n }.field f = s.field f := by
  cases f with
  | elr el => cases el <;> rfl
  | status r =>
    cases r with
    | spsrA64 el => cases el <;> rfl
    | _ => rfl
  | _ => rfl

/-- A parameter of R7 depends on the architectural state alone. -/
theorem eval_bookkeeping (q : StatePred) :
    q.eval { s with params := p, inputs := i, entered := e, draws := n } = q.eval s := by
  induction q with
  | mode r m =>
    cases r with
    | spsrA64 el => cases el <;> rfl
    | _ => rfl
  | savedExec el x => cases el <;> rfl
  | bit f k => simp only [StatePred.eval, field_bookkeeping]
  | not q ih => simp only [StatePred.eval, ih]
  | and q r ihq ihr => simp only [StatePred.eval, ihq, ihr]
  | or q r ihq ihr => simp only [StatePred.eval, ihq, ihr]
  | _ => rfl

@[simp] theorem eval_tick (q : StatePred) : q.eval s.tick = q.eval s :=
  eval_bookkeeping s s.params s.inputs s.entered (s.draws + 1) q

end bookkeeping

end Sys2Proof.Machine
end

