-- ==== Sys2Proof/Laws/EnableSet.lean ====
section
/-! SUPPORT. What the enable-set operations can do: visibility of writes, instances, the packing of the DBGVCR, the
members of the enabled vector catch set. -/

namespace Sys2Proof.Machine

section Windowed
variable {α : Type} (w : Windowed α) (k : Nat) (x : α)

@[simp] theorem Windowed.cur_sync : w.sync.cur = w.cur := rfl
@[simp] theorem Windowed.old_sync : w.sync.old = [] := rfl
@[simp] theorem Windowed.sync_sync : w.sync.sync = w.sync := rfl
@[simp] theorem Windowed.cur_write : (w.write x).cur = x := rfl
@[simp] theorem Windowed.old_write : (w.write x).old = w.cur :: w.old := rfl

/-- With no write since the last context synchronisation event, an evaluation uses the register's value. -/
theorem Windowed.seen_of_old_nil (h : w.old = []) : w.seen k = w.cur := by
  simp [Windowed.seen, h]

@[simp] theorem Windowed.seen_sync : w.sync.seen k = w.cur :=
  Windowed.seen_of_old_nil _ k rfl

/-- An evaluation uses the register's value or one it had since the last context synchronisation event. -/
theorem Windowed.seen_may : w.may (w.seen k) := by
  obtain ⟨cur, old⟩ := w
  cases old with
  | nil => exact Or.inl rfl
  | cons o os =>
    have hlt : k % (os.length + 1 + 1) < os.length + 1 + 1 := Nat.mod_lt _ (by omega)
    simp only [Windowed.may, Windowed.seen, List.length_cons]
    rw [List.getElem?_eq_getElem (by simpa using hlt)]
    simp only [Option.getD_some]
    have hmem : (cur :: o :: os)[k % (os.length + 1 + 1)]'(by simpa using hlt) ∈ cur :: o :: os := List.getElem_mem _
    rcases List.mem_cons.1 hmem with h | h
    · exact Or.inl h
    · exact Or.inr h

/-- A write is seen late (R51): each of the two values is used for some outcome of the choice, and nothing else but a
value from before. -/
theorem Windowed.write_late : writtenLate w (w.write x) x := by
  refine ⟨fun k => ?_, ⟨0, ?_⟩, ⟨1, ?_⟩, fun k => Windowed.seen_sync _ k⟩
  · rcases (w.write x).seen_may k with h | h
    · exact .inl h
    · exact .inr (by simpa [Windowed.may] using h)
  · simp [Windowed.seen]
  · simp [Windowed.seen, Nat.mod_eq_of_lt]

/-- A property of every value an evaluation may use holds of the one it uses. -/
theorem Windowed.all_seen (p : α → Bool) (h : w.all p = true) : p (w.seen k) = true := by
  simp only [Windowed.all, Bool.and_eq_true, List.all_eq_true] at h
  rcases w.seen_may k with hc | ho
  · rw [hc]; exact h.1
  · exact h.2 _ ho

theorem Windowed.all_write (p : α → Bool) (h : w.all p = true) (hx : p x = true) : (w.write x).all p = true := by
  simp only [Windowed.all, Windowed.write, Bool.and_eq_true, List.all_cons] at h ⊢
  exact ⟨hx, h⟩

theorem Windowed.all_sync (p : α → Bool) (h : w.all p = true) : w.sync.all p = true := by
  simp only [Windowed.all, Windowed.sync, Bool.and_eq_true, List.all_nil] at h ⊢
  exact ⟨h.1, trivial⟩

end Windowed

@[simp] theorem Controls.sync_sync (c : Controls) : c.sync.sync = c.sync := rfl
@[simp] theorem Controls.current_sync (c : Controls) : c.sync.current = c.current := rfl
@[simp] theorem Controls.sync_dbgvcr_cur (c : Controls) : c.sync.dbgvcr.cur = c.dbgvcr.cur := rfl
@[simp] theorem Controls.sync_tge_cur (c : Controls) : c.sync.tge.cur = c.tge.cur := rfl

/-- After a context synchronisation event every evaluation uses the registers' values. -/
@[simp] theorem Controls.view_sync (c : Controls) (n : Nat) : c.sync.view n = c.current := by
  simp only [Controls.view, Controls.sync, Controls.current, Banked.map, Windowed.seen_sync]

/-- With every write visible an evaluation uses the registers' values. -/
theorem view_of_synced (s : State) (h : s.synced = true) : s.view = s.ctl.current := by
  have hs : s.ctl.sync = s.ctl := by simpa [State.synced] using h
  unfold State.view
  rw [← hs, Controls.view_sync, Controls.current_sync]

section Banked
variable {α : Type} (b : Banked α) (cfg : Config) (ss : SecurityState) (x : α)

@[simp] theorem Banked.of_write_same : (b.write cfg ss x).of cfg ss = x := by
  unfold Banked.of Banked.write
  split <;> simp_all

/-- Where EL3 is not using AArch32 there is one instance (R22). -/
theorem Banked.of_single (h : cfg.el3 ≠ .a32) : b.of cfg ss = b.s := by
  simp [Banked.of, usesNs, h]

/-- Where EL3 is using AArch32 there is one instance per Security state (R22). -/
theorem Banked.of_banked (h : cfg.el3 = .a32) :
    b.of cfg ss = match ss with
      | .secure => b.s
      | .nonSecure => b.ns := by
  cases ss <;> simp [Banked.of, usesNs, h]

end Banked

/-- The positions of the enable bits are distinct (R19). -/
theorem bitPos_injective (b b' : EnableBit) (h : bitPos b = bitPos b') : b = b' := by
  revert h; cases b <;> cases b' <;> decide

theorem bitPos_lt (b : EnableBit) : bitPos b < 32 := by
  cases b <;> decide

theorem mem_allBits (b : EnableBit) : b ∈ allBits := by
  cases b <;> decide

theorem foldl_pack_getLsbD (p : EnableBit → Bool) (l : List EnableBit) (w : Word) (i : Nat) :
    (l.foldl (fun w b => if p b then w ||| BitVec.twoPow 32 (bitPos b) else w) w).getLsbD i =
      (w.getLsbD i || l.any fun b => p b && bitPos b == i) := by
  induction l generalizing w with
  | nil => simp
  | cons b rest ih =>
    simp only [List.foldl_cons, ih, List.any_cons]
    have hb := bitPos_lt b
    by_cases hp : p b = true
    · by_cases hi : bitPos b = i
      · subst hi
        simp [hp, hb]
      · have hi' : (bitPos b == i) = false := by simpa using hi
        simp [hp, BitVec.getLsbD_twoPow, hi, hi']
    · simp [hp]

/-- The DBGVCR as read (R76): bit `i` is 1 exactly if an existing enable bit stands there and is 1. -/
theorem pack_getLsbD (cfg : Config) (d : Dbgvcr) (i : Nat) :
    (pack cfg d).getLsbD i = allBits.any fun b => enabled cfg d b && bitPos b == i := by
  simp [pack, foldl_pack_getLsbD]

/-- The DBGVCR as read, at the position of an enable bit. -/
@[simp] theorem pack_getLsbD_bitPos (cfg : Config) (d : Dbgvcr) (b : EnableBit) :
    (pack cfg d).getLsbD (bitPos b) = enabled cfg d b := by
  rw [pack_getLsbD, Bool.eq_iff_iff, List.any_eq_true]
  constructor
  · rintro ⟨b', -, h⟩
    simp only [Bool.and_eq_true, beq_iff_eq] at h
    rw [← bitPos_injective _ _ h.2]; exact h.1
  · intro h
    exact ⟨b, mem_allBits b, by simp [h]⟩

/-- A write to the DBGVCR, bit by bit (R77). -/
@[simp] theorem Dbgvcr.get_writeWord (cfg : Config) (w : Word) (d : Dbgvcr) (b : EnableBit) :
    (d.writeWord cfg w).get b = writtenBit cfg w d b := by
  cases b <;> rfl

theorem Dbgvcr.ext_get (d d' : Dbgvcr) (h : ∀ b, d.get b = d'.get b) : d = d' := by
  obtain ⟨⟩ := d
  obtain ⟨⟩ := d'
  obtain rfl := h .sf
  obtain rfl := h .si
  obtain rfl := h .sd
  obtain rfl := h .sp
  obtain rfl := h .ss
  obtain rfl := h .su
  obtain rfl := h .nsf
  obtain rfl := h .nsi
  obtain rfl := h .nsd
  obtain rfl := h .nsp
  obtain rfl := h .nss
  obtain rfl := h .nsu
  obtain rfl := h .mf
  obtain rfl := h .mi
  obtain rfl := h .md
  obtain rfl := h .mp
  obtain rfl := h .ms
  rfl

/-- The element of a table and a type (R71), when there is one. -/
theorem catchVector_eq_some (cfg : Config) (v : View) (t : Table) (x : XType) (e : CatchVector) :
    catchVector cfg v t x = some e ↔
      ∃ b, enableBit t x = some b ∧ enabled cfg v.dbgvcr b = true ∧ e = ⟨b, t, x, vectorAddr cfg v t x⟩ := by
  unfold catchVector
  cases enableBit t x with
  | none => simp
  | some b =>
    by_cases h : enabled cfg v.dbgvcr b = true
    · simp only [h, if_true, Option.some.injEq]
      exact ⟨fun he => ⟨b, rfl, h, he.symm⟩, fun ⟨_, hb, _, he⟩ => by subst hb; exact he.symm⟩
    · simp only [h, if_false, reduceCtorEq, false_iff]
      rintro ⟨_, hb, hen, -⟩
      exact h (by simpa [Option.some.inj hb] using hen)

theorem mem_xtypes (x : XType) : x ∈ xtypes := by
  cases x <;> decide

/-- The tables that exist (R8, R66). -/
theorem mem_tables (cfg : Config) (t : Table) :
    t ∈ tables cfg ↔
      match t with
      | .localTable => cfg.el3 = .absent
      | .secureLocal => cfg.el3 ≠ .absent
      | .nonSecureLocal => cfg.el3 ≠ .absent
      | .monitor => cfg.el3 = .a32
      | .hyp => cfg.el2 = .a32 := by
  obtain ⟨f, l2, l3, fp⟩ := cfg
  cases t <;> cases l2 <;> cases l3 <;> simp [tables]

/-- The members of the enabled vector catch set (R71). -/
theorem mem_enabledSet (cfg : Config) (v : View) (e : CatchVector) :
    e ∈ enabledSet cfg v ↔ e.table ∈ tables cfg ∧ catchVector cfg v e.table e.xtype = some e := by
  simp only [enabledSet, List.mem_flatMap, List.mem_filterMap]
  constructor
  · rintro ⟨t, ht, x, -, h⟩
    obtain ⟨b, -, -, rfl⟩ := (catchVector_eq_some ..).1 h
    exact ⟨ht, h⟩
  · rintro ⟨ht, h⟩
    exact ⟨e.table, ht, e.xtype, mem_xtypes _, h⟩

/-- A well-formed base keeps its low two bits clear under any vector offset (R45). -/
theorem offset_low (x : XType) : offset x &&& 3 = 0 := by
  cases x <;> decide

end Sys2Proof.Machine
end

