-- ==== Sys2Proof/Laws/Memory.lean ====
section
/-! SUPPORT. Memory: a read after a write, and the canonical form kept by every memory operation. -/

namespace Sys2Proof.Machine

@[simp] theorem Memory.read_nil (a : Nat) : Memory.read [] a = Memory.unwritten := rfl

theorem Memory.read_cons (k a : Nat) (b : Byte) (m : List Host.Cell) :
    Memory.read ((k, b) :: m) a = if k = a then b else Memory.read m a := rfl

@[simp] theorem Memory.wfFrom_cons (lo k : Nat) (b : Byte) (m : List Host.Cell) :
    Memory.wfFrom lo ((k, b) :: m) = true ↔ lo ≤ k ∧ b ≠ Memory.unwritten ∧ Memory.wfFrom (k + 1) m = true := by
  simp [Memory.wfFrom, and_assoc]

theorem Memory.wfFrom_weaken (lo lo' : Nat) (m : List Host.Cell) (h : lo' ≤ lo) (hm : Memory.wfFrom lo m = true) :
    Memory.wfFrom lo' m = true := by
  cases m with
  | nil => rfl
  | cons c rest =>
    rw [Memory.wfFrom_cons] at hm ⊢
    exact ⟨by omega, hm.2⟩

/-- Nothing below the bound is listed. -/
theorem Memory.read_below (lo a : Nat) (m : List Host.Cell) (h : a < lo) (hm : Memory.wfFrom lo m = true) :
    Memory.read m a = Memory.unwritten := by
  induction m generalizing lo with
  | nil => rfl
  | cons c rest ih =>
    rw [Memory.wfFrom_cons] at hm
    rw [Memory.read_cons, if_neg (by omega)]
    exact ih _ (by omega) hm.2.2

/-- A cell put before a list that starts above it: what is read. -/
theorem Memory.read_cell (a a' : Nat) (b : Byte) (m : List Host.Cell) (h : Memory.wfFrom (a + 1) m = true) :
    Memory.read (Memory.cell a b m) a' = if a = a' then b else Memory.read m a' := by
  unfold Memory.cell
  split
  · rename_i hb
    split
    · rename_i ha
      subst ha hb
      exact Memory.read_below _ a m (by omega) h
    · rfl
  · rfl

/-- A cell put before a list that starts above it: the canonical form. -/
theorem Memory.wfFrom_cell (lo a : Nat) (b : Byte) (m : List Host.Cell) (h : lo ≤ a)
    (hm : Memory.wfFrom (a + 1) m = true) : Memory.wfFrom lo (Memory.cell a b m) = true := by
  unfold Memory.cell
  split
  · exact Memory.wfFrom_weaken _ lo m (by omega) hm
  · rename_i hb
    exact (Memory.wfFrom_cons ..).2 ⟨h, hb, hm⟩

theorem Memory.wfFrom_write (lo : Nat) (m : List Host.Cell) (a : Nat) (b : Byte) (h : lo ≤ a)
    (hm : Memory.wfFrom lo m = true) : Memory.wfFrom lo (Memory.write m a b) = true := by
  induction m generalizing lo with
  | nil => exact Memory.wfFrom_cell lo a b [] h rfl
  | cons c rest ih =>
    rw [Memory.wfFrom_cons] at hm
    simp only [Memory.write]
    split
    · rename_i hak
      exact Memory.wfFrom_cell lo a b _ h ((Memory.wfFrom_cons ..).2 ⟨hak, hm.2⟩)
    · split
      · rename_i hk
        exact Memory.wfFrom_cell lo a b rest h (hk ▸ hm.2.2)
      · exact (Memory.wfFrom_cons ..).2 ⟨hm.1, hm.2.1, ih _ (by omega) hm.2.2⟩

theorem Memory.read_write_from (lo : Nat) (m : List Host.Cell) (a a' : Nat) (b : Byte)
    (hm : Memory.wfFrom lo m = true) :
    Memory.read (Memory.write m a b) a' = if a = a' then b else Memory.read m a' := by
  induction m generalizing lo with
  | nil => exact Memory.read_cell a a' b [] rfl
  | cons c rest ih =>
    obtain ⟨k, x⟩ := c
    rw [Memory.wfFrom_cons] at hm
    simp only [Memory.write]
    split
    · rename_i hak
      exact Memory.read_cell a a' b _ ((Memory.wfFrom_cons ..).2 ⟨hak, hm.2⟩)
    · split
      · rename_i hk
        subst hk
        rw [Memory.read_cell a a' b rest hm.2.2, Memory.read_cons]
        split <;> rfl
      · rw [Memory.read_cons, Memory.read_cons, ih _ hm.2.2]
        by_cases h1 : k = a'
        · rw [if_pos h1, if_pos h1, if_neg (by omega)]
        · rw [if_neg h1, if_neg h1]

/-- A read after a write: the byte written at its address, every other byte as before. -/
theorem Memory.read_write (m : List Host.Cell) (a a' : Nat) (b : Byte) (hm : Memory.wf m = true) :
    Memory.read (Memory.write m a b) a' = if a = a' then b else Memory.read m a' :=
  Memory.read_write_from 0 m a a' b hm

/-- A write keeps the canonical form. -/
theorem Memory.wf_write (m : List Host.Cell) (a : Nat) (b : Byte) (hm : Memory.wf m = true) :
    Memory.wf (Memory.write m a b) = true :=
  Memory.wfFrom_write 0 m a b (Nat.zero_le _) hm

/-- Storing an instruction at the pc keeps the canonical form. -/
theorem storeAtPc_wf (s : State) (k : Nat) (bs : List Byte) (hm : Memory.wf s.mem = true) :
    Memory.wf (s.storeAtPc k bs) = true := by
  induction bs generalizing k with
  | nil => exact hm
  | cons b rest ih => exact Memory.wf_write _ _ _ (ih (k + 1))

/-- Four successive bytes from the pc stand at four addresses, in either Execution state. -/
theorem pcPlus_inj (s : State) (i j : Nat) (hi : i < 4) (hj : j < 4) (h : (s.pcPlus i).toNat = (s.pcPlus j).toNat) :
    i = j := by
  unfold State.pcPlus at h
  split at h
  · simp only [BitVec.toNat_add, BitVec.toNat_ofNat] at h
    omega
  · simp only [BitVec.toNat_setWidth, BitVec.toNat_add, BitVec.toNat_ofNat] at h
    omega

/-- Bytes stored at the pc, the first one first. -/
theorem read_storeAtPc_cons (s : State) (k a : Nat) (b : Byte) (bs : List Byte) (hm : Memory.wf s.mem = true) :
    Memory.read (s.storeAtPc k (b :: bs)) a =
      if (s.pcPlus k).toNat = a then b else Memory.read (s.storeAtPc (k + 1) bs) a :=
  Memory.read_write _ _ _ _ (storeAtPc_wf s (k + 1) bs hm)

/-- Four bytes stored at the pc are the bytes the fetch reads. -/
theorem fetch_storeAtPc (s : State) (b0 b1 b2 b3 : Byte) (hm : Memory.wf s.mem = true) :
    ({ s with mem := s.storeAtPc 0 [b0, b1, b2, b3] } : State).fetch 4 = [b0, b1, b2, b3] := by
  have hne : ∀ i j, i < 4 → j < 4 → i ≠ j → (s.pcPlus i).toNat ≠ (s.pcPlus j).toNat :=
    fun i j hi hj hij h => hij (pcPlus_inj s i j hi hj h)
  have hb : ∀ k, ({ s with mem := s.storeAtPc 0 [b0, b1, b2, b3] } : State).fetchByte k =
      Memory.read (s.storeAtPc 0 [b0, b1, b2, b3]) (s.pcPlus k).toNat := fun _ => rfl
  simp only [State.fetch, List.range, List.range.loop, List.map, hb, read_storeAtPc_cons _ _ _ _ _ hm]
  simp [hne 0 1, hne 0 2, hne 0 3, hne 1 2, hne 1 3, hne 2 3]

theorem reset_memory_wf : Memory.wf State.reset.mem = true := rfl

/-- Equal readings of two memories in canonical form are equal memories. -/
theorem Memory.ext_of_wfFrom (lo : Nat) (m m' : List Host.Cell) (hm : Memory.wfFrom lo m = true)
    (hm' : Memory.wfFrom lo m' = true) (h : ∀ a, lo ≤ a → Memory.read m a = Memory.read m' a) : m = m' := by
  induction m generalizing lo m' with
  | nil =>
    cases m' with
    | nil => rfl
    | cons c rest =>
      rw [Memory.wfFrom_cons] at hm'
      have := h c.1 hm'.1
      rw [Memory.read_nil, Memory.read_cons, if_pos rfl] at this
      exact absurd this.symm hm'.2.1
  | cons c rest ih =>
    obtain ⟨k, x⟩ := c
    rw [Memory.wfFrom_cons] at hm
    cases m' with
    | nil =>
      have := h k hm.1
      rw [Memory.read_nil, Memory.read_cons, if_pos rfl] at this
      exact absurd this hm.2.1
    | cons c' rest' =>
      obtain ⟨k', x'⟩ := c'
      rw [Memory.wfFrom_cons] at hm'
      have hk : k = k' := by
        rcases Nat.lt_trichotomy k k' with hlt | heq | hgt
        · have := h k hm.1
          rw [Memory.read_cons, if_pos rfl, Memory.read_cons, if_neg (by omega),
            Memory.read_below _ k rest' (by omega) hm'.2.2] at this
          exact absurd this hm.2.1
        · exact heq
        · have := h k' hm'.1
          rw [Memory.read_cons (k := k'), if_pos rfl, Memory.read_cons, if_neg (by omega),
            Memory.read_below _ k' rest (by omega) hm.2.2] at this
          exact absurd this.symm hm'.2.1
      subst hk
      obtain rfl : x = x' := by simpa [Memory.read_cons] using h k hm.1
      congr 1
      refine ih _ rest' hm.2.2 hm'.2.2 fun a ha => ?_
      have := h a (by omega)
      rwa [Memory.read_cons, if_neg (by omega), Memory.read_cons, if_neg (by omega)] at this

end Sys2Proof.Machine
end

