-- ==== Sys2Proof/Laws/Ops.lean ====
section
/-! SUPPORT. What the shared operations can do: taking an exception, returning from one, taking a debug exception. -/

namespace Sys2Proof.Machine

/-! ### Taking an exception -/

/-- The three shapes of taking an exception. -/
theorem takeException_cases (e : Entry) (pra : DWord) (link : Word) (s : State) :
    (∃ ss, e.target = .mode .hyp ss ∧ takeException e pra link s = enterHyp ss e.etype pra s) ∨
    (∃ m ss, m ≠ .hyp ∧ e.target = .mode m ss ∧ takeException e pra link s = enterMode m ss e.etype link s) ∨
    (∃ el, e.target = .aarch64 el ∧ takeException e pra link s = enterA64 el e.etype pra s) := by
  obtain ⟨et, tgt⟩ := e
  cases tgt with
  | aarch64 el => exact .inr (.inr ⟨el, rfl, rfl⟩)
  | mode m ss => cases m <;> first | exact .inl ⟨ss, rfl, rfl⟩ | exact .inr (.inl ⟨_, ss, by decide, rfl, rfl⟩)

section enterA64
variable (el : EL) (e : EType) (a : DWord) (s : State)

@[simp] theorem enterA64_cfg : (enterA64 el e a s).cfg = s.cfg := by cases el <;> rfl
@[simp] theorem enterA64_el1is32 : (enterA64 el e a s).el1is32 = s.el1is32 := by cases el <;> rfl
@[simp] theorem enterA64_el0is32 : (enterA64 el e a s).el0is32 = s.el0is32 := by cases el <;> rfl
@[simp] theorem enterA64_exec : (enterA64 el e a s).exec = .aarch64 el := rfl
@[simp] theorem enterA64_pc : (enterA64 el e a s).pc = Config.draw .vector s.draws &&& 0xFFFFFFFFFFFFFFFC := rfl
@[simp] theorem enterA64_cpsr : (enterA64 el e a s).cpsr = freeMasks s.cpsr s.draws := rfl
@[simp] theorem enterA64_gpr : (enterA64 el e a s).gpr = s.gpr := by cases el <;> rfl
@[simp] theorem enterA64_ctl : (enterA64 el e a s).ctl = s.ctl.sync := rfl
@[simp] theorem enterA64_sys : (enterA64 el e a s).sys = s.sys := by cases el <;> rfl
@[simp] theorem enterA64_syn : (enterA64 el e a s).syn = s.syn := by cases el <;> rfl
@[simp] theorem enterA64_params : (enterA64 el e a s).params = s.params := by cases el <;> rfl
@[simp] theorem enterA64_inputs : (enterA64 el e a s).inputs = s.inputs := by cases el <;> rfl
@[simp] theorem enterA64_entered : (enterA64 el e a s).entered = some ⟨e, .aarch64 el⟩ := rfl
@[simp] theorem enterA64_mem : (enterA64 el e a s).mem = s.mem := by cases el <;> rfl

end enterA64

section takeException
variable (e : Entry) (pra : DWord) (link : Word) (s : State)

/-- An entry changes neither the implementation, nor the controls' values, the syndrome, the parameters, the inputs,
memory; it is recorded, and it is a context synchronisation event. -/
theorem takeException_spec :
    (takeException e pra link s).cfg = s.cfg ∧ (takeException e pra link s).el1is32 = s.el1is32 ∧
    (takeException e pra link s).el0is32 = s.el0is32 ∧ (takeException e pra link s).ctl = s.ctl.sync ∧
    (takeException e pra link s).sys = s.sys ∧ (takeException e pra link s).syn = s.syn ∧
    (takeException e pra link s).params = s.params ∧ (takeException e pra link s).inputs = s.inputs ∧
    (takeException e pra link s).mem = s.mem ∧ (takeException e pra link s).entered = some e := by
  obtain ⟨et, tgt⟩ := e
  rcases takeException_cases ⟨et, tgt⟩ pra link s with ⟨ss, ht, h⟩ | ⟨m, ss, -, ht, h⟩ | ⟨el, ht, h⟩ <;>
    · simp only at ht
      subst ht
      rw [h]
      simp

@[simp] theorem takeException_cfg : (takeException e pra link s).cfg = s.cfg := (takeException_spec e pra link s).1
@[simp] theorem takeException_el1is32 : (takeException e pra link s).el1is32 = s.el1is32 :=
  (takeException_spec e pra link s).2.1
@[simp] theorem takeException_el0is32 : (takeException e pra link s).el0is32 = s.el0is32 :=
  (takeException_spec e pra link s).2.2.1
@[simp] theorem takeException_ctl : (takeException e pra link s).ctl = s.ctl.sync :=
  (takeException_spec e pra link s).2.2.2.1
@[simp] theorem takeException_sys : (takeException e pra link s).sys = s.sys :=
  (takeException_spec e pra link s).2.2.2.2.1
@[simp] theorem takeException_syn : (takeException e pra link s).syn = s.syn :=
  (takeException_spec e pra link s).2.2.2.2.2.1
@[simp] theorem takeException_params : (takeException e pra link s).params = s.params :=
  (takeException_spec e pra link s).2.2.2.2.2.2.1
@[simp] theorem takeException_inputs : (takeException e pra link s).inputs = s.inputs :=
  (takeException_spec e pra link s).2.2.2.2.2.2.2.1
@[simp] theorem takeException_mem : (takeException e pra link s).mem = s.mem :=
  (takeException_spec e pra link s).2.2.2.2.2.2.2.2.1
@[simp] theorem takeException_entered : (takeException e pra link s).entered = some e :=
  (takeException_spec e pra link s).2.2.2.2.2.2.2.2.2

end takeException

/-! ### Addresses -/

/-- An address aligned to a word is aligned for every instruction set. -/
theorem alignPc_word (exec : ExecState) (t : Bool) (a : Word) (h : a &&& 3 = 0) (he : exec = .aarch32) :
    alignPc exec t (a.setWidth 64) = a.setWidth 64 := by
  subst he
  have h0 : a.getLsbD 0 = false := by
    have := congrArg (fun w : Word => w.getLsbD 0) h; simpa using this
  have h1 : a.getLsbD 1 = false := by
    have := congrArg (fun w : Word => w.getLsbD 1) h; simpa using this
  have key : (a &&& (if t then 0xFFFFFFFE else 0xFFFFFFFC)) = a := by
    refine BitVec.eq_of_getLsbD_eq fun i hi => ?_
    rw [BitVec.getLsbD_and]
    by_cases hi0 : i = 0
    · subst hi0; simp only [h0, Bool.false_and]
    · by_cases hi1 : i = 1
      · subst hi1; simp only [h1, Bool.false_and]
      · have hmask : (if t then (0xFFFFFFFE : Word) else 0xFFFFFFFC).getLsbD i = true := by
          interval_cases i <;> cases t <;> first | contradiction | decide
        rw [hmask, Bool.and_true]
  simp only [alignPc]
  rw [show (a.setWidth 64).setWidth 32 = a by simp, key]

/-- A well-formed base plus a vector offset is word-aligned (R45, R70). -/
theorem base_offset_aligned (b o : Word) (hb : baseAligned b = true) (ho : o &&& 3 = 0) : (b + o) &&& 3 = 0 := by
  have hb' : b &&& 0x1F = 0 := by simpa [baseAligned] using hb
  have h1 : b.toNat % 32 = 0 := by
    have := congrArg BitVec.toNat hb'
    simpa [BitVec.toNat_and, Nat.and_two_pow_sub_one_eq_mod b.toNat 5] using this
  have h2 : o.toNat % 4 = 0 := by
    have := congrArg BitVec.toNat ho
    simpa [BitVec.toNat_and, Nat.and_two_pow_sub_one_eq_mod o.toNat 2] using this
  have h3 : (b + o &&& 3).toNat = (b + o).toNat % 4 := by
    simpa using Nat.and_two_pow_sub_one_eq_mod (b + o).toNat 2
  apply BitVec.eq_of_toNat_eq
  rw [h3, BitVec.toNat_add]
  simp only [BitVec.ofNat_eq_ofNat, BitVec.toNat_ofNat]
  omega

/-- A written vector base is well-formed (R22, R24). -/
theorem maskBase_aligned (w : Word) : baseAligned (maskBase w) = true := by
  simp [baseAligned, maskBase, BitVec.and_assoc]

/-! ### Taking a debug exception -/

/-- The two ways a debug exception is taken (R113, R114), and when. -/
theorem takeDebugRouted_next (v : View) (moe : BitVec 4) (pra : Word) (s t : State)
    (h : takeDebugRouted v moe pra s = .next t) :
    (routeToHyp s.cfg v s.ss s.cpsr.m = true ∧
      t = enterHyp s.ss .hypTrap (pra.setWidth 64) (hypSyndrome moe s)) ∨
    (routeToHyp s.cfg v s.ss s.cpsr.m = false ∧
      t = enterMode .abort s.ss (.x .prefetchAbort) (pra + 4) (abortSyndrome moe s)) := by
  unfold takeDebugRouted at h
  split at h
  · cases h
  · split at h
    · rename_i hr
      cases h
      exact .inl ⟨hr, rfl⟩
    · rename_i hr
      cases h
      exact .inr ⟨by simpa using hr, rfl⟩

/-! ### Returning -/

/-- What a return restores, when it is one the implementation allows. -/
theorem restore_next (exec : ExecState) (p : Psr) (target : DWord) (s t : State) (h : restore exec p target s = .next t) :
    t = restored exec p target s ∧ t.legalContext = true ∧ t.el.rank ≤ s.el.rank := by
  unfold restore at h
  split at h
  · rename_i hc
    cases h
    simp only [Bool.and_eq_true, decide_eq_true_eq] at hc
    exact ⟨rfl, hc⟩
  · cases h

/-- A return is a `restore`. -/
theorem returnSubs_next (imm : Word) (s t : State) (h : returnSubs imm s = .next t) :
    ∃ p target, s.spsr.read s.cpsr.m = some p ∧ restore .aarch32 p target s = .next t := by
  unfold returnSubs at h
  split at h
  · cases h
  · split at h
    · cases h
    · split at h
      · cases h
      · rename_i p hp
        exact ⟨p, _, hp, h⟩

theorem returnEret_next (s t : State) (h : returnEret s = .next t) :
    ∃ exec p target, restore exec p target s = .next t := by
  unfold returnEret at h
  split at h
  · split at h
    · cases h
    · exact ⟨_, _, _, h⟩
  · split at h
    · exact ⟨_, _, _, h⟩
    · obtain ⟨p, target, -, h'⟩ := returnSubs_next 0 s t h
      exact ⟨_, p, target, h'⟩

end Sys2Proof.Machine
end

