-- ==== Sys2Proof/Laws/Step.lean ====
section
/-! SUPPORT. What the meanings, the host PE's inputs and a step can do: one inversion lemma each. -/

namespace Sys2Proof.Machine

/-! ### The meanings -/

theorem readDbgvcr_next (passed : Bool) (rt : Fin 16) (len : Nat) (s t : State)
    (h : readDbgvcr passed rt len s = .next t) :
    t = s.advance len ∨ t = raiseUndefined s ∨
      ∃ k, gprIndex s.cpsr.m rt = some k ∧ t = (s.writeGpr k (pack s.cfg s.ctl.dbgvcr.cur)).advance len := by
  unfold readDbgvcr at h
  split at h
  · cases h
  · rename_i k hk
    split at h
    · cases h; exact .inl rfl
    · split at h
      · cases h; exact .inr (.inl rfl)
      · split at h
        · cases h
        · cases h; exact .inr (.inr ⟨k, hk, rfl⟩)

theorem writeDbgvcr_next (passed : Bool) (rt : Fin 16) (len : Nat) (s t : State)
    (h : writeDbgvcr passed rt len s = .next t) :
    t = s.advance len ∨ t = raiseUndefined s ∨ ∃ w, t = (s.writeDbgvcr w).advance len := by
  unfold writeDbgvcr at h
  split at h
  · cases h
  · split at h
    · cases h; exact .inl rfl
    · split at h
      · cases h; exact .inr (.inl rfl)
      · split at h
        · cases h
        · cases h; exact .inr (.inr ⟨_, rfl⟩)

/-- Everything an instruction of the opcode table can do. -/
theorem exec_next (i : Instr) (s t : State) (h : exec i s = .next t) :
    t = s.advance 4 ∨ t = raiseUndefined s ∨ (∃ k v, t = (s.writeGpr k v).advance 4) ∨
      (∃ n v, t = (s.writeX n v).advance 4) ∨
      (i.writesDbgvcr = true ∧ ∃ w, t = (s.writeDbgvcr w).advance 4) := by
  cases i with
  | mrcA32 c rt =>
    rcases readDbgvcr_next _ rt 4 s t h with h | h | ⟨k, -, h⟩
    · exact .inl h
    · exact .inr (.inl h)
    · exact .inr (.inr (.inl ⟨k, _, h⟩))
  | mrcT32 rt =>
    rcases readDbgvcr_next _ rt 4 s t h with h | h | ⟨k, -, h⟩
    · exact .inl h
    · exact .inr (.inl h)
    · exact .inr (.inr (.inl ⟨k, _, h⟩))
  | mcrA32 c rt =>
    rcases writeDbgvcr_next _ rt 4 s t h with h | h | h
    · exact .inl h
    · exact .inr (.inl h)
    · exact .inr (.inr (.inr (.inr ⟨rfl, h⟩)))
  | mcrT32 rt =>
    rcases writeDbgvcr_next _ rt 4 s t h with h | h | h
    · exact .inl h
    · exact .inr (.inl h)
    · exact .inr (.inr (.inr (.inr ⟨rfl, h⟩)))
  | mrsA64 rt =>
    simp only [exec, execMrsA64] at h
    split at h
    · cases h
    · split at h
      · cases h
      · cases h; exact .inr (.inr (.inr (.inl ⟨rt, _, rfl⟩)))
  | msrA64 rt =>
    simp only [exec, execMsrA64] at h
    split at h
    · cases h
    · split at h
      · cases h
      · cases h; exact .inr (.inr (.inr (.inr ⟨rfl, _, rfl⟩)))

/-! ### The host PE -/

theorem hostException_next (e : Entry) (len : Nat) (s t : State) (h : hostException e len s = .next t) :
    (∃ pra link, t = takeException e pra link (hostSyndrome e s)) ∧ targetAllowed s e.target = true ∧
      t.legalContext = true ∧ s.el.rank ≤ t.el.rank := by
  unfold hostException at h
  simp only at h
  split at h
  · rename_i hc
    cases h
    simp only [Bool.and_eq_true, decide_eq_true_eq] at hc
    exact ⟨⟨_, _, rfl⟩, hc.1.1, hc.1.2, hc.2⟩
  · cases h

theorem hostRun_next (eff : HostEffect) (len : Nat) (s t : State) (h : hostRun eff len s = .next t) :
    ∃ u, u = eff.writes.foldl applyWrite (eff.start s) ∧ u.legalContext = true ∧ u.el = s.el ∧ hostFlow eff.flow len u = .next t := by
  unfold hostRun at h
  simp only at h
  split at h
  · rename_i hc
    simp only [Bool.and_eq_true, beq_iff_eq] at hc
    exact ⟨_, rfl, hc.1.2, hc.2, h⟩
  · cases h

/-- Every register an instruction outside the opcode table writes exists where it is executed. -/
theorem hostRun_writeExists (eff : HostEffect) (len : Nat) (s t : State) (h : hostRun eff len s = .next t) :
    ∀ w ∈ eff.writes, writeExists s w = true := by
  unfold hostRun at h
  simp only at h
  split at h
  · rename_i hc
    simp only [Bool.and_eq_true, List.all_eq_true] at hc
    exact hc.1.1
  · cases h

/-- What the writes of an instruction outside the opcode table leave alone, and the one thing every one keeps of each
register they may write late: it can only grow a window. -/
theorem applyWrite_spec (s : State) (w : HostWrite) :
    (applyWrite s w).cfg = s.cfg ∧ (applyWrite s w).el1is32 = s.el1is32 ∧ (applyWrite s w).el0is32 = s.el0is32 ∧
    (applyWrite s w).exec = s.exec ∧ (applyWrite s w).ss = s.ss ∧ (applyWrite s w).pc = s.pc ∧
    (applyWrite s w).cpsr.t = s.cpsr.t ∧ (applyWrite s w).syn = s.syn ∧ (applyWrite s w).params = s.params ∧
    (applyWrite s w).inputs = s.inputs ∧ (applyWrite s w).entered = s.entered ∧
    (applyWrite s w).ctl.dbgvcr = s.ctl.dbgvcr := by
  cases w with
  | gpr n v =>
    simp only [applyWrite]
    split <;> simp
  | a64Return el r => simp [applyWrite, State.writeA64Return]; cases el <;> simp
  | _ => simp [applyWrite]

/-- What the writes keep of the well-formedness of a state: memory's canonical form and the vector bases. -/
theorem applyWrite_keeps (s : State) (w : HostWrite) (hb : s.basesAligned = true) (hh : baseAligned s.sys.hvbar = true)
    (hm : Memory.wf s.mem = true) :
    (applyWrite s w).basesAligned = true ∧ baseAligned (applyWrite s w).sys.hvbar = true ∧
      Memory.wf (applyWrite s w).mem = true := by
  have hb' := hb
  simp only [State.basesAligned, Bool.and_eq_true] at hb'
  obtain ⟨⟨h1, h2⟩, h3⟩ := hb'
  cases w with
  | gpr n v =>
    simp only [applyWrite]
    split
    · exact ⟨hb, hh, hm⟩
    · exact ⟨hb, hh, hm⟩
  | a64Return el r => cases el <;> exact ⟨hb, hh, hm⟩
  | byte a b => exact ⟨hb, hh, Memory.wf_write _ _ _ hm⟩
  | mvbar v =>
    refine ⟨?_, hh, hm⟩
    simp [applyWrite, State.basesAligned, h1, h2, Windowed.all_write _ _ _ h3 (maskBase_aligned v)]
  | vbar ss v =>
    refine ⟨?_, hh, hm⟩
    have hm := maskBase_aligned v
    simp only [applyWrite, State.basesAligned, Banked.write, Banked.of]
    split <;> simp [h1, h2, h3, Windowed.all_write _ _ _ _ hm]
  | hvbar v => exact ⟨hb, maskBase_aligned v, hm⟩
  | _ => exact ⟨hb, hh, hm⟩

/-! ### A PE step -/

theorem runInstruction_next (eff : Option HostEffect) (len : Nat) (s t : State)
    (h : runInstruction eff len s = .next t) :
    (∃ i left, decode s.iset (s.fetch len) = .ok (i, left) ∧ exec i s = .next t) ∨
      ∃ x, eff = some x ∧ hostRun x len s = .next t := by
  unfold runInstruction at h
  split at h
  · rename_i i left hd
    exact .inl ⟨i, left, hd, h⟩
  · cases h
  · cases h
  all_goals
    split at h
    · exact .inr ⟨_, rfl, h⟩
    · cases h

/-- Everything that can come of the next instruction. -/
theorem commitNext_next (eff : Option HostEffect) (s t : State) (h : commitNext eff s = .next t) :
    (s.checkCommit s.instrLength = .vectorCatch ∧ takeVC s.addr s.tick = .next t) ∨
    (s.checkCommit s.instrLength = .breakpoint ∧ takeBreakpoint s.addr s.tick = .next t) ∨
    (∃ e, s.checkCommit s.instrLength = .fetchException e ∧ hostException e s.instrLength s.tick = .next t) ∨
    (s.checkCommit s.instrLength = .execute ∧
      ∃ i left, decode s.iset (s.fetch s.instrLength) = .ok (i, left) ∧ exec i s.tick = .next t) ∨
    (s.checkCommit s.instrLength = .execute ∧ ∃ x, eff = some x ∧ hostRun x s.instrLength s.tick = .next t) := by
  unfold commitNext at h
  split at h
  · rename_i hc; exact .inl ⟨hc, h⟩
  · rename_i hc; exact .inr (.inl ⟨hc, h⟩)
  · rename_i e hc; exact .inr (.inr (.inl ⟨e, hc, h⟩))
  · rename_i hc
    rcases runInstruction_next _ _ _ _ h with h | h
    · exact .inr (.inr (.inr (.inl ⟨hc, h⟩)))
    · exact .inr (.inr (.inr (.inr ⟨hc, h⟩)))

/-- Everything a PE step can do once no entry is to be tested. -/
theorem peStep_next (s t : State) (h : peStep s = .next t) :
    (∃ e rest, s.inputs = .exception e :: rest ∧ hostException e 0 { s with inputs := rest } = .next t) ∨
    (∃ p rest, s.inputs = .parameters p :: rest ∧ t = { s with params := p, inputs := rest }) ∨
    (∃ eff rest, (match eff with
      | none => s.inputs = [] ∧ rest = []
      | some x => s.inputs = .instruction x :: rest) ∧ commitNext eff { s with inputs := rest } = .next t) := by
  unfold peStep at h
  split at h
  · rename_i hi
    exact .inr (.inr ⟨none, [], ⟨hi, rfl⟩, by rw [← hi]; exact h⟩)
  · rename_i e rest hi
    exact .inl ⟨e, rest, hi, h⟩
  · rename_i eff rest hi
    exact .inr (.inr ⟨some eff, rest, hi, h⟩)
  · rename_i p rest hi
    cases h
    exact .inr (.inl ⟨p, rest, hi, rfl⟩)

/-- Everything a step can do: take the Vector Catch exception of the entry just made, or a PE step from the state with
no entry to test. -/
theorem step_next (s t : State) (h : step s = .next t) :
    s.cfg.listed = true ∧ s.basesAligned = true ∧
    ((∃ e v, s.entered = some e ∧
        etCheck (Config.choose .abortVectorTrap s.draws) s.view s e = some v ∧ takeVC v s.tick = .next t) ∨
     (s.entered = none ∧ peStep s = .next t) ∨
     (∃ e, s.entered = some e ∧ etCheck (Config.choose .abortVectorTrap s.draws) s.view s e = none ∧
        peStep { s.tick with entered := none } = .next t)) := by
  unfold step stepMachine at h
  split at h
  · cases h
  · rename_i h1
    split at h
    · cases h
    · rename_i h2
      refine ⟨by simpa using h1, by simpa using h2, ?_⟩
      split at h
      · rename_i e he
        unfold afterEntry at h
        split at h
        · rename_i v hv
          exact .inl ⟨e, v, he, hv, h⟩
        · rename_i hv
          exact .inr (.inr ⟨e, he, hv, h⟩)
      · rename_i he
        exact .inr (.inl ⟨he, h⟩)

/-- With no exception or change of parameters due, a PE step checks and executes the next instruction. -/
theorem peStep_commits (u : State) (eff : Option HostEffect) (rest : List HostInput)
    (h : match eff with
      | none => u.inputs = [] ∧ rest = []
      | some x => u.inputs = .instruction x :: rest) :
    peStep u = commitNext eff { u with inputs := rest } := by
  obtain ⟨⟩ := u
  cases eff with
  | none =>
    obtain ⟨h, rfl⟩ := h
    subst h
    rfl
  | some x =>
    subst h
    rfl

/-- When nothing but the next instruction comes, a step checks and executes it. -/
theorem step_commits (s : State) (eff : Option HostEffect) (rest : List HostInput)
    (hn : nextIsInstruction s eff rest) (hp : entryPasses s) : step s = commitNext eff (atInstruction s rest) := by
  obtain ⟨h1, h2, h3⟩ := hn
  unfold step stepMachine
  simp only [h1, h2, Bool.not_true, Bool.false_eq_true, if_false]
  cases he : s.entered with
  | none =>
    simp only [atInstruction, he]
    rw [peStep_commits s eff rest h3, he]
  | some e =>
    simp only [atInstruction, he, afterEntry, hp e he]
    exact peStep_commits _ eff rest h3

end Sys2Proof.Machine
end

