-- ==== Sys2Proof/Laws/Generation.lean ====
section
/-! SUPPORT. What the generation rules of both forms and the order of the fetch exceptions answer, and that the step's own
bookkeeping (the entry recorded, the queue, the count of draws) reaches none of them. -/

namespace Sys2Proof.Machine

/-! ### Elements at an address -/

theorem XType.isAbort_iff (x : XType) : x.isAbort = true ↔ x = .prefetchAbort ∨ x = .dataAbort := by
  cases x <;> decide

theorem XType.isAbort_eq_false_iff (x : XType) : x.isAbort = false ↔ x ≠ .prefetchAbort ∧ x ≠ .dataAbort := by
  cases x <;> decide

theorem vectorsAt_isEmpty_eq_false (l : List CatchVector) (a : Word) :
    (vectorsAt l a).isEmpty = false ↔ ∃ e ∈ l, e.addr = a := by
  rw [List.isEmpty_eq_false_iff_exists_mem]
  simp [vectorsAt]

theorem vectorsAt_isEmpty (l : List CatchVector) (a : Word) : (vectorsAt l a).isEmpty = true ↔ ∀ e ∈ l, e.addr ≠ a := by
  simp [vectorsAt, List.isEmpty_iff, List.filter_eq_nil_iff]

theorem vectorsAt_any_abort (l : List CatchVector) (a : Word) :
    (vectorsAt l a).any (·.xtype.isAbort) = true ↔ ∃ e ∈ l, e.addr = a ∧ e.xtype.isAbort = true := by
  simp [vectorsAt]

theorem vectorsAt_no_abort (l : List CatchVector) (a : Word) :
    (vectorsAt l a).any (·.xtype.isAbort) = false ↔ ∀ e ∈ l, e.addr = a → e.xtype.isAbort = false := by
  simp [vectorsAt]

/-! ### AM_Check -/

theorem amCheck_off (c : AMChoices) (v : View) (s : State) (a : Word) (len : Nat) (isT32 : Bool)
    (h : s.amApplies = false) : amCheck c v s a len isT32 = .noVC := by
  simp [amCheck, h]

/-- At exactly a compared vector: the half-match choice is out of play (R93). -/
theorem amCheck_exact (c : AMChoices) (v : View) (s : State) (a : Word) (len : Nat) (isT32 : Bool)
    (h : s.amApplies = true) (he : ∃ e ∈ amSubset s.cfg v s.ss, e.addr = a) :
    amCheck c v s a len isT32 =
      if (vectorsAt (amSubset s.cfg v s.ss) a).any (·.xtype.isAbort) && s.el == eld s.cfg v s.ss s.cpsr.m &&
          c.ignoreAbort then .noVC
      else if s.breakpointAt a && c.takeBreakpoint then .breakpoint
      else .vc a := by
  have hv := (vectorsAt_isEmpty_eq_false _ _).2 he
  have hh : amHit c.halfMatch (amSubset s.cfg v s.ss) a len isT32 = vectorsAt (amSubset s.cfg v s.ss) a := by
    simp [amHit, hv]
  simp only [amCheck, h, hh, hv]
  simp

/-- Two bytes before a compared vector, in a 32-bit T32 instruction, with the half match taken (R91). -/
theorem amCheck_half (c : AMChoices) (v : View) (s : State) (a : Word) (h : s.amApplies = true)
    (hn : ∀ e ∈ amSubset s.cfg v s.ss, e.addr ≠ a) (he : ∃ e ∈ amSubset s.cfg v s.ss, e.addr = a + 2)
    (hc : c.halfMatch = true) :
    amCheck c v s a 4 true =
      if (vectorsAt (amSubset s.cfg v s.ss) (a + 2)).any (·.xtype.isAbort) && s.el == eld s.cfg v s.ss s.cpsr.m &&
          c.ignoreAbort then .noVC
      else if s.breakpointAt a && c.takeBreakpoint then .breakpoint
      else .vc a := by
  have h1 := (vectorsAt_isEmpty _ _).2 hn
  have h2 := (vectorsAt_isEmpty_eq_false _ _).2 he
  have hh : amHit c.halfMatch (amSubset s.cfg v s.ss) a 4 true = vectorsAt (amSubset s.cfg v s.ss) (a + 2) := by
    simp only [amHit, h1, hc]
    rfl
  simp only [amCheck, h, hh, h2]
  simp

/-! ### ET_Check -/

theorem etCheck_off (ignored : Bool) (v : View) (s : State) (e : Entry) (h : s.etApplies = false) :
    etCheck ignored v s e = none := by
  simp [etCheck, h]

/-- R111 for an entry of a listed type to an AArch32 mode. -/
theorem etCheck_mode (ignored : Bool) (v : View) (s : State) (x : XType) (m : Mode) (ss : SecurityState) (w : Word) :
    etCheck ignored v s ⟨.x x, .mode m ss⟩ = some w ↔
      s.etApplies = true ∧
      ¬((x = .prefetchAbort ∨ x = .dataAbort) ∧ modeEL s.cfg ss m = eld s.cfg v s.ss s.cpsr.m ∧ ignored = true) ∧
      ∃ b, enableBit (targetTable s.cfg m ss) x = some b ∧ enabled s.cfg v.dbgvcr b = true ∧
        vectorAddr s.cfg v (targetTable s.cfg m ss) x = w := by
  by_cases h1 : s.etApplies = true
  · by_cases h2 : (x = .prefetchAbort ∨ x = .dataAbort) ∧ modeEL s.cfg ss m = eld s.cfg v s.ss s.cpsr.m ∧ ignored = true
    · have : ((EType.x x).isAbort && Target.el s.cfg (.mode m ss) == eld s.cfg v s.ss s.cpsr.m && ignored) = true := by
        simpa [EType.isAbort, Target.el, XType.isAbort_iff, and_assoc] using h2
      simp only [etCheck, h1, this]
      simp [h2]
    · have : ((EType.x x).isAbort && Target.el s.cfg (.mode m ss) == eld s.cfg v s.ss s.cpsr.m && ignored) = false := by
        rw [← Bool.not_eq_true]
        simpa [EType.isAbort, Target.el, XType.isAbort_iff, and_assoc] using h2
      simp only [etCheck, h1, this, etVector, etTable]
      cases enableBit (targetTable s.cfg m ss) x <;> simp [h2]
  · simp [etCheck, h1]

/-! ### The order of the fetch exceptions -/

theorem highestFetch_eq_none (p : List FetchClass) (l : List FetchException) : highestFetch p l = none ↔ l = [] := by
  cases l with
  | nil => simp [highestFetch]
  | cons f r => simp only [highestFetch]; split <;> simp; split <;> simp

theorem highestFetch_mem (p : List FetchClass) (l : List FetchException) (f : FetchException)
    (h : highestFetch p l = some f) : f ∈ l := by
  induction l generalizing f with
  | nil => simp [highestFetch] at h
  | cons g r ih =>
    simp only [highestFetch] at h
    split at h
    · simp at h; simp [h]
    · rename_i k hk
      split at h <;> simp at h
      · simp [h]
      · simp [← h, ih _ hk]

/-- One that comes before every other one is taken. -/
theorem highestFetch_of_before (p : List FetchClass) (l : List FetchException) (f : FetchException) (hm : f ∈ l)
    (h : ∀ g ∈ l, g = f ∨ fetchRank p (.source f.source) < fetchRank p (.source g.source)) :
    highestFetch p l = some f := by
  induction l with
  | nil => simp at hm
  | cons g r ih =>
    simp only [highestFetch]
    split
    · rename_i h0
      rw [highestFetch_eq_none] at h0
      subst h0
      simp at hm
      simp [hm]
    · rename_i k hk
      have hkm := highestFetch_mem _ _ _ hk
      by_cases hfr : f ∈ r
      · obtain rfl : f = k := by simpa [hk] using (ih hfr fun x hx => h x (by simp [hx])).symm
        rcases h g (by simp) with rfl | hl
        · simp
        · rw [if_neg (by omega)]
      · obtain rfl : f = g := by simpa [hfr] using hm
        rcases h k (by simp [hkm]) with rfl | hl
        · exact absurd hkm hfr
        · rw [if_pos (by omega)]

/-! ### The state in which the next instruction is checked -/

@[simp] theorem atInstruction_cfg (s : State) (r : List HostInput) : (atInstruction s r).cfg = s.cfg := by
  unfold atInstruction; split <;> rfl
@[simp] theorem atInstruction_ss (s : State) (r : List HostInput) : (atInstruction s r).ss = s.ss := by
  unfold atInstruction; split <;> rfl
@[simp] theorem atInstruction_cpsr (s : State) (r : List HostInput) : (atInstruction s r).cpsr = s.cpsr := by
  unfold atInstruction; split <;> rfl
@[simp] theorem atInstruction_ctl (s : State) (r : List HostInput) : (atInstruction s r).ctl = s.ctl := by
  unfold atInstruction; split <;> rfl
@[simp] theorem atInstruction_params (s : State) (r : List HostInput) : (atInstruction s r).params = s.params := by
  unfold atInstruction; split <;> rfl
@[simp] theorem atInstruction_synced (s : State) (r : List HostInput) : (atInstruction s r).synced = s.synced := by
  unfold atInstruction; split <;> rfl
@[simp] theorem atInstruction_el (s : State) (r : List HostInput) : (atInstruction s r).el = s.el := by
  unfold atInstruction; split <;> rfl
@[simp] theorem atInstruction_regime (s : State) (r : List HostInput) :
    (atInstruction s r).usingAArch32Regime = s.usingAArch32Regime := by
  unfold atInstruction; split <;> rfl
@[simp] theorem atInstruction_addr (s : State) (r : List HostInput) : (atInstruction s r).addr = s.addr := by
  unfold atInstruction; split <;> rfl
@[simp] theorem atInstruction_pc (s : State) (r : List HostInput) : (atInstruction s r).pc = s.pc := by
  unfold atInstruction; split <;> rfl
@[simp] theorem atInstruction_iset (s : State) (r : List HostInput) : (atInstruction s r).iset = s.iset := by
  unfold atInstruction; split <;> rfl
@[simp] theorem atInstruction_instrLength (s : State) (r : List HostInput) :
    (atInstruction s r).instrLength = s.instrLength := by
  unfold atInstruction; split <;> rfl
@[simp] theorem atInstruction_fetch (s : State) (r : List HostInput) (len : Nat) :
    (atInstruction s r).fetch len = s.fetch len := by
  unfold atInstruction; split <;> rfl
@[simp] theorem atInstruction_eval (s : State) (r : List HostInput) (p : StatePred) :
    p.eval (atInstruction s r) = p.eval s := by
  unfold atInstruction
  split
  · exact eval_bookkeeping s s.params r s.entered s.draws p
  · exact eval_bookkeeping s s.params r none (s.draws + 1) p
@[simp] theorem atInstruction_breakpointAt (s : State) (r : List HostInput) (a : Word) :
    (atInstruction s r).breakpointAt a = s.breakpointAt a := by
  simp [State.breakpointAt]
@[simp] theorem atInstruction_fetchExceptions (s : State) (r : List HostInput) :
    (atInstruction s r).fetchExceptions = s.fetchExceptions := by
  simp [State.fetchExceptions]
@[simp] theorem atInstruction_amApplies (s : State) (r : List HostInput) :
    (atInstruction s r).amApplies = s.amApplies := by
  simp [State.amApplies, State.debugExceptionsEnabled]

/-! ### What leaves the DBGVCR alone -/

theorem takeDebugRouted_dbgvcr (v : View) (moe : BitVec 4) (pra : Word) (s t : State)
    (h : takeDebugRouted v moe pra s = .next t) : t.ctl.dbgvcr.cur = s.ctl.dbgvcr.cur := by
  rcases takeDebugRouted_next _ _ _ _ _ h with ⟨_, rfl⟩ | ⟨_, rfl⟩ <;> simp

theorem hostException_dbgvcr (e : Entry) (len : Nat) (s t : State) (h : hostException e len s = .next t) :
    t.ctl.dbgvcr.cur = s.ctl.dbgvcr.cur := by
  obtain ⟨⟨pra, link, rfl⟩, -⟩ := hostException_next e len s t h
  simp

theorem restore_dbgvcr (exec : ExecState) (p : Psr) (target : DWord) (s t : State)
    (h : restore exec p target s = .next t) : t.ctl.dbgvcr.cur = s.ctl.dbgvcr.cur := by
  obtain ⟨rfl, -⟩ := restore_next _ _ _ _ _ h
  rfl

theorem hostWrites_dbgvcr (ws : List HostWrite) (s : State) : (ws.foldl applyWrite s).ctl.dbgvcr = s.ctl.dbgvcr := by
  induction ws generalizing s with
  | nil => rfl
  | cons w ws ih =>
    rw [List.foldl_cons, ih]
    exact (applyWrite_spec s w).2.2.2.2.2.2.2.2.2.2.2

end Sys2Proof.Machine
end

