-- ==== Sys2Proof/Laws/PerInstr.lean ====
section
/-! SUPPORT. Facts about every instruction as syntax, one lemma per constructor. -/

namespace Sys2Proof.Laws

/-- R57, R59, R60: every instruction of the opcode table is four bytes long. -/
def FourBytes.Statement (i : Instr) : Prop :=
  (encode i).length = 4

theorem FourBytes.mrcA32 (cond : Cond) (rt : Fin 16) : FourBytes.Statement (.mrcA32 cond rt) := bytesOfWord_length _ _
theorem FourBytes.mcrA32 (cond : Cond) (rt : Fin 16) : FourBytes.Statement (.mcrA32 cond rt) := bytesOfWord_length _ _
theorem FourBytes.mrcT32 (rt : Fin 16) : FourBytes.Statement (.mrcT32 rt) := bytesOfWord_length _ _
theorem FourBytes.mcrT32 (rt : Fin 16) : FourBytes.Statement (.mcrT32 rt) := bytesOfWord_length _ _
theorem FourBytes.mrsA64 (rt : Fin 32) : FourBytes.Statement (.mrsA64 rt) := bytesOfWord_length _ _
theorem FourBytes.msrA64 (rt : Fin 32) : FourBytes.Statement (.msrA64 rt) := bytesOfWord_length _ _

end Sys2Proof.Laws
end

