-- ==== Sys2Proof/Laws/WellFormed.lean ====
section
/-! SUPPORT. What keeps a state legal (`State.WF`): one lemma per operation a step is made of. -/

namespace Sys2Proof.Machine

/-- Clearing the low two bits of a doubleword changes nothing exactly on a multiple of four. -/
theorem mask4_eq64 (a : DWord) : a &&& 0xFFFFFFFFFFFFFFFC = a ↔ a.toNat % 4 = 0 := by
  have h0 : a.getLsbD 0 = decide (a.toNat % 2 = 1) := by simp [BitVec.getLsbD, Nat.testBit_zero]
  have h1 : a.getLsbD 1 = decide (a.toNat / 2 % 2 = 1) := by simp [BitVec.getLsbD, Nat.testBit_succ, Nat.testBit_zero]
  constructor
  · intro h
    have k0 := congrArg (fun w : DWord => w.getLsbD 0) h
    have k1 := congrArg (fun w : DWord => w.getLsbD 1) h
    simp only [BitVec.getLsbD_and, h0, h1] at k0 k1
    have e0 : (0xFFFFFFFFFFFFFFFC : DWord).getLsbD 0 = false := by decide
    have e1 : (0xFFFFFFFFFFFFFFFC : DWord).getLsbD 1 = false := by decide
    rw [e0, Bool.and_false] at k0
    rw [e1, Bool.and_false] at k1
    have k0' := of_decide_eq_false k0.symm
    have k1' := of_decide_eq_false k1.symm
    omega
  · intro h
    refine BitVec.eq_of_getLsbD_eq fun i hi => ?_
    rw [BitVec.getLsbD_and]
    by_cases hi0 : i = 0
    · subst hi0
      have : ¬ a.toNat % 2 = 1 := by omega
      simp only [h0, this, decide_false, Bool.false_and]
    · by_cases hi1 : i = 1
      · subst hi1
        have : ¬ a.toNat / 2 % 2 = 1 := by omega
        simp only [h1, this, decide_false, Bool.false_and]
      · have hmask : (0xFFFFFFFFFFFFFFFC : DWord).getLsbD i = true := by
          interval_cases i <;> first | contradiction | decide
        rw [hmask, Bool.and_true]

/-- Clearing the low bits an instruction set does not address changes nothing exactly on a multiple of its alignment. -/
theorem mask32 (a : Word) (t : Bool) :
    a &&& (if t then 0xFFFFFFFE else 0xFFFFFFFC) = a ↔ a.toNat % (if t then 2 else 4) = 0 := by
  have h0 : a.getLsbD 0 = decide (a.toNat % 2 = 1) := by simp [BitVec.getLsbD, Nat.testBit_zero]
  have h1 : a.getLsbD 1 = decide (a.toNat / 2 % 2 = 1) := by simp [BitVec.getLsbD, Nat.testBit_succ, Nat.testBit_zero]
  constructor
  · intro h
    have k0 := congrArg (fun w : Word => w.getLsbD 0) h
    have k1 := congrArg (fun w : Word => w.getLsbD 1) h
    simp only [BitVec.getLsbD_and, h0, h1] at k0 k1
    have e0 : (if t then (0xFFFFFFFE : Word) else 0xFFFFFFFC).getLsbD 0 = false := by cases t <;> decide
    rw [e0, Bool.and_false] at k0
    have k0' := of_decide_eq_false k0.symm
    cases t
    · have e1 : (0xFFFFFFFC : Word).getLsbD 1 = false := by decide
      simp only [Bool.false_eq_true, if_false] at k1 ⊢
      rw [e1, Bool.and_false] at k1
      have k1' := of_decide_eq_false k1.symm
      omega
    · simp only [if_true]; omega
  · intro h
    refine BitVec.eq_of_getLsbD_eq fun i hi => ?_
    rw [BitVec.getLsbD_and]
    by_cases hi0 : i = 0
    · subst hi0
      have : ¬ a.toNat % 2 = 1 := by cases t <;> simp only [Bool.false_eq_true, if_false, if_true] at h <;> omega
      simp only [h0, this, decide_false, Bool.false_and]
    · by_cases hi1 : i = 1 ∧ t = false
      · obtain ⟨rfl, rfl⟩ := hi1
        simp only [Bool.false_eq_true, if_false] at h
        have : ¬ a.toNat / 2 % 2 = 1 := by omega
        simp only [h1, this, decide_false, Bool.false_and]
      · have hmask : (if t then (0xFFFFFFFE : Word) else 0xFFFFFFFC).getLsbD i = true := by
          cases t <;> interval_cases i <;> first | contradiction | decide
        rw [hmask, Bool.and_true]

/-- An aligned pc as a number (R34, R45). -/
theorem pcAligned_iff (s : State) : s.pcAligned = true ↔
    match s.exec with
    | .aarch64 _ => s.pc.toNat % 4 = 0
    | .aarch32 => s.pc.toNat < 2 ^ 32 ∧ s.pc.toNat % (if s.cpsr.t then 2 else 4) = 0 := by
  simp only [State.pcAligned, beq_iff_eq]
  rcases he : s.exec with _ | el
  · simp only [alignPc]
    have hw : (s.pc.setWidth 32).toNat = s.pc.toNat % 2 ^ 32 := by simp
    constructor
    · intro h
      have h' := congrArg BitVec.toNat h
      rw [BitVec.toNat_setWidth] at h'
      have hlt : (BitVec.setWidth 32 s.pc &&& if s.cpsr.t = true then 4294967294#32 else 4294967292#32).toNat < 2^32 := BitVec.isLt _
      have hlt2 : s.pc.toNat < 2 ^ 32 := by
        have := Nat.mod_le (BitVec.setWidth 32 s.pc &&& if s.cpsr.t = true then 4294967294#32 else 4294967292#32).toNat (2^64)
        simp only [BitVec.ofNat_eq_ofNat] at h'
        omega
      refine ⟨hlt2, ?_⟩
      have key : s.pc.setWidth 32 &&& (if s.cpsr.t then 0xFFFFFFFE else 0xFFFFFFFC) = s.pc.setWidth 32 := by
        apply BitVec.eq_of_toNat_eq
        rw [hw]
        simp only [BitVec.ofNat_eq_ofNat] at h' ⊢
        omega
      have := (mask32 (s.pc.setWidth 32) s.cpsr.t).1 key
      rw [hw, Nat.mod_eq_of_lt hlt2] at this
      exact this
    · rintro ⟨hlt, hm⟩
      have key := (mask32 (s.pc.setWidth 32) s.cpsr.t).2 (by rw [hw, Nat.mod_eq_of_lt hlt]; exact hm)
      rw [key]
      apply BitVec.eq_of_toNat_eq
      simp only [BitVec.toNat_setWidth]
      omega
  · simp only [alignPc]
    rw [eq_comm]; exact mask4_eq64 s.pc

/-- The next instruction in sequence is aligned if this one is. -/
theorem advance_pcAligned (s : State) (n : Nat) (h : s.pcAligned = true) (hlen : n = 4 ∨ (n = 2 ∧ s.iset = .t32)) :
    (s.advance n).pcAligned = true := by
  rw [pcAligned_iff] at h ⊢
  simp only [advance_exec]
  rcases he : s.exec with _ | el
  · simp only [he] at h
    simp only [advance_pc, advance_cpsr_t, State.pcPlus, he, State.addr]
    obtain ⟨h1, h2⟩ := h
    have hx : (BitVec.setWidth 64 (BitVec.setWidth 32 s.pc + BitVec.ofNat 32 n)).toNat = (s.pc.toNat + n) % 2 ^ 32 := by
      simp only [BitVec.toNat_setWidth, BitVec.toNat_add, BitVec.toNat_ofNat]
      omega
    rw [hx]
    refine ⟨Nat.mod_lt _ (by decide), ?_⟩
    rcases hlen with rfl | ⟨rfl, ht⟩
    · split at h2 <;> simp_all <;> omega
    · simp only [State.iset, he] at ht
      split at ht
      · simp_all
      · cases ht
  · simp only [he] at h
    simp only [advance_pc, State.pcPlus, he]
    have hn : n = 4 := by
      rcases hlen with rfl | ⟨-, ht⟩
      · rfl
      · simp [State.iset, he] at ht
    subst hn
    simp only [BitVec.toNat_add, BitVec.toNat_ofNat]
    omega
/-- A masked address is word-aligned. -/
theorem mask_low (x : Word) : (x &&& 0xFFFFFFFC) &&& 3 = 0 := by
  rw [BitVec.and_assoc]; simp

/-- The base of a Local table is well-formed in both vector locations (R23). -/
theorem base_if (c : Bool) (w : Word) (h : baseAligned w = true) :
    baseAligned (if c then 0xFFFF0000 else w) = true := by
  cases c
  · exact h
  · simp [baseAligned]

/-- "Exception vectors are at word-aligned addresses" (R45). -/
theorem vectorAddr_aligned (s : State) (t : Table) (x : XType) (hb : s.basesAligned = true) (ht : t ≠ .hyp) :
    vectorAddr s.cfg s.ctl.current t x &&& 3 = 0 := by
  apply base_offset_aligned _ _ _ (offset_low x)
  simp only [State.basesAligned, Windowed.all, Bool.and_eq_true] at hb
  obtain ⟨⟨⟨h1, -⟩, ⟨h2, -⟩⟩, ⟨h3, -⟩⟩ := hb
  cases t <;> simp only [vectorBase, Controls.current, Banked.map, Banked.of]
  · exact base_if _ _ h1
  · apply base_if; split; exact h2; exact h1
  · apply base_if; split; exact h2; exact h1
  · exact h3
  · exact absurd rfl ht

/-- Every entry to an AArch32 mode goes to a word-aligned address. -/
theorem entryVector_aligned (s : State) (t : Table) (e : EType) (hb : s.basesAligned = true)
    (hh : baseAligned s.sys.hvbar = true) : entryVector s t e &&& 3 = 0 := by
  cases e <;> simp only [entryVector]
  · split
    · rename_i x h
      apply vectorAddr_aligned s t x hb
      rintro rfl; simp [enableBit] at h
    · exact mask_low _
  · exact mask_low _
  · split
    · exact base_offset_aligned _ _ hh (by decide)
    · exact mask_low _
  · exact mask_low _

/-- A context synchronisation event keeps the vector bases well-formed. -/
theorem basesAligned_sync (s t : State) (hc : t.ctl = s.ctl.sync) (hb : s.basesAligned = true) : t.basesAligned = true := by
  simp only [State.basesAligned, Bool.and_eq_true] at hb ⊢
  rw [hc]
  exact ⟨⟨Windowed.all_sync _ _ hb.1.1, Windowed.all_sync _ _ hb.1.2⟩, Windowed.all_sync _ _ hb.2⟩

/-- An entry to a context the implementation has gives a legal state. -/
theorem takeException_wf (e : Entry) (pra : DWord) (link : Word) (s : State)
   (hl : s.cfg.listed = true) (hf : s.levelsFit = true) (hb : s.basesAligned = true) (hh : baseAligned s.sys.hvbar = true)
   (hm : Memory.wf s.mem = true) (hc : (takeException e pra link s).legalContext = true) :
   (takeException e pra link s).WF = true := by
  have h1 : (takeException e pra link s).levelsFit = true := by simpa [State.levelsFit] using hf
  have h2 := basesAligned_sync s (takeException e pra link s) (takeException_ctl ..) hb
  have hp : (takeException e pra link s).pcAligned = true ∧ (takeException e pra link s).enteredFits = true := by
    obtain ⟨et, tgt⟩ := e
    rcases takeException_cases ⟨et, tgt⟩ pra link s with ⟨ss, ht, h⟩ | ⟨m, ss, hm, ht, h⟩ | ⟨el, ht, h⟩ <;>
      simp only at ht <;> subst ht <;> rw [h]
    · constructor
      · simp only [State.pcAligned, enterHyp_pc, enterHyp_exec, beq_iff_eq]
        rw [alignPc_word _ _ _ (entryVector_aligned s _ _ hb hh) rfl]
      · simp only [State.enteredFits, enterHyp_entered, State.synced, enterHyp_ctl, Controls.sync_sync, beq_self_eq_true, enterHyp_exec, enterHyp_cpsr, enterHyp_ss, enterHyp_cfg, targetTable, Bool.true_and, freeMasks]
        cases et <;> simp [enableBit]
    · constructor
      · simp only [State.pcAligned, enterMode_pc, enterMode_exec, beq_iff_eq]
        rw [alignPc_word _ _ _ (entryVector_aligned s _ _ hb hh) rfl]
      · simp only [State.enteredFits, enterMode_entered, State.synced, enterMode_ctl, Controls.sync_sync, beq_self_eq_true, enterMode_exec, enterMode_cpsr, enterMode_ss, enterMode_cfg, Bool.true_and, Controls.current_sync]
        cases et with
        | x x =>
          cases hb : enableBit (targetTable s.cfg m ss) x with
          | none => simp only [hb]
          | some b => simp [hb, State.addr, enterMode_pc, entryVector]
        | _ => rfl
    · constructor
      · simp only [State.pcAligned, enterA64_pc, enterA64_exec, beq_iff_eq, alignPc, BitVec.and_assoc, BitVec.and_self]
      · simp [State.enteredFits, State.synced]
  simp only [State.WF, Bool.and_eq_true, takeException_cfg, takeException_sys, takeException_mem]
  exact ⟨⟨⟨⟨⟨⟨⟨hl, h1⟩, hc⟩, h2⟩, hh⟩, hp.1⟩, hm⟩, hp.2⟩

/-- The parts of a legal state. -/
theorem wf_parts (s : State) : s.WF = true ↔ s.cfg.listed = true ∧ s.levelsFit = true ∧ s.legalContext = true ∧
   s.basesAligned = true ∧ baseAligned s.sys.hvbar = true ∧ s.pcAligned = true ∧ Memory.wf s.mem = true ∧ s.enteredFits = true := by
  simp only [State.WF, Bool.and_eq_true, and_assoc]

/-- The syndrome of a host exception changes nothing but the syndrome registers. -/
theorem hostSyndrome_all (e : Entry) (s : State) : ∃ y, hostSyndrome e s = { s with syn := y } := by
  unfold hostSyndrome; repeat' split
  all_goals exact ⟨_, rfl⟩

/-- When an entry to a mode is to a context the implementation has. -/
theorem legal_enterMode_iff (m ss e l s) : (enterMode m ss e l s).legalContext = true ↔
   match m with
    | .user => s.el0is32 = true
    | .hyp => hypExists s.cfg ss = true
    | .monitor => s.cfg.el3 = .a32 ∧ ss = .secure
    | _ => s.el1is32 = true ∨ (s.cfg.el3 = .a32 ∧ ss = .secure) := by
  unfold State.legalContext
  simp only [enterMode_exec, enterMode_cpsr, enterMode_el0is32, enterMode_el1is32, enterMode_cfg, enterMode_ss]
  cases m <;> simp

/-- The Undefined Instruction exception goes to a context the implementation has. -/
theorem raiseUndefined_legal (s : State) : (raiseUndefined s).legalContext = true := by
  unfold raiseUndefined undefEntry
  split
  · rename_i h
    simp only [Bool.and_eq_true] at h
    simp only [takeException, State.legalContext, hostSyndrome, enterA64]
    simp only [Bool.and_eq_true]
    exact h.1
  · split
    · rename_i h
      simp only [takeException, State.legalContext, enterA64_exec, enterA64_el1is32, hostSyndrome]
      exact h
    · rename_i h
      split
      · rename_i h2
        simp only [Bool.and_eq_true] at h2
        simpa [takeException, State.legalContext, hostSyndrome, freeMasks] using h2.1
      · have : s.el1is32 = true := by simpa using h
        simp [takeException, State.legalContext, hostSyndrome, this]

theorem levelsFit_congr (s t : State) (h1 : s.cfg = t.cfg) (h2 : s.el1is32 = t.el1is32) (h3 : s.el0is32 = t.el0is32) :
    s.levelsFit = t.levelsFit := by
  simp only [State.levelsFit, h1, h2, h3]

theorem basesAligned_congr (s t : State) (h : s.ctl = t.ctl) : s.basesAligned = t.basesAligned := by
  simp only [State.basesAligned, h]

/-- The Undefined Instruction exception keeps a state legal. -/
theorem raiseUndefined_wf (s : State) (h : s.WF = true) : (raiseUndefined s).WF = true := by
  have hl := raiseUndefined_legal s
  obtain ⟨h1, h2, h3, h4, h5, h6, h7, h8⟩ := (wf_parts s).1 h
  unfold raiseUndefined at hl ⊢
  refine takeException_wf _ _ _ _ ?_ ?_ ?_ ?_ ?_ hl
  · simpa using h1
  · rw [levelsFit_congr _ s] <;> simp [h2]
  · rw [basesAligned_congr _ s] <;> simp [h4]
  · simpa using h5
  · simpa using h7

/-- A debug exception from an AArch32 regime, not from Hyp mode, keeps a state legal. -/
theorem takeDebug_wf (v : View) (moe pra) (s t : State) (h : s.WF = true) (hr : s.usingAArch32Regime = true) (hm : s.cpsr.m ≠ .hyp)
   (ht : takeDebugRouted v moe pra s = .next t) : t.WF = true := by
  obtain ⟨h1, h2, h3, h4, h5, h6, h7, h8⟩ := (wf_parts s).1 h
  rcases takeDebugRouted_next v moe pra s t ht with ⟨hrt, rfl⟩ | ⟨hrt, rfl⟩
  · refine takeException_wf (hypEntry s) (pra.setWidth 64) 0 (hypSyndrome moe s) ?_ ?_ ?_ ?_ ?_ ?_
    · exact h1
    · exact h2
    · exact h4
    · exact h5
    · exact h7
    · simp only [routeToHyp, Bool.and_eq_true] at hrt
      simpa [takeException, hypEntry, State.legalContext, freeMasks] using hrt.1.1
  · refine takeException_wf (abortEntry s) (pra.setWidth 64) (pra+4) (abortSyndrome moe s) ?_ ?_ ?_ ?_ ?_ ?_
    · exact h1
    · exact h2
    · exact h4
    · exact h5
    · exact h7
    · simp only [takeException, abortEntry]
      rw [legal_enterMode_iff]
      simp only [abortSyndrome_el1is32, abortSyndrome_cfg]
      simp only [State.usingAArch32Regime, Bool.and_eq_true, Bool.or_eq_true, beq_iff_eq, bne_iff_ne] at hr
      obtain ⟨he, hr⟩ := hr
      simp only [State.legalContext, he] at h3
      simp only [State.el, he] at hr
      rcases hmm : s.cpsr.m with _ | _ | _ | _ | _ | _ | _ | _ | _ <;> simp_all [modeEL]


/-- Going on to the next instruction keeps a state legal. -/
theorem advance_wf (s : State) (n : Nat) (h : s.WF = true) (hn : s.entered = none) (hlen : n = 4 ∨ (n = 2 ∧ s.iset = .t32)) :
   (s.advance n).WF = true := by
  obtain ⟨h1, h2, h3, h4, h5, h6, h7, h8⟩ := (wf_parts s).1 h
  rw [wf_parts]
  refine ⟨by simpa, ?_, ?_, ?_, by simpa, advance_pcAligned s n h6 hlen, by simpa, by simp [State.enteredFits, hn]⟩
  · rw [levelsFit_congr _ s] <;> simp [h2]
  · unfold State.advance State.moveIt
    split
    · exact h3
    · exact h3
  · rw [basesAligned_congr _ s] <;> simp [h4]

/-- An instruction is four bytes long, or two in T32 (R57, R58). -/
theorem instrLength_cases (s : State) : s.instrLength = 4 ∨ (s.instrLength = 2 ∧ s.iset = .t32) := by
  unfold State.instrLength
  cases hs : s.iset with
  | t32 => cases t32IsWide (s.fetchByte 1 ++ s.fetchByte 0) <;> simp
  | _ => exact .inl rfl

/-- A legal state changed only where the change is legal stays legal. -/
theorem wf_congr (s t : State) (h : s.WF = true) (hn : t.entered = none) (h1 : t.cfg = s.cfg) (h2 : t.el1is32 = s.el1is32)
   (h3 : t.el0is32 = s.el0is32) (h4 : t.legalContext = true) (h5 : t.basesAligned = true) (h6 : baseAligned t.sys.hvbar = true)
   (h7 : t.pc = s.pc) (h8 : t.exec = s.exec) (h9 : t.cpsr.t = s.cpsr.t) (h10 : Memory.wf t.mem = true) : t.WF = true := by
  obtain ⟨g1, g2, g3, g4, g5, g6, g7, g8⟩ := (wf_parts s).1 h
  rw [wf_parts]
  refine ⟨by rw [h1]; exact g1, by rw [levelsFit_congr t s h1 h2 h3]; exact g2, h4, h5, h6, ?_, h10, by simp [State.enteredFits, hn]⟩
  simpa [State.pcAligned, h7, h8, h9] using g6

/-- Every instruction of the opcode table keeps a state legal. -/
theorem exec_wf (i : Instr) (s t : State) (h : s.WF = true) (hn : s.entered = none) (he : exec i s = .next t) : t.WF = true := by
  obtain ⟨h1, h2, h3, h4, h5, h6, h7, h8⟩ := (wf_parts s).1 h
  rcases exec_next i s t he with rfl | rfl | ⟨k, v, rfl⟩ | ⟨k, v, rfl⟩ | ⟨-, w, rfl⟩
  · exact advance_wf s 4 h hn (.inl rfl)
  · exact raiseUndefined_wf s h
  · exact advance_wf _ 4 (wf_congr s _ h hn rfl rfl rfl h3 h4 h5 rfl rfl rfl h7) hn (.inl rfl)
  · refine advance_wf _ 4 (wf_congr s _ h ?_ ?_ ?_ ?_ ?_ ?_ ?_ ?_ ?_ ?_ ?_) ?_ (.inl rfl) <;> first | simp [hn]; done | skip
    · simpa [State.legalContext]  using h3
    · rw [basesAligned_congr _ s] <;> simp [h4]
    · simpa using h5
    · simpa using h7
  · refine advance_wf _ 4 (wf_congr s _ h hn rfl rfl rfl h3 ?_ h5 rfl rfl rfl h7) hn (.inl rfl)
    simpa [State.basesAligned] using h4

/-- Every exception of the host PE keeps a state legal. -/
theorem hostException_wf (e : Entry) (len : Nat) (s t : State) (h : s.WF = true) (he : hostException e len s = .next t) : t.WF = true := by
  obtain ⟨h1, h2, h3, h4, h5, h6, h7, h8⟩ := (wf_parts s).1 h
  obtain ⟨⟨pra, link, rfl⟩, -, hl, -⟩ := hostException_next e len s t he
  refine takeException_wf _ _ _ _ ?_ ?_ ?_ ?_ ?_ hl
  · simpa using h1
  · rw [levelsFit_congr _ s] <;> simp [h2]
  · rw [basesAligned_congr _ s] <;> simp [h4]
  · simpa using h5
  · simpa using h7

/-- An aligned address is aligned. -/
theorem alignPc_idem (e : ExecState) (t : Bool) (a : DWord) : alignPc e t (alignPc e t a) = alignPc e t a := by
  cases e with
  | aarch64 el => simp [alignPc, BitVec.and_assoc]
  | aarch32 =>
    simp only [alignPc]
    rw [show ∀ x : Word, (x.setWidth 64).setWidth 32 = x by intro x; simp, BitVec.and_assoc, BitVec.and_self]

/-- A return from an exception keeps a state legal. -/
theorem restore_wf (exec : ExecState) (p : Psr) (target : DWord) (s t : State) (h : s.WF = true) (hn : s.entered = none)
   (he : restore exec p target s = .next t) : t.WF = true := by
  obtain ⟨h1, h2, h3, h4, h5, h6, h7, h8⟩ := (wf_parts s).1 h
  obtain ⟨rfl, hl, -⟩ := restore_next _ _ _ _ _ he
  rw [wf_parts]
  refine ⟨h1, by rw [levelsFit_congr _ s] <;> first | exact h2 | rfl, hl, basesAligned_sync s _ rfl h4, h5, ?_, h7, by simp [State.enteredFits, restored, hn]⟩
  simp [State.pcAligned, restored, alignPc_idem]

/-- What the writes of an instruction outside the opcode table keep. -/
theorem writes_keep (ws : List HostWrite) (s : State) (hb : s.basesAligned = true) (hh : baseAligned s.sys.hvbar = true)
    (hm : Memory.wf s.mem = true) :
    let t := ws.foldl applyWrite s
    t.basesAligned = true ∧ baseAligned t.sys.hvbar = true ∧ Memory.wf t.mem = true ∧
    t.cfg = s.cfg ∧ t.el1is32 = s.el1is32 ∧ t.el0is32 = s.el0is32 ∧ t.exec = s.exec ∧ t.ss = s.ss ∧ t.pc = s.pc ∧
    t.cpsr.t = s.cpsr.t ∧ t.syn = s.syn ∧ t.params = s.params ∧ t.inputs = s.inputs ∧ t.entered = s.entered ∧
    t.ctl.dbgvcr = s.ctl.dbgvcr := by
  induction ws generalizing s with
  | nil => simp [hb, hh, hm]
  | cons w ws ih =>
    obtain ⟨k1, k2, k3⟩ := applyWrite_keeps s w hb hh hm
    have := ih (applyWrite s w) k1 k2 k3
    obtain ⟨e1, e2, e3, e4, e5, e6, e7, e8, e9, e10, e11, e12⟩ := applyWrite_spec s w
    simp only [List.foldl_cons]
    simp only [e1, e2, e3, e4, e5, e6, e7, e8, e9, e10, e11, e12] at this
    exact this

/-- A move of the pc past an instruction keeps a state legal. -/
theorem movePc_wf (s : State) (len : Nat) (h : s.WF = true) (hn : s.entered = none)
    (hlen : len = 4 ∨ (len = 2 ∧ s.iset = .t32)) : (s.movePc len).WF = true := by
  have := advance_wf s len h hn hlen
  obtain ⟨x, hx⟩ := moveIt_eq (s.movePc len)
  rw [State.advance, hx] at this
  exact this

/-- Every instruction outside the opcode table keeps a state legal. -/
theorem hostRun_wf (eff : HostEffect) (len : Nat) (s t : State) (h : s.WF = true) (hn : s.entered = none)
   (hlen : len = 4 ∨ (len = 2 ∧ s.iset = .t32)) (he : hostRun eff len s = .next t) : t.WF = true := by
  obtain ⟨u, hu, hul, hel, hf⟩ := hostRun_next eff len s t he
  obtain ⟨x, hx⟩ := eff.start_eq s
  rw [hx] at hu
  generalize hs : ({ s with cpsr := { s.cpsr with it := x } } : State) = s' at hu
  replace h : s'.WF = true := by rw [← hs]; exact h
  replace hn : s'.entered = none := by rw [← hs]; exact hn
  replace hlen : len = 4 ∨ (len = 2 ∧ s'.iset = .t32) := by rw [← hs]; exact hlen
  obtain ⟨h1, h2, h3, h4, h5, h6, h7, h8⟩ := (wf_parts s').1 h
  obtain ⟨k1, k2, k3, k4, k5, k6, k7, k8, k9, k10, k11, k12, k13, k14, k15⟩ := writes_keep eff.writes s' h4 h5 h7
  rw [← hu] at k1 k2 k3 k4 k5 k6 k7 k8 k9 k10 k11 k12 k13 k14 k15
  have hw : u.WF = true := wf_congr s' u h (by rw [k14]; exact hn) k4 k5 k6 hul k1 k2 k9 k7 k10 k3
  have hun : u.entered = none := by rw [k14]; exact hn
  have hset : u.iset = s'.iset := by simp [State.iset, k7, k10]
  rw [← hset] at hlen
  unfold hostFlow at hf
  split at hf
  · cases hf; exact movePc_wf u len hw hun hlen
  · cases hf
    refine movePc_wf u.sync len (wf_congr u _ hw hun rfl rfl rfl hul ?_ k2 rfl rfl rfl k3) hun hlen
    exact basesAligned_sync u _ rfl k1
  · cases hf
    obtain ⟨g1, g2, g3, g4, g5, g6, g7, g8⟩ := (wf_parts u).1 hw
    rw [wf_parts]
    refine ⟨by simpa, by rw [levelsFit_congr _ u] <;> simp [g2], ?_, by rw [basesAligned_congr _ u] <;> simp [g4], by simpa, ?_, by simpa, by simp [State.enteredFits, hun]⟩
    · unfold branchTo; split <;> exact hul
    · unfold branchTo; split
      · rename_i e; simp only [State.pcAligned, e, beq_iff_eq, alignPc, BitVec.and_assoc, BitVec.and_self]
      · rename_i e; simp [State.pcAligned, e, alignPc_idem]
  · exact hostException_wf _ _ _ _ hw hf
  · obtain ⟨p, target, -, hr⟩ := returnSubs_next _ _ _ hf
    exact restore_wf _ _ _ _ _ hw hun hr
  · obtain ⟨ex, p, target, hr⟩ := returnEret_next _ _ hf
    exact restore_wf _ _ _ _ _ hw hun hr

/-- `AM_Check` finds something only in an AArch32 regime and not in Hyp mode (R4, R97). -/
theorem amCheck_not_noVC (c v s a len t) (h : amCheck c v s a len t ≠ .noVC) : s.usingAArch32Regime = true ∧ s.cpsr.m ≠ .hyp := by
  unfold amCheck at h
  by_cases hh : s.amApplies = true
  · simp only [State.amApplies, Bool.and_eq_true, bne_iff_ne] at hh
    exact ⟨hh.1.1.2, hh.1.2⟩
  · simp [hh] at h

/-- A debug exception is taken only in an AArch32 regime and not from Hyp mode. -/
theorem checkCommit_debug (s : State) (len : Nat) (h : s.checkCommit len = .vectorCatch ∨ s.checkCommit len = .breakpoint) :
   s.usingAArch32Regime = true ∧ s.cpsr.m ≠ .hyp := by
  by_cases hb : s.breakpointAt s.addr = true
  · simp only [State.breakpointAt, Bool.and_eq_true, bne_iff_ne] at hb
    exact ⟨hb.1.1, hb.1.2⟩
  · by_cases hv : amCheck (amChoices s.draws) s.view s s.addr len s.cpsr.t = .noVC
    · exfalso
      unfold State.checkCommit at h
      simp only [hv, hb, debugOutcome] at h
      cases hf : highestFetch s.cfg.fetchPriority s.fetchExceptions <;> simp [commitOutcome, hf] at h
    · exact amCheck_not_noVC _ _ _ _ _ _ hv

/-- Drawing free values keeps a state well-formed. -/
theorem tick_wf (s : State) (h : s.WF = true) : s.tick.WF = true := h

/-- `ET_Check` finds a vector only in an AArch32 regime and not in Hyp mode (R4, R110). -/
theorem et_facts (ig v s e a) (h : s.WF = true) (he : s.entered = some e) (hv : etCheck ig v s e = some a) :
   s.usingAArch32Regime = true ∧ s.cpsr.m ≠ .hyp := by
  unfold etCheck at hv
  by_cases hh : s.etApplies = true
  · simp only [hh] at hv
    simp only [State.etApplies, Bool.and_eq_true] at hh
    refine ⟨hh.1.2, ?_⟩
    simp only [Bool.not_true, Bool.false_eq_true, if_false] at hv
    split at hv
    · cases hv
    · have hf := ((wf_parts s).1 h).2.2.2.2.2.2.2
      obtain ⟨et, tgt⟩ := e
      simp only [etVector, etTable] at hv
      cases tgt with
      | aarch64 el => simp at hv
      | mode m ss =>
        simp only [State.enteredFits, he, Bool.and_eq_true, beq_iff_eq] at hf
        rw [hf.1.1.2]
        rintro rfl
        cases et <;> simp [targetTable, enableBit] at hv
  · simp [hh] at hv

end Sys2Proof.Machine
end

