-- ==== Sys2Proof/Tests/Slice0.lean ====
section
/-! SUPPORT. Tests. Expected results are the spec's: the encodings of rules R59 to R61 written out bit by bit, and the
vectors of 95_test_vectors.md (ES, AM, ET, TV, RH; P programs). Then one witness for the hypotheses of each statement. -/

namespace Sys2Proof.Tests

open Sys2Proof Sys2Proof.Machine

/-! ### Small states -/

def config (form : VCForm) (el2 el3 : LevelCfg) : Config :=
  { form := form, el2 := el2, el3 := el3, fetchPriority := Config.recalledPriority }

/-- A DBGVCR with a list of bits set. -/
def bits (l : List EnableBit) : Dbgvcr :=
  let d := fun b => l.contains b
  { sf := d .sf, si := d .si, sd := d .sd, sp := d .sp, ss := d .ss, su := d .su
    nsf := d .nsf, nsi := d .nsi, nsd := d .nsd, nsp := d .nsp, nss := d .nss, nsu := d .nsu
    mf := d .mf, mi := d .mi, md := d .md, mp := d .mp, ms := d .ms }

/-- A PE in AArch32, A32, all writes visible, debug exceptions enabled in its Security state, pc at `a`: VBAR `0x8000`
(Secure, or the only one) and `0x2000_0000` (Non-secure), MVBAR `0x3000_0000`, HVBAR `0x40000`. -/
def pe (cfg : Config) (m : Mode) (ss : SecurityState) (a : Word) (l : List EnableBit) : State :=
  { State.reset with
    cfg := cfg
    exec := .aarch32
    ss := ss
    pc := a.setWidth 64
    cpsr := { Psr.reset with m := m }
    ctl := { State.reset.ctl with
      dbgvcr := ⟨bits l, []⟩, vbar := ⟨⟨0x8000, []⟩, ⟨0x20000000, []⟩⟩, mvbar := ⟨0x30000000, []⟩ }
    sys := { State.reset.sys with hvbar := 0x40000 }
    params := { Parameters.quiet with debugEnabled := .and (.exec .aarch32) (.security ss) } }

/-- Without EL2 and EL3, in Supervisor mode: the common configuration of 95_test_vectors.md 2.2. -/
def am (a : Word) (l : List EnableBit) : State := pe (config .addressMatching .absent .absent) .supervisor .secure a l

/-- The same in the exception-trapping form (2.3). -/
def et (a : Word) (l : List EnableBit) : State :=
  pe (config .exceptionTrapping .absent .absent) .supervisor .secure a l

/-- A state in T32. -/
def t32 (s : State) : State := { s with cpsr := { s.cpsr with t := true } }

/-- EL3 using AArch64, Secure, with a DBGVCR. -/
def el3 (l : List EnableBit) : State :=
  { State.reset with
    ctl := { State.reset.ctl with dbgvcr := ⟨bits l, []⟩ } }

/-- An A32 word stored at the pc of an AArch32 state. -/
def code (s : State) (w : Word) : State := { s with mem := s.storeAtPc 0 (bytesOfWord .a32 w) }

/-- `choose` outcomes. -/
def always : AMChoices := ⟨true, false, false⟩
def ignoring : AMChoices := ⟨false, true, false⟩

/-- Whether an outcome is a next state with a property. -/
def nextHas (o : Host.Outcome State Fault Refusal) (p : State → Bool) : Bool :=
  match o with
  | .next t => p t
  | .fault _ => false
  | .refused _ => false

theorem next_exists {o : Host.Outcome State Fault Refusal} {p : State → Bool} (h : nextHas o p = true) :
    ∃ t, o = .next t ∧ p t = true := by
  cases o with
  | next t => exact ⟨t, rfl, h⟩
  | fault _ => cases h
  | refused _ => cases h

/-! ### Decoding: words written out from R59, R60 -/

-- R59: cond 1110, 1110, opc1 000, L 0, CRn 0000, Rt 0000, coproc 1110, opc2 000, 1, CRm 0111
theorem test_decode_mcr_a32 :
    decodeWord .a32 (0b1110#4 ++ 0b1110#4 ++ 0b000#3 ++ 0b0#1 ++ 0b0000#4 ++ 0b0000#4 ++ 0b1110#4 ++ 0b000#3 ++ 0b1#1 ++
      0b0111#4) = .ok (.mcrA32 .al 0) := by decide

-- R59, ES15: cond 0001 (NE), L 1, Rt 1101
theorem test_decode_mrc_a32 :
    decodeWord .a32 (0b0001#4 ++ 0b1110#4 ++ 0b000#3 ++ 0b1#1 ++ 0b0000#4 ++ 0b1101#4 ++ 0b1110#4 ++ 0b000#3 ++ 0b1#1 ++
      0b0111#4) = .ok (.mrcA32 .ne 13) := by decide

-- R59: the first halfword 1110 1110 0001 0000, the second 1110 1110 0001 0111, each little-endian
theorem test_decode_mrc_t32 :
    decode .t32 [0b00010000, 0b11101110, 0b00010111, 0b11101110] = .ok (.mrcT32 14, []) := by decide

theorem test_decode_mcr_t32 :
    decode .t32 [0b00000000, 0b11101110, 0b00010111, 0b01011110] = .ok (.mcrT32 5, []) := by decide

-- R60: 1101010100, L 1, 1, o0 0, op1 100, CRn 0000, CRm 0111, op2 000, Rt 11111
theorem test_decode_mrs_a64 :
    decodeWord .a64 (0b1101010100#10 ++ 0b1#1 ++ 0b1#1 ++ 0b0#1 ++ 0b100#3 ++ 0b0000#4 ++ 0b0111#4 ++ 0b000#3 ++
      0b11111#5) = .ok (.mrsA64 31) := by decide

theorem test_decode_msr_a64 :
    decodeWord .a64 (0b1101010100#10 ++ 0b0#1 ++ 0b1#1 ++ 0b0#1 ++ 0b100#3 ++ 0b0000#4 ++ 0b0111#4 ++ 0b000#3 ++
      0b10000#5) = .ok (.msrA64 16) := by decide

-- R58: a 16-bit T32 instruction (0xBF00) is outside the table, however few bytes follow
theorem test_decode_narrow_t32 : decode .t32 [0x00, 0xBF] = .error .outsideTable := by decide
theorem test_decode_truncated : decode .a32 [0x17, 0x0E, 0x00] = .error .truncated := by decide
-- R61: `MOV r0, #4` is outside the table
theorem test_decode_other : decode .a32 [0x04, 0x00, 0xA0, 0xE3] = .error .outsideTable := by decide

/-! ### Well-formedness (R63, D22) -/

theorem test_wf_mrcA32_rt15 : (Instr.mrcA32 .al 15).wellFormed = false := by decide
theorem test_wf_mcrA32_rt15 : (Instr.mcrA32 .eq 15).wellFormed = false := by decide
theorem test_wf_mrcT32_rt15 : (Instr.mrcT32 15).wellFormed = false := by decide
theorem test_wf_mcrT32_rt15 : (Instr.mcrT32 15).wellFormed = false := by decide
theorem test_wf_xzr : (Instr.mrsA64 31).wellFormed = true ∧ (Instr.msrA64 31).wellFormed = true := by decide

/-! ### The enabled vector catch set (95_test_vectors.md 2.1) -/

-- ES1
theorem test_es1 : enabledSet (am 0 [.ss, .sf]).cfg (am 0 [.ss, .sf]).ctl.current =
    [⟨.sf, .localTable, .fiq, 0x801C⟩, ⟨.ss, .localTable, .svc, 0x8008⟩] := by decide

-- ES2
theorem test_es2 : (enabledSet (am 0 []).cfg
    { (am 0 [.ss, .sf]).ctl.current with high := ⟨true, false⟩ }).map (·.addr) = [0xFFFF001C, 0xFFFF0008] := by decide

-- ES3
theorem test_es3 : (enabledSet (am 0 []).cfg (am 0 allBits).ctl.current).map (·.addr) =
    [0x801C, 0x8018, 0x8010, 0x800C, 0x8008, 0x8004] := by decide

-- ES4
theorem test_es4 : (enabledSet (config .addressMatching .absent .a32)
    { (am 0 [.sd, .nsd, .md, .ms]).ctl.current with high := ⟨false, true⟩ }).map (fun e => (e.bit, e.addr)) =
    [(.sd, 0x8010), (.nsd, 0xFFFF0010), (.md, 0x30000010), (.ms, 0x30000008)] := by decide

/-! ### The register-access instructions -/

-- ES9: 0xEE101E17
theorem test_es9_mrc_a32 : nextHas (execMrcA32 .al 1 (am 0x100 [.ss, .sf])) fun t =>
    t.gpr[1] == 0x84 && t.pc == 0x104 && t.gpr[0] == 0 := by decide

-- ES13
theorem test_es13_mrc_t32 : nextHas (execMrcT32 2 (t32 (pe (config .addressMatching .absent .a32) .supervisor .secure 0
    [.sd, .nsd, .md, .ms]))) fun t => t.gpr[2] == 0x10001410 := by decide

-- ES10
theorem test_es10_mcr_a32 : nextHas (execMcrA32 .al 0 ((am 0 []).writeGpr 0 0xFFFFFFFF)) fun t =>
    t.ctl.dbgvcr.cur == bits [.su, .ss, .sp, .sd, .si, .sf] && pack t.cfg t.ctl.dbgvcr.cur == 0xDE := by decide

-- ES15: the condition fails
theorem test_es15_mcr_a32 : nextHas (execMcrA32 .ne 0 { (am 0x40 []).writeGpr 0 4 with
    cpsr := { Psr.reset with z := true } }) fun t => t.ctl.dbgvcr.cur == bits [] && t.pc == 0x44 := by decide

-- ES12
theorem test_es12_mcr_t32 : nextHas (execMcrT32 0 (t32 ((pe (config .addressMatching .absent .a32) .monitor .secure 0
    []).writeGpr 0 0xFFFFFFFF))) fun t => pack t.cfg t.ctl.dbgvcr.cur == 0xDE00DCDE := by decide

-- ES14: User mode
theorem test_es14_mcr_t32 : nextHas (execMcrT32 0 (t32 (pe (config .addressMatching .absent .absent) .user .secure 0x40
    [.ss]))) fun t => t.cpsr.m == .undefined && t.pc == 0x8004 && t.ctl.dbgvcr.cur == bits [.ss] := by decide

-- ES16: 0xD5340703
theorem test_es16_mrs_a64 : nextHas (execMrsA64 3 (el3 [.ss, .sf])) fun t => t.xreg[3] == 0x84 && t.pc == 4 := by decide

-- R78: `xzr` discards the result
theorem test_mrs_a64_xzr : nextHas (execMrsA64 31 (el3 [.ss])) fun t => t.xreg == State.reset.xreg && t.pc == 4 := by
  decide

-- ES17
theorem test_es17_msr_a64 : nextHas (execMsrA64 0 { el3 [] with xreg := (el3 []).xreg.set 0 0xFFFFFFFFFFFFFFFF }) fun t =>
    pack t.cfg t.ctl.dbgvcr.cur == 0xDE0000DE := by decide

-- R79: `xzr` writes zero
theorem test_msr_a64_xzr : nextHas (execMsrA64 31 (el3 [.ss, .nsf])) fun t => t.ctl.dbgvcr.cur == bits [] := by decide

/-! ### The address-matching form (95_test_vectors.md 2.2) -/

def amResult (s : State) (c : AMChoices) (len : Nat) (isT32 : Bool) : AMResult :=
  amCheck c s.ctl.current s s.addr len isT32

-- AM1, AM2
theorem test_am1_am2 : amResult (am 0x8008 [.ss]) ignoring 4 false = .vc 0x8008 ∧
    amResult (am 0x800C [.ss]) always 4 false = .noVC := by decide

-- AM5, AM6
theorem test_am5_am6 : amResult (am 0x8006 [.ss]) always 4 true = .vc 0x8006 ∧
    amResult (am 0x8006 [.ss]) ignoring 4 true = .noVC ∧ amResult (am 0x8006 [.ss]) always 2 true = .noVC := by decide

-- AM8
theorem test_am8 : amResult (am 0x800A [.ss]) always 2 true = .noVC ∧ amResult (am 0x800A [.ss]) always 4 true = .noVC := by
  decide

-- AM16, AM17
theorem test_am16_am17 : amResult (am 0x800C [.sp]) ignoring 4 false = .noVC ∧
    amResult (am 0x800C [.sp]) always 4 false = .vc 0x800C ∧
    amResult (pe (am 0 []).cfg .user .secure 0x800C [.sp]) ignoring 4 false = .vc 0x800C := by decide

-- AM20: EL1 using AArch64
theorem test_am20 : amResult { pe (am 0 []).cfg .user .secure 0x8008 [.ss] with el1is32 := false } always 4 false =
    .noVC := by decide

-- AM24 to AM27
theorem test_am24_am27 :
    let s := fun ss a => amResult (pe (config .addressMatching .absent .a32) .supervisor ss a [.ss, .nss, .ms]) always 4 false
    s .secure 0x30000008 = .vc 0x30000008 ∧ s .secure 0x20000008 = .noVC ∧ s .nonSecure 0x20000008 = .vc 0x20000008 ∧
      s .nonSecure 0x30000008 = .noVC := by decide

-- P2: at the IRQ vector, with an effect due for the instruction there: not executed, taken to Abort mode
theorem test_p2_step : nextHas (step { code (am 0x8018 [.si]) 0xE5832000 with
    inputs := [.instruction ⟨[.byte 0x20000 0xEF], .next⟩] }) fun t =>
    t.cpsr.m == .abort && t.pc == 0x800C && t.gpr[27] == 0x801C && Memory.read t.mem 0x20000 == Memory.unwritten &&
      t.syn.moe == 0b0101 && t.syn.ifsrFs.s == 0b00010 := by decide

/-! ### The exception-trapping form (95_test_vectors.md 2.3) -/

def svc (ss : SecurityState) : Entry := ⟨.x .svc, .mode .supervisor ss⟩

-- ET1, ET2
theorem test_et1_et2 : etCheck false (et 0x8008 [.ss]).ctl.current (et 0x8008 [.ss]) (svc .secure) = some 0x8008 ∧
    etCheck false (et 0x8018 [.ss]).ctl.current (et 0x8018 [.ss]) ⟨.x .irq, .mode .irq .secure⟩ = none := by decide

-- ET11, ET13
theorem test_et11_et13 :
    let s := fun l => pe (config .exceptionTrapping .absent .a32) .monitor .secure 0x30000008 l
    etCheck true (s [.ms]).ctl.current (s [.ms]) ⟨.x .smc, .mode .monitor .secure⟩ = some 0x30000008 ∧
      etCheck true (s [.sf, .nsf]).ctl.current (s [.sf, .nsf]) ⟨.x .fiq, .mode .monitor .secure⟩ = none := by decide

-- ET16
theorem test_et16 :
    let s := pe (config .exceptionTrapping .absent .a64) .supervisor .nonSecure 0x8008 [.ss]
    etCheck false s.ctl.current s (svc .nonSecure) = none := by decide

-- P1: SVC entry, then the catch before the handler's first instruction
theorem test_p1_step : nextHas (step { et 0x8008 [.ss] with entered := some (svc .secure) }) fun t =>
    t.cpsr.m == .abort && t.pc == 0x800C && t.gpr[27] == 0x800C && t.spsr.abt == (et 0x8008 [.ss]).cpsr := by decide

-- D12: the enable controls are evaluated after the entry, here where CPSR.I (status bit 10) is 0, which the entry set
theorem test_d12_masks :
    let s := { et 0x8008 [.ss] with
      params := { Parameters.quiet with debugEnabled := .not (.bit (.status .cpsr) 10) } }
    etCheck false s.ctl.current s (svc .secure) = none ∧
      etCheck false s.ctl.current { s with cpsr := { s.cpsr with i := false } } (svc .secure) = some 0x8008 := by decide

/-! ### The fetch -/

-- R58, R49(b): in T32, with nothing written at the vector, an instruction abort of the fetch is taken, else the match
theorem test_t32_unwritten_vector :
    let s := t32 (am 0x8008 [.ss])
    let e : Entry := ⟨.x .prefetchAbort, .mode .abort .secure⟩
    nextHas (step { s with params := { s.params with fetchExceptions := [⟨0x8008, .const true, .instructionAbort, e⟩] } })
        (fun t => t.pc == 0x800C && t.entered == some e) = true ∧
      nextHas (step s) (fun t => t.syn.moe == 0b0101) = true := by decide

-- A byte equal to what an unlisted address reads as is not listed
theorem test_memory_canonical : Memory.write (Memory.write [] 4 0xEF) 4 Memory.unwritten = [] ∧
    Memory.read (Memory.write [] 4 0xEF) 4 = 0xEF := by decide

/-! ### Taking the exception (95_test_vectors.md 2.4) -/

-- P4, TV2: to Hyp mode
def hypRouted (m : Mode) (ss : SecurityState) (e3 : LevelCfg) : State :=
  let s := pe (config .addressMatching .a32 e3) m ss 0x8004 [.su]
  { s with ctl := { s.ctl with tde := ⟨true, []⟩ } }

theorem test_tv2 : nextHas (takeVC 0x8004 (hypRouted .supervisor .secure .absent)) fun t =>
    t.cpsr.m == .hyp && t.pc == 0x40014 && t.elrHyp == 0x8004 && t.syn.hsr.toWord == 0x82000022 &&
      t.syn.moe == 0b0101 && t.syn.ifsrFs.s == 0 := by decide

-- TV3
theorem test_tv3 : routeToHyp (config .addressMatching .a32 .a32) (hypRouted .supervisor .secure .a32).ctl.current .secure
    .supervisor = false ∧ eld (config .addressMatching .a32 .a32) (hypRouted .supervisor .secure .a32).ctl.current .secure
    .supervisor = .el3 := by decide

-- TV6, TV7
def el2is64 (routed : Bool) : State :=
  let s := pe (config .addressMatching .a64 .absent) .supervisor .secure 0x8008 [.ss]
  { s with params := { s.params with routedToA64EL2 := .const routed } }

theorem test_tv6_tv7 : takeVC 0x8008 (el2is64 true) = .refused .routedToAArch64EL2 ∧
    nextHas (takeVC 0x8008 (el2is64 false)) fun t => t.cpsr.m == .abort := by
  refine ⟨rfl, ?_⟩
  decide

/-! ### Witnesses: for each statement with hypotheses, a state and operands that meet them -/

/-- The next instruction of a state is `MRC p14, 0, r1, c0, c7, 0` in A32. -/
def mrcNext (s : State) : State := code s 0xEE101E17

/-- The effect of an instruction outside the opcode table that only moves on. -/
def quiet : HostEffect := ⟨[], .next⟩

def off (s : State) : State := { s with params := Parameters.quiet }

theorem witness_DecodeOfEncode : (Instr.mcrA32 .le 14).wellFormed = true ∧ (Instr.mrcT32 0).wellFormed = true ∧
    (Instr.msrA64 31).wellFormed = true := by decide

theorem witness_DecodedBytesAreTheEncoding : decode .a64 [0x1F, 0x07, 0x34, 0xD5, 0xAA] = .ok (.mrsA64 31, [0xAA]) := by
  decide

theorem witness_UnusableFormsAreRefused :
    (0xFE10FE17 : Word) &&& 0x0FFF0FFF = 0x0E100E17 ∧ (0xFE10FE17 : Word).extractLsb' 28 4 = 0b1111 ∧
    (0xEE00FE17 : Word) &&& 0x0FFF0FFF = 0x0E000E17 ∧ (0xEE00FE17 : Word).extractLsb' 28 4 ≠ 0b1111 ∧
    (0xEE00FE17 : Word).extractLsb' 12 4 = 0b1111 ∧ (0xEE00FE17 : Word) &&& 0xFFFF0FFF = 0xEE000E17 := by decide

-- With no input of the host PE; with one, and an entry just made
theorem witness_StepRunsTheDecodedInstruction :
    (let s := mrcNext (am 0x8004 [.ss]);
      nextIsInstruction s none [] ∧ entryPasses s ∧ (atInstruction s []).checkCommit s.instrLength = .execute ∧
        decode s.iset (s.fetch s.instrLength) = .ok (.mrcA32 .al 1, [])) ∧
    (let s := { mrcNext (am 0x8004 [.ss]) with inputs := [.instruction quiet], entered := some (svc .secure) };
      nextIsInstruction s (some quiet) [] ∧ entryPasses s ∧ (atInstruction s []).checkCommit s.instrLength = .execute ∧
        decode s.iset (s.fetch s.instrLength) = .ok (.mrcA32 .al 1, [])) := by
  refine ⟨⟨⟨by decide, by decide, by decide, by decide⟩, fun e h => (by cases h), by decide, by decide⟩,
    ⟨⟨by decide, by decide, rfl⟩, fun e h => ?_, by decide, by decide⟩⟩
  cases h
  rfl

theorem witness_OtherInstructionsAreTheHostPEs :
    (let s := { code (am 0x8004 [.ss]) 0xE3A00004 with inputs := [.instruction quiet] };
      nextIsInstruction s (some quiet) [] ∧ entryPasses s ∧ (atInstruction s []).checkCommit s.instrLength = .execute ∧
        decode s.iset (s.fetch s.instrLength) = .error .outsideTable) ∧
    (let s := code (am 0x8004 [.ss]) 0xFE101E17;
      nextIsInstruction s none [] ∧ decode s.iset (s.fetch s.instrLength) = .error .reservedCondition) ∧
    (let s := code (am 0x8004 [.ss]) 0xEE10FE17;
      nextIsInstruction s none [] ∧ decode s.iset (s.fetch s.instrLength) = .error .unusableRt) := by
  refine ⟨⟨⟨by decide, by decide, rfl⟩, fun e h => (by cases h), by decide, by decide⟩,
    ⟨⟨by decide, by decide, by decide, by decide⟩, by decide⟩, ⟨by decide, by decide, by decide, by decide⟩, by decide⟩

-- Log entry 6: a branch that ends an IT block leaves it, and the IT bits an instruction writes itself stand
theorem test_host_it :
    let s := { am 0x100 [] with cpsr := { (am 0x100 []).cpsr with t := true, it := 0x18 } }
    nextHas (hostRun ⟨[], .branch 0x200 true⟩ 2 s) (fun t => t.cpsr.it == 0) = true ∧
      nextHas (hostRun ⟨[.psr { s.cpsr with it := 0x0F }], .next⟩ 2 s) (fun t => t.cpsr.it == 0x0F) = true := by decide

-- R24, K4: MVBAR is written in Secure PL1 modes with EL3 using AArch32, and does not exist in Non-secure state
theorem test_mvbar_secure :
    let s := fun ss => pe (config .addressMatching .absent .a32) .supervisor ss 0x100 []
    nextHas (hostRun ⟨[.mvbar 0x40000020], .next⟩ 4 (s .secure)) (fun t => t.ctl.mvbar.cur == 0x40000020) = true ∧
      hostRun ⟨[.mvbar 0x40000020], .next⟩ 4 (s .nonSecure) = .refused .hostInputIllegal := ⟨by decide, rfl⟩

theorem witness_PlacedWordRunsNext : (Instr.mrcT32 14).wellFormed = true ∧ State.reset.cfg.listed = true ∧
    State.reset.basesAligned = true ∧ Memory.wf State.reset.mem = true := by decide

theorem witness_UnlistedConfigurationsAreRefused :
    (pe (config .addressMatching .a64 .a32) .supervisor .secure 0 []).cfg.el2 = .a64 ∧
    (pe (config .addressMatching .a64 .a32) .supervisor .secure 0 []).cfg.el3 = .a32 ∧
    ¬((am 0 []).cfg.el2 = .a64 ∧ (am 0 []).cfg.el3 = .a32) ∧ (0x3000_0010 : Word) &&& 0x1F ≠ 0 := by decide

theorem witness_AsynchronousExceptionComesFirst :
    let s := { am 0x8008 [.ss] with inputs := [.exception ⟨.x .irq, .mode .irq .secure⟩] }
    s.cfg.listed = true ∧ s.basesAligned = true ∧ entryPasses s ∧
      nextHas (step s) (fun t => t.pc == 0x8018 && t.cpsr.m == .irq) = true :=
  ⟨by decide, by decide, fun e h => (by cases h), by decide⟩

theorem witness_EnabledSetMembers : (am 0 []).cfg.el3 = .absent ∧
    ⟨.ss, .localTable, .svc, 0x8008⟩ ∈ enabledSet (am 0 [.ss]).cfg (am 0 [.ss]).ctl.current := by decide

theorem witness_MonitorVectorAddresses :
    let s := pe (config .addressMatching .absent .a32) .monitor .secure 0 [.ms]
    ⟨.ms, .monitor, .smc, 0x30000008⟩ ∈ enabledSet s.cfg s.ctl.current := by decide

-- The bits MF and NSF do not exist without EL3; two registers that differ only there
theorem witness_ReservedBitsDoNothing : bitExists (am 0 []).cfg .mf = false ∧ bitExists (am 0 []).cfg .nsf = false ∧
    bits [.ss] ≠ bits [.ss, .mf] ∧
    ∀ b ∈ allBits, bitExists (am 0 []).cfg b = true → (bits [.ss]).get b = (bits [.ss, .mf]).get b := by decide

theorem witness_DbgvcrReadsItsBits : enableBit .monitor .smc = some .ms ∧ (∀ b ∈ allBits, bitPos b ≠ 0) ∧
    (∀ b ∈ allBits, bitPos b ≠ 13) := by decide

theorem witness_CatchNeedsAnEnabledBit : amResult (am 0x8006 [.ss]) always 4 true = .vc 0x8006 ∧
    etCheck false (et 0x8008 [.ss]).ctl.current (et 0x8008 [.ss]) (svc .secure) = some 0x8008 := by decide

-- A Supervisor Call; an ISB; `SUBS PC, LR, #4` from Abort mode; `ERET` from Hyp mode
theorem witness_ContextSynchronisationEvents :
    (∃ t, step { code (am 0x100 []) 0xEF000000 with inputs := [.instruction ⟨[], .takes (svc .secure)⟩] } = .next t ∧
      t.entered.isSome = true) ∧
    (∃ t, hostFlow .sync 4 (am 0x100 []) = .next t ∧ t.pc == 0x104) ∧
    (∃ t, returnSubs 4 (pe (am 0 []).cfg .abort .secure 0x800C []) = .next t ∧ t.cpsr.m == .supervisor) ∧
    (∃ t, returnEret (hypRouted .hyp .secure .absent) = .next t ∧ t.cpsr.m == .supervisor) :=
  ⟨next_exists (p := fun t => t.entered.isSome) (by decide), next_exists (p := fun t => t.pc == 0x104) (by decide),
    next_exists (p := fun t => t.cpsr.m == .supervisor) (by decide),
    next_exists (p := fun t => t.cpsr.m == .supervisor) (by decide)⟩

-- A32 in Hyp mode with r14, T32 in Supervisor mode with r0
theorem witness_MrcReadsDbgvcr :
    (let s := pe (config .addressMatching .a32 .absent) .hyp .secure 0x100 [.ss];
      runsIn (.mrcA32 .al 14) s ∧ (14 : Fin 16).val < 15 ∧ s.cpsr.m ≠ .user ∧ conditionPassed (.mrcA32 .al 14) s = true ∧
        s.accessTrapped = false) ∧
    (let s := t32 (am 0x100 [.ss]);
      runsIn (.mrcT32 0) s ∧ (0 : Fin 16).val < 15 ∧ s.cpsr.m ≠ .user ∧ conditionPassed (.mrcT32 0) s = true ∧
        s.accessTrapped = false) := by
  refine ⟨⟨rfl, by decide, by decide, by decide, by decide⟩, ⟨rfl, by decide, by decide, by decide, by decide⟩⟩

theorem witness_McrWritesDbgvcr :
    (let s := am 0xFFFFFFFC [];
      runsIn (.mcrA32 .al 14) s ∧ (14 : Fin 16).val < 15 ∧ s.cpsr.m ≠ .user ∧ conditionPassed (.mcrA32 .al 14) s = true ∧
        s.accessTrapped = false) ∧
    (let s := t32 (pe (config .addressMatching .absent .a32) .monitor .secure 0x100 []);
      runsIn (.mcrT32 0) s ∧ (0 : Fin 16).val < 15 ∧ s.cpsr.m ≠ .user ∧ conditionPassed (.mcrT32 0) s = true ∧
        s.accessTrapped = false) := by
  refine ⟨⟨rfl, by decide, by decide, by decide, by decide⟩, ⟨rfl, by decide, by decide, by decide, by decide⟩⟩

theorem witness_MrsReadsDbgvcr : (el3 [.ss]).exec = .aarch64 .el3 ∧ (el3 [.ss]).accessTrapped = false ∧ (30 : Fin 32).val < 31 ∧
    (31 : Fin 32).val = 31 := by decide

theorem witness_MsrWritesDbgvcr : ({ el3 [.ss] with exec := .aarch64 .el2 } : State).exec = .aarch64 .el2 ∧
    ({ el3 [.ss] with exec := .aarch64 .el2 } : State).accessTrapped = false := by decide

theorem witness_FailedConditionSkips :
    (let s := pe (am 0 []).cfg .user .secure 0x100 [];
      runsIn (.mcrA32 .eq 14) s ∧ (14 : Fin 16).val < 15 ∧ conditionPassed (.mcrA32 .eq 14) s = false) ∧
    (let s := { t32 (am 0x100 []) with cpsr := { (t32 (am 0x100 [])).cpsr with it := 0x08 } };
      runsIn (.mrcT32 0) s ∧ conditionPassed (.mrcT32 0) s = false) := by
  refine ⟨⟨rfl, by decide, by decide⟩, ⟨rfl, by decide⟩⟩

/-- User mode, with the routing of an Undefined Instruction exception. -/
def userMode (el2 : LevelCfg) (el1is32 tge routed : Bool) : State :=
  let s := pe (config .addressMatching el2 .absent) .user .secure 0x100 [.ss]
  { s with
    el1is32 := el1is32
    ctl := { s.ctl with tge := ⟨tge, []⟩ }
    params := { s.params with undefToA64EL2 := .const routed } }

-- One state for each of the four routings
theorem witness_UserModeAccessIsUndefined :
    runsIn (.mrcA32 .al 1) (userMode .absent true false false) ∧
    (userMode .absent true false false).cpsr.m = .user ∧
    conditionPassed (.mrcA32 .al 1) (userMode .absent true false false) = true ∧
    ((userMode .absent true false false).undefinedToAArch64EL2 = false ∧
      (userMode .absent true false false).el1is32 = true ∧
      (userMode .absent true false false).ctl.tge.cur = false) ∧
    ((userMode .a32 true true false).undefinedToAArch64EL2 = false ∧ (userMode .a32 true true false).el1is32 = true ∧
      hypExists (userMode .a32 true true false).cfg (userMode .a32 true true false).ss = true ∧
      (userMode .a32 true true false).ctl.tge.cur = true) ∧
    ((userMode .absent false false false).undefinedToAArch64EL2 = false ∧
      (userMode .absent false false false).el1is32 = false) ∧
    (userMode .a64 true false true).undefinedToAArch64EL2 = true := by
  refine ⟨rfl, ?_⟩
  decide

/-- A state with a trap of the accesses configured. -/
def trapped (s : State) : State := { s with params := { s.params with accessTrapped := .const true } }

-- At EL1 using AArch64; with a trap at EL3, and in Supervisor mode
theorem witness_ForbiddenAccessesAreRefused :
    (({ el3 [] with exec := .aarch64 .el1 } : State).exec ≠ .aarch64 .el2 ∧
      ({ el3 [] with exec := .aarch64 .el1 } : State).exec ≠ .aarch64 .el3) ∧
    ((trapped (el3 [])).exec = .aarch64 .el3 ∧ (trapped (el3 [])).accessTrapped = true) ∧
    (let s := trapped (am 0x100 []);
      runsIn (.mrcA32 .al 14) s ∧ (14 : Fin 16).val < 15 ∧ s.cpsr.m ≠ .user ∧ conditionPassed (.mrcA32 .al 14) s = true ∧
        s.accessTrapped = true) := by
  refine ⟨by decide, by decide, rfl, ?_⟩
  decide

-- MSR at EL3, then MRC in Supervisor mode, A32 and T32; MCR there, then MRS at EL2
theorem witness_TwoNamesOneRegister :
    (∃ t u : State, exec (.msrA64 0) (el3 [.ss]) = .next t ∧ u.cfg = t.cfg ∧ u.ctl = t.ctl ∧
      runsIn (.mrcA32 .al 14) u ∧ runsIn (.mrcT32 14) (t32 u) ∧ u.cpsr.m ≠ .user ∧
      conditionPassed (.mrcA32 .al 14) u = true ∧ conditionPassed (.mrcT32 14) (t32 u) = true ∧
      u.accessTrapped = false ∧ gprIndex u.cpsr.m 14 = some 25) ∧
    (∃ t u : State, runsIn (.mcrA32 .al 13) (am 0 []) ∧ (am 0 []).cpsr.m ≠ .user ∧
      conditionPassed (.mcrA32 .al 13) (am 0 []) = true ∧ gprIndex (am 0 []).cpsr.m 13 = some 24 ∧
      exec (.mcrA32 .al 13) (am 0 []) = .next t ∧ u.cfg = t.cfg ∧ u.ctl = t.ctl ∧ u.exec = .aarch64 .el2 ∧
      u.accessTrapped = false) := by
  refine ⟨⟨_, { (((el3 [.ss]).writeDbgvcr 0).advance 4) with exec := .aarch32 }, rfl, rfl, rfl, rfl, rfl, by decide,
    by decide, by decide, by decide, by decide⟩, ⟨_, { (((am 0 []).writeDbgvcr 0).advance 4) with exec := .aarch64 .el2 },
    rfl, by decide, by decide, by decide, rfl, rfl, rfl, rfl, by decide⟩⟩

theorem witness_NoCatchOutsideAArch32Regimes :
    (el3 [.ss]).usingAArch32Regime = false ∧ (userMode .absent false false false).usingAArch32Regime = false := by decide

theorem witness_OnlyTheImplementedFormActs : (et 0x8008 [.ss]).cfg.form = .exceptionTrapping ∧
    (am 0x8008 [.ss]).cfg.form = .addressMatching := by decide

theorem witness_DisabledControlsCatchNothing : (off (am 0x8008 [.ss])).debugExceptionsEnabled = false := by decide

-- At ELD (Supervisor mode) and below it (User mode); a Data Abort at ELD (ET7)
theorem witness_AbortVectorsAtTheDebugTargetLevel :
    (let s := am 0x800C [.sp];
      s.amApplies = true ∧ ⟨.sp, .localTable, .prefetchAbort, 0x800C⟩ ∈ amSubset s.cfg s.ctl.current s.ss ∧
        s.breakpointAt 0x800C = false ∧ s.el = eld s.cfg s.ctl.current s.ss s.cpsr.m) ∧
    (let s := pe (am 0 []).cfg .user .secure 0x800C [.sp];
      s.amApplies = true ∧ s.el ≠ eld s.cfg s.ctl.current s.ss s.cpsr.m) ∧
    (let s := pe (et 0 []).cfg .abort .secure 0x8010 [.sd];
      s.etApplies = true ∧ enableBit (targetTable s.cfg .abort .secure) .dataAbort = some .sd ∧
        enabled s.cfg s.ctl.current.dbgvcr .sd = true ∧
        modeEL s.cfg .secure .abort = eld s.cfg s.ctl.current s.ss s.cpsr.m) := by decide

theorem witness_SubsetComparedBySecurityState : (am 0 []).cfg.el3 = .absent ∧
    (config .addressMatching .absent .a64).el3 = .a64 ∧ (config .addressMatching .absent .a32).el3 = .a32 ∧
    amResult (am 0x8008 [.ss]) always 4 false = .vc 0x8008 := by decide

-- User mode and Monitor mode; Hyp mode (AM11)
theorem witness_EveryModeButHypMatches :
    (let s := pe (am 0 []).cfg .user .secure 0x8008 [.ss];
      s.cfg.form = .addressMatching ∧ s.exec = .aarch32 ∧ s.cpsr.m ≠ .hyp ∧ s.el0is32 = true ∧ s.el1is32 = true ∧
        s.debugExceptionsEnabled = true ∧ ⟨.ss, .localTable, .svc, 0x8008⟩ ∈ amSubset s.cfg s.ctl.current s.ss) ∧
    (hypRouted .hyp .secure .absent).cpsr.m = .hyp := by decide

-- AM13
theorem witness_TgeUserMatchGoesToHyp :
    let s := { userMode .a32 true true false with pc := 0x8008 }
    s.amApplies = true ∧ s.cpsr.m = .user ∧ s.cfg.el2 = .a32 ∧ s.cfg.el3 = .absent ∧ s.ctl.current.tge = true ∧
      ⟨.ss, .localTable, .svc, 0x8008⟩ ∈ amSubset s.cfg s.ctl.current s.ss ∧ s.breakpointAt 0x8008 = false := by decide

theorem witness_ExactMatchIsCertain :
    (let s := am 0x8008 [.ss];
      s.amApplies = true ∧ ⟨.ss, .localTable, .svc, 0x8008⟩ ∈ amSubset s.cfg s.ctl.current s.ss ∧
        (∀ e ∈ amSubset s.cfg s.ctl.current s.ss, e.addr = 0x8008 →
          e.xtype ≠ .prefetchAbort ∧ e.xtype ≠ .dataAbort) ∧ s.breakpointAt 0x8008 = false) ∧
    (let s := am 0x800A [.ss];
      ∀ e ∈ amSubset s.cfg s.ctl.current s.ss, e.addr ≠ 0x800A ∧ ¬(true = true ∧ 4 = 4 ∧ e.addr = 0x800A + 2)) := by
  decide

-- Two bytes before the Supervisor Call vector; before the Prefetch Abort vector, at ELD
theorem witness_HalfMatchIsAChoice :
    (let s := am 0x8006 [.ss];
      s.amApplies = true ∧ (∀ e ∈ amSubset s.cfg s.ctl.current s.ss, e.addr ≠ 0x8006) ∧
        ⟨.ss, .localTable, .svc, 0x8006 + 2⟩ ∈ amSubset s.cfg s.ctl.current s.ss ∧ s.breakpointAt 0x8006 = false ∧
        (∀ e ∈ amSubset s.cfg s.ctl.current s.ss, e.addr = 0x8006 + 2 →
          e.xtype ≠ .prefetchAbort ∧ e.xtype ≠ .dataAbort) ∧
        always.halfMatch = true ∧ ignoring.halfMatch = false) ∧
    (let s := am 0x800A [.sp];
      s.amApplies = true ∧ (∀ e ∈ amSubset s.cfg s.ctl.current s.ss, e.addr ≠ 0x800A) ∧
        ⟨.sp, .localTable, .prefetchAbort, 0x800A + 2⟩ ∈ amSubset s.cfg s.ctl.current s.ss ∧
        s.breakpointAt 0x800A = false ∧ s.el = eld s.cfg s.ctl.current s.ss s.cpsr.m ∧
        amResult s ⟨true, true, false⟩ 4 true = .noVC ∧ amResult s always 4 true = .vc 0x800A) := by decide

-- SS alone: no vector four bytes on; SS and SP: one, and the half-match choice is not to generate
theorem witness_NoMatchTwoBytesAfterAVector :
    (let s := am 0x800A [.ss];
      s.ctl.current.aligned ∧ ⟨.ss, .localTable, .svc, 0x8008⟩ ∈ amSubset s.cfg s.ctl.current s.ss ∧
        ∀ e' ∈ amSubset s.cfg s.ctl.current s.ss, e'.addr ≠ 0x8008 + 4) ∧
    (let s := am 0x800A [.ss, .sp];
      ⟨.ss, .localTable, .svc, 0x8008⟩ ∈ amSubset s.cfg s.ctl.current s.ss ∧
        ⟨.sp, .localTable, .prefetchAbort, 0x8008 + 4⟩ ∈ amSubset s.cfg s.ctl.current s.ss ∧
        ignoring.halfMatch = false) := by
  refine ⟨⟨⟨by decide, by decide, by decide⟩, by decide, by decide⟩, by decide⟩

/-- A state with a breakpoint at its address. -/
def broken (s : State) : State := { s with params := { s.params with breakpoints := [⟨s.addr, .const true⟩] } }

/-- The exception-trapping form with EL2 using AArch32, and a write of 1 to HCR.TGE that is not yet visible (R51). -/
def hypWindow (a : Word) : State :=
  let s := pe (config .exceptionTrapping .a32 .absent) .supervisor .secure a [.ss]
  { s with ctl := { s.ctl with tge := ⟨true, [false]⟩ } }

-- At the Supervisor Call vector; at the Prefetch Abort vector at ELD; two bytes before each of the two; at no vector; and
-- each form's entry
theorem witness_BreakpointTie :
    (let s := broken (am 0x8008 [.ss]);
      s.amApplies = true ∧ s.breakpointAt 0x8008 = true ∧
        ⟨.ss, .localTable, .svc, 0x8008⟩ ∈ amSubset s.cfg s.ctl.current s.ss ∧
        (∀ e ∈ amSubset s.cfg s.ctl.current s.ss, e.addr = 0x8008 →
          e.xtype ≠ .prefetchAbort ∧ e.xtype ≠ .dataAbort)) ∧
    (let s := broken (am 0x800C [.sp]);
      s.amApplies = true ∧ s.breakpointAt 0x800C = true ∧
        ⟨.sp, .localTable, .prefetchAbort, 0x800C⟩ ∈ amSubset s.cfg s.ctl.current s.ss ∧
        s.el = eld s.cfg s.ctl.current s.ss s.cpsr.m) ∧
    (let s := broken (am 0x8006 [.ss]);
      s.amApplies = true ∧ s.breakpointAt 0x8006 = true ∧
        (∀ e ∈ amSubset s.cfg s.ctl.current s.ss, e.addr ≠ 0x8006) ∧
        ⟨.ss, .localTable, .svc, 0x8006 + 2⟩ ∈ amSubset s.cfg s.ctl.current s.ss ∧
        (∀ e ∈ amSubset s.cfg s.ctl.current s.ss, e.addr = 0x8006 + 2 →
          e.xtype ≠ .prefetchAbort ∧ e.xtype ≠ .dataAbort) ∧
        always.halfMatch = true) ∧
    (let s := broken (am 0x800A [.sp]);
      s.amApplies = true ∧ s.breakpointAt 0x800A = true ∧
        (∀ e ∈ amSubset s.cfg s.ctl.current s.ss, e.addr ≠ 0x800A) ∧
        ⟨.sp, .localTable, .prefetchAbort, 0x800A + 2⟩ ∈ amSubset s.cfg s.ctl.current s.ss ∧
        s.el = eld s.cfg s.ctl.current s.ss s.cpsr.m) ∧
    (let s := broken (am 0x100 [.ss]);
      s.breakpointAt s.addr = true ∧ amCheck (amChoices s.draws) s.view s s.addr 4 s.cpsr.t = .noVC ∧
        s.fetchExceptions = []) ∧
    ((am 0x8008 [.ss]).cfg.form = .addressMatching ∧
      ∃ t, takeVC 0x8008 (am 0x8008 [.ss]) = .next t ∧ (t.cpsr.m == .abort) = true) ∧
    ((hypWindow 0x8008).cfg.form = .exceptionTrapping ∧
      ∃ t, takeDebugRouted (hypWindow 0x8008).ctl.current moeVectorCatch 0x8008 (hypWindow 0x8008) = .next t ∧
        (t.cpsr.m == .hyp) = true) :=
  ⟨by decide, by decide, by decide, by decide, by decide,
    ⟨rfl, next_exists (p := fun t => t.cpsr.m == .abort) (by decide)⟩,
    ⟨rfl, next_exists (p := fun t => t.cpsr.m == .hyp) (by decide)⟩⟩

-- R109: with HCR.TGE 1, not yet visible to vector catch, a Breakpoint exception goes to Hyp mode, whichever value is seen
theorem test_r109_breakpoint : nextHas (takeBreakpoint 0x8008 (hypWindow 0x8008)) fun t =>
    t.cpsr.m == .hyp && t.syn.moe == 0b0001 && etCheck false t.view t (hypEntry t) == none := by decide

theorem witness_certain : certainMatch (mrcNext (am 0x8008 [.ss])) := by
  unfold certainMatch
  decide

-- With an effect due for the instruction at the vector, and an entry just made
theorem witness_MatchedInstructionIsNotExecuted :
    let s := { mrcNext (am 0x8008 [.ss]) with inputs := [.instruction quiet], entered := some (svc .secure) }
    nextIsInstruction s (some quiet) [] ∧ certainMatch s :=
  ⟨⟨by decide, by decide, rfl⟩, witness_certain⟩

/-- Software Step and an instruction abort on one fetch, at a vector. -/
def stepAndAbort (order : List FetchClass) : State :=
  let s := mrcNext (am 0x8008 [.ss])
  let e : Entry := ⟨.x .prefetchAbort, .mode .abort .secure⟩
  { s with
    cfg := { s.cfg with fetchPriority := order }
    params := { s.params with
      fetchExceptions := [⟨0x8008, .const true, .instructionAbort, e⟩, ⟨0x8008, .const true, .softwareStep, e⟩] } }

-- With the order of K10; with the debug exceptions highest; with them between the two
theorem witness_FetchPriorityOrdersTheExceptions :
    let e : Entry := ⟨.x .prefetchAbort, .mode .abort .secure⟩
    let f : FetchException := ⟨0x8008, .const true, .softwareStep, e⟩
    nextIsInstruction (stepAndAbort Config.recalledPriority) none [] ∧
      certainMatch { stepAndAbort Config.recalledPriority with params := { (am 0 []).params with fetchExceptions := [] } } ∧
      f ∈ (stepAndAbort Config.recalledPriority).fetchExceptions ∧
      (∀ g ∈ (stepAndAbort Config.recalledPriority).fetchExceptions, g = f ∨
        goesBefore (stepAndAbort Config.recalledPriority).cfg (.source .softwareStep) (.source g.source)) ∧
      goesBefore (stepAndAbort Config.recalledPriority).cfg (.source .softwareStep) .debug ∧
      (∀ g ∈ (stepAndAbort [.debug]).fetchExceptions, goesBefore (stepAndAbort [.debug]).cfg .debug (.source g.source)) ∧
      (let s := stepAndAbort [.source .softwareStep, .debug, .source .instructionAbort];
        goesBefore s.cfg (.source .softwareStep) .debug ∧ goesBefore s.cfg .debug (.source .instructionAbort)) := by
  refine ⟨⟨by decide, by decide, by decide, by decide⟩, ?_⟩
  unfold certainMatch goesBefore
  decide

-- Each of the four kinds of table (Local, Secure Local, Non-secure Local, Monitor)
theorem witness_SubsetTestedByTheEntry :
    (etCheck false (et 0x8008 [.ss]).ctl.current (et 0x8008 [.ss]) (svc .secure)).isSome = true ∧
    (let s := fun ss => pe (config .exceptionTrapping .absent .a64) .supervisor ss 0x8008 [.ss, .nss];
      (etCheck false (s .secure).ctl.current (s .secure) (svc .secure)).isSome = true ∧
        (etCheck false (s .nonSecure).ctl.current (s .nonSecure) (svc .nonSecure)).isSome = true) ∧
    (let s := pe (config .exceptionTrapping .absent .a32) .monitor .secure 0x30000008 [.ms];
      (etCheck false s.ctl.current s ⟨.x .smc, .mode .monitor .secure⟩).isSome = true ∧ s.cfg.el3 = .a32) := by decide

theorem witness_EntriesNeverTrapped : enableBit (targetTable (et 0 []).cfg .undefined .secure) .smc = none := by decide

theorem witness_BranchesAreNotTrapped :
    (let s := { mrcNext (et 0x8008 [.ss]) with inputs := [.instruction quiet] };
      s.cfg.form = .exceptionTrapping ∧ s.entered = none ∧ nextIsInstruction s (some quiet) [] ∧
        s.breakpointAt s.addr = false ∧ s.fetchExceptions = []) ∧
    ∃ t, hostFlow (.branch 0x8008 false) 4 (et 0x100 [.ss]) = .next t ∧ (t.pc == 0x8008) = true :=
  ⟨⟨by decide, by decide, ⟨by decide, by decide, rfl⟩, by decide, by decide⟩,
    next_exists (p := fun t => t.pc == 0x8008) (by decide)⟩

-- A Supervisor Call with an interrupt already due; a Data Abort to a level that is not ELD (ET8)
theorem witness_EntryThenCatchAtOnce :
    (let s := { et 0x8008 [.ss] with
        entered := some (svc .secure), inputs := [.exception ⟨.x .irq, .mode .irq .secure⟩] };
      s.cfg.listed = true ∧ s.basesAligned = true ∧ s.synced = true ∧
        etCheck false s.ctl.current s (svc .secure) = some 0x8008 ∧ (svc .secure).etype.isAbort = false) ∧
    (let s := { hypRouted .abort .secure .absent with cfg := config .exceptionTrapping .a32 .absent };
      let e : Entry := ⟨.x .dataAbort, .mode .abort .secure⟩;
      e.target.el s.cfg ≠ eld s.cfg s.ctl.current s.ss s.cpsr.m) := by decide

-- HCR.TGE 1 without EL3: an interrupt routed to Hyp mode; an MCR in User mode; the step that takes the interrupt
theorem witness_TgeLeavesNothingToTrap :
    (let s := userMode .a32 true true false;
      hypExists s.cfg s.ss = true ∧ s.ctl.tge.cur = true ∧ s.el1is32 = true ∧
        ∃ t, hostException ⟨.x .irq, .mode .hyp s.ss⟩ 0 s = .next t ∧ hypExists t.cfg t.ss = true) ∧
    (let s := { userMode .a32 true true false with inputs := [.exception ⟨.x .irq, .mode .hyp .secure⟩] };
      s.WF = true ∧ ∃ t, step s = .next t ∧
        (t.entered.isSome && hypExists t.cfg t.ss && t.ctl.tge.cur) = true) :=
  ⟨⟨by decide, by decide, by decide, next_exists (p := fun t => hypExists t.cfg t.ss) (by decide)⟩,
    by decide, next_exists (p := fun t => t.entered.isSome && hypExists t.cfg t.ss && t.ctl.tge.cur) (by decide)⟩

theorem witness_RoutingAndDebugTarget :
    (let s := hypRouted .supervisor .secure .absent;
      routeToHyp s.cfg s.ctl.current s.ss s.cpsr.m = true) ∧
    (let s := hypRouted .supervisor .secure .a32;
      routeToHyp s.cfg s.ctl.current s.ss s.cpsr.m = false ∧ s.cfg.el3 = .a32 ∧ s.ss = .secure) ∧
    (let s := hypRouted .hyp .nonSecure .a64;
      routeToHyp s.cfg s.ctl.current s.ss s.cpsr.m = false ∧ ¬(s.cfg.el3 = .a32 ∧ s.ss = .secure)) := by decide

theorem witness_TakenToAbortMode :
    let s := am 0x8008 [.ss]
    routeToHyp s.cfg s.view s.ss s.cpsr.m = false ∧ ¬(s.cfg.el2 = .a64 ∧ s.routedToAArch64EL2 = true) := by decide

theorem witness_TakenToHypMode :
    let s := hypRouted .supervisor .secure .absent
    routeToHyp s.cfg s.view s.ss s.cpsr.m = true := by decide

theorem witness_AbortEntryMechanics :
    ∃ t, takeVC 0x8008 (am 0x8008 [.ss]) = .next t ∧ (t.cpsr.m == .abort) = true :=
  next_exists (p := fun t => t.cpsr.m == .abort) (by decide)

theorem witness_HypEntryMechanics :
    ∃ t, takeVC 0x8004 (hypRouted .supervisor .secure .absent) = .next t ∧ (t.cpsr.m == .hyp) = true :=
  next_exists (p := fun t => t.cpsr.m == .hyp) (by decide)

theorem witness_RefusedOnlyToAArch64EL2 : ((el2is64 true).cfg.el2 = .a64 ∧ (el2is64 true).routedToAArch64EL2 = true) ∧
    ¬((el2is64 false).cfg.el2 = .a64 ∧ (el2is64 false).routedToAArch64EL2 = true) := by decide

theorem witness_TrappedVectorIsThePc :
    let s := { et 0x8008 [.ss] with entered := some (svc .secure) }
    s.WF = true ∧ etCheck false s.view s (svc .secure) = some 0x8008 := by decide

-- Both forms with SP set; a Vector Catch exception taken to Hyp mode
theorem witness_RecursiveLoop :
    (let s := am 0x8008 [.ss, .sp];
      s.synced = true ∧ s.cpsr.m ≠ .hyp ∧
        enableBit (targetTable s.cfg .abort s.ss) .prefetchAbort = some .sp ∧
        enabled s.cfg s.ctl.dbgvcr.cur .sp = true ∧
        ∃ t, takeVC 0x8008 s = .next t ∧ (t.cpsr.m == .abort && t.debugExceptionsEnabled && !t.breakpointAt t.addr) = true) ∧
    (∃ t, takeVC 0x8008 (et 0x8008 [.ss, .sp]) = .next t ∧ (t.cpsr.m == .abort) = true) ∧
    ∃ t, takeVC 0x8004 (hypRouted .supervisor .secure .absent) = .next t ∧ (t.cpsr.m == .hyp) = true :=
  ⟨⟨by decide, by decide, by decide, by decide,
    next_exists (p := fun t => t.cpsr.m == .abort && t.debugExceptionsEnabled && !t.breakpointAt t.addr) (by decide)⟩,
    next_exists (p := fun t => t.cpsr.m == .abort) (by decide), next_exists (p := fun t => t.cpsr.m == .hyp) (by decide)⟩

theorem witness_EntryThenReturnRestores :
    (let s := am 0x8008 [.ss];
      s.WF = true ∧ s.usingAArch32Regime = true ∧ s.cpsr.m ≠ .hyp ∧
        ∃ t, takeVC s.addr s = .next t ∧ (t.cpsr.m == .abort) = true) ∧
    (let s := hypRouted .supervisor .secure .absent;
      s.WF = true ∧ s.usingAArch32Regime = true ∧ s.cpsr.m ≠ .hyp ∧
        ∃ t, takeVC s.addr s = .next t ∧ (t.cpsr.m == .hyp) = true) :=
  ⟨⟨by decide, by decide, by decide, next_exists (p := fun t => t.cpsr.m == .abort) (by decide)⟩,
    ⟨by decide, by decide, by decide, next_exists (p := fun t => t.cpsr.m == .hyp) (by decide)⟩⟩

-- An MCR that changes the DBGVCR, from a well-formed state
theorem witness_StepKeepsWellFormed :
    let s := code ((off (am 0x100 [])).writeGpr 0 4) 0xEE000E17
    s.WF = true ∧ ∃ t, step s = .next t ∧ (t.ctl.dbgvcr.cur == bits [.ss]) = true :=
  ⟨by decide, next_exists (p := fun t => t.ctl.dbgvcr.cur == bits [.ss]) (by decide)⟩

theorem witness_ResetIsWellFormed : baseAligned 0x8000 = true ∧ baseAligned 0xFFFFFFE0 = true := by decide

theorem witness_ConfigurationIsFixed :
    ∃ t, step (mrcNext (off (am 0x100 []))) = .next t ∧ (t.pc == 0x104) = true :=
  next_exists (p := fun t => t.pc == 0x104) (by decide)

theorem witness_OnlyItsInstructionsWriteDbgvcr :
    let s := code ((off (am 0x100 [])).writeGpr 0 4) 0xEE000E17
    ∃ t, step s = .next t ∧ (t.ctl.dbgvcr.cur != s.ctl.dbgvcr.cur) = true :=
  next_exists (p := fun t => t.ctl.dbgvcr.cur != bits []) (by decide)

theorem witness_SyndromeWrittenOnlyByEntries :
    ∃ t, step (mrcNext (am 0x8008 [.ss])) = .next t ∧ (t.syn.moe != (am 0 []).syn.moe) = true :=
  next_exists (p := fun t => t.syn.moe != 0) (by decide)

theorem witness_NothingCaughtWhileDisabled :
    let s := { mrcNext (off (am 0x8008 [.ss])) with entered := some (svc .secure) }
    s.debugExceptionsEnabled = false ∧ s.breakpointAt s.addr = false ∧ s.fetchExceptions = [] ∧
      nextIsInstruction s none [] :=
  ⟨by decide, by decide, by decide, ⟨by decide, by decide, by decide, by decide⟩⟩

-- No hypothesis beyond the rows of the tables: a member for SS and for NSU, at the one VBAR (R22)
theorem witness_LocalVectorAddresses :
    let s := pe (config .addressMatching .absent .a64) .supervisor .secure 0 [.ss, .nsu]
    ⟨.ss, .secureLocal, .svc, 0x8008⟩ ∈ enabledSet s.cfg s.ctl.current ∧
      ⟨.nsu, .nonSecureLocal, .undef, 0x8004⟩ ∈ enabledSet s.cfg s.ctl.current := by decide

end Sys2Proof.Tests
end

section
/-! SUPPORT. Proofs of the statements about scope (spec file 00). -/

namespace Sys2Proof.Machine

/-- R12: EL0 is the Exception level of User mode and of no other. -/
theorem modeEL_eq_el0 (cfg : Config) (ss : SecurityState) (m : Mode) : modeEL cfg ss m = .el0 ↔ m = .user := by
  cases m
  case user | hyp | monitor => simp [modeEL]
  all_goals simp only [modeEL]; split <;> simp

/-- R38: in AArch32 the mode gives the Exception level. -/
theorem el_of_aarch32 (s : State) (h : s.exec = .aarch32) : s.el = modeEL s.cfg s.ss s.cpsr.m := by
  simp [State.el, h]

/-- R3, by the mode instead of the Exception level. -/
theorem usingAArch32Regime_iff (s : State) : s.usingAArch32Regime = true ↔
    s.exec = .aarch32 ∧ (s.cpsr.m ≠ .user ∨ (s.el0is32 = true ∧ s.el1is32 = true)) := by
  simp only [State.usingAArch32Regime, Bool.and_eq_true, Bool.or_eq_true, beq_iff_eq, bne_iff_ne]
  refine and_congr_right fun h => ?_
  rw [el_of_aarch32 s h, ne_eq, modeEL_eq_el0]

theorem amApplies_of_not_regime (s : State) (h : s.usingAArch32Regime = false) : s.amApplies = false := by
  simp [State.amApplies, h]

theorem etApplies_of_not_regime (s : State) (h : s.usingAArch32Regime = false) : s.etApplies = false := by
  simp [State.etApplies, h]

/-- Settles O27: in AArch32 only User mode is at EL0, and neither form applies outside the regime. -/
theorem noCatchOutsideAArch32Regimes : Obligations.NoCatchOutsideAArch32Regimes :=
  ⟨usingAArch32Regime_iff,
    fun c v s a len isT32 h => amCheck_off c v s a len isT32 (amApplies_of_not_regime s h),
    fun ignored v s e h => etCheck_off ignored v s e (etApplies_of_not_regime s h)⟩

end Sys2Proof.Machine
end

section
/-! SUPPORT. Proofs of the statements about the state (spec file 10). -/

namespace Sys2Proof.Machine

/-- R71: a member of the enabled vector catch set, field by field. -/
theorem mem_enabledSet_iff (cfg : Config) (v : View) (e : CatchVector) :
    e ∈ enabledSet cfg v ↔
      e.table ∈ tables cfg ∧ enableBit e.table e.xtype = some e.bit ∧ enabled cfg v.dbgvcr e.bit = true ∧
        e.addr = vectorAddr cfg v e.table e.xtype := by
  rw [mem_enabledSet, catchVector_eq_some]
  refine and_congr_right fun _ => ⟨?_, fun ⟨hb, hen, ha⟩ => ⟨e.bit, hb, hen, by rw [← ha]⟩⟩
  rintro ⟨b, hb, hen, he⟩
  obtain rfl : e.bit = b := congrArg CatchVector.bit he
  exact ⟨hb, hen, congrArg CatchVector.addr he⟩

/-- R16, R67: a bit of the Monitor group serves the Monitor table, and no other bit does. -/
theorem enableBit_group_monitor {t : Table} {x : XType} {b : EnableBit} (h : enableBit t x = some b) :
    b.group = .monitor ↔ t = .monitor := by
  cases t <;> cases x <;> cases h <;> decide

/-- R67: within a table an enable bit serves one exception type. -/
theorem enableBit_xtype_unique {t : Table} {x x' : XType} {b : EnableBit} (h : enableBit t x = some b)
    (h' : enableBit t x' = some b) : x = x' := by
  cases t <;> cases x <;> cases h <;> cases x' <;> cases h' <;> rfl

/-- R18, R68: an enabled bit of the Monitor table needs EL3 using AArch32, which gives the table (R8). -/
theorem monitor_mem_tables_of_enabled {cfg : Config} {d : Dbgvcr} {b : EnableBit} (hg : b.group = .monitor)
    (h : enabled cfg d b = true) : .monitor ∈ tables cfg := by
  rw [mem_tables]
  simpa [bitExists, hg] using (Bool.and_eq_true_iff.1 h).1

/-- Table G2-23 is the Monitor column of the enable bits (R67) with the offsets of R66. -/
theorem mem_monitorVectorRows (b : EnableBit) (x : XType) (o : Word) :
    (b, x, o) ∈ monitorVectorRows ↔ enableBit .monitor x = some b ∧ o = offset x := by
  cases x <;> simp [monitorVectorRows, enableBit, offset, eq_comm]

/-- R16, R70: the base of the Monitor table is MVBAR, with no High form. -/
theorem vectorAddr_monitor (cfg : Config) (v : View) (x : XType) :
    vectorAddr cfg v .monitor x = v.mvbar + offset x := rfl

/-- The member of the enabled vector catch set that a bit of the Monitor table gives, when the bit is enabled. -/
theorem mem_enabledSet_monitor_iff (cfg : Config) (v : View) (e : CatchVector) {b : EnableBit} {x : XType}
    (hb : enableBit .monitor x = some b) :
    (e ∈ enabledSet cfg v ∧ e.bit = b) ↔
      (enabled cfg v.dbgvcr b = true ∧ e = ⟨b, .monitor, x, v.mvbar + offset x⟩) := by
  have hg : b.group = .monitor := (enableBit_group_monitor hb).2 rfl
  rw [mem_enabledSet_iff]
  constructor
  · obtain ⟨bit, t, x', addr⟩ := e
    rintro ⟨⟨-, hbit, hen, haddr⟩, rfl⟩
    obtain rfl : t = .monitor := (enableBit_group_monitor hbit).1 hg
    obtain rfl : x' = x := enableBit_xtype_unique hbit hb
    obtain rfl : addr = v.mvbar + offset x' := haddr
    exact ⟨hen, rfl⟩
  · rintro ⟨hen, rfl⟩
    exact ⟨⟨monitor_mem_tables_of_enabled hg hen, hb, hen, (vectorAddr_monitor cfg v x).symm⟩, rfl⟩

/-- Settles O13: Table G2-23 lists the enable bits of the Monitor table, and each of them serves one exception type, at
MVBAR plus its offset. -/
theorem monitorVectorAddresses : Obligations.MonitorVectorAddresses := by
  refine ⟨fun cfg v e => ?_, fun cfg v e he ht => ?_⟩
  · rintro ⟨b, x, o⟩ hr
    obtain ⟨hb, rfl⟩ := (mem_monitorVectorRows b x o).1 hr
    exact mem_enabledSet_monitor_iff cfg v e hb
  · obtain ⟨-, hb, -, -⟩ := (mem_enabledSet_iff cfg v e).1 he
    rw [ht] at hb
    exact ⟨(e.bit, e.xtype, offset e.xtype), (mem_monitorVectorRows ..).2 ⟨hb, rfl⟩, rfl⟩

end Sys2Proof.Machine
end

section
/-! SUPPORT. Proofs of the statements about the enabled vector catch set (spec file 40). -/

namespace Sys2Proof.Machine

/-- R67: no enable bit serves the Hyp table. -/
@[simp] theorem enableBit_hyp (x : XType) : enableBit .hyp x = none := rfl

/-- R67, R71: the Hyp table gives no member of the enabled vector catch set. -/
theorem table_ne_hyp_of_mem_enabledSet {cfg : Config} {v : View} {e : CatchVector} (he : e ∈ enabledSet cfg v) :
    e.table ≠ .hyp := by
  intro ht
  obtain ⟨-, hb, -, -⟩ := (mem_enabledSet_iff cfg v e).1 he
  simp [ht] at hb

/-- R8, R66: without EL3 no Secure Local, Non-secure Local or Monitor table exists. -/
theorem table_eq_local_or_hyp_of_el3_absent {cfg : Config} {t : Table} (h3 : cfg.el3 = .absent)
    (ht : t ∈ tables cfg) : t = .localTable ∨ t = .hyp := by
  rw [mem_tables] at ht
  cases t with
  | localTable => exact .inl rfl
  | hyp => exact .inr rfl
  | secureLocal | nonSecureLocal => exact absurd h3 ht
  | monitor => simp [h3] at ht

/-- R71: "If EL3 is not implemented, the enabled vector catch set contains only Local exception vectors". -/
theorem table_eq_local_of_mem_enabledSet {cfg : Config} {v : View} {e : CatchVector} (h3 : cfg.el3 = .absent)
    (he : e ∈ enabledSet cfg v) : e.table = .localTable := by
  obtain ⟨ht, -⟩ := (mem_enabledSet_iff cfg v e).1 he
  exact (table_eq_local_or_hyp_of_el3_absent h3 ht).resolve_right (table_ne_hyp_of_mem_enabledSet he)

/-- Settles O11: a member's table is one that exists, and the Hyp table, which the statement leaves out, has no enable
bit. -/
theorem enabledSetMembers : Obligations.EnabledSetMembers := by
  refine ⟨fun cfg v e => ?_, fun cfg v e => table_eq_local_of_mem_enabledSet⟩
  rw [mem_enabledSet_iff, mem_tables]
  obtain ⟨b, t, x, a⟩ := e
  cases t with
  | hyp => simp
  | localTable | secureLocal | nonSecureLocal | monitor => exact Iff.rfl

end Sys2Proof.Machine
end

section
/-! SUPPORT. Proofs of the statements about address matching (spec file 41). -/

namespace Sys2Proof.Machine

/-! ### The subset compared -/

/-- R82, R83: the members of the subset compared. -/
theorem mem_amSubset (cfg : Config) (v : View) (ss : SecurityState) (e : CatchVector) :
    e ∈ amSubset cfg v ss ↔ e ∈ enabledSet cfg v ∧ amTable cfg ss e.table = true := by
  simp [amSubset]

/-- R82: without EL3 the filter removes nothing, since every member is of the Local table. -/
theorem amSubset_of_el3_absent (cfg : Config) (v : View) (ss : SecurityState) (h3 : cfg.el3 = .absent) :
    amSubset cfg v ss = enabledSet cfg v := by
  refine List.filter_eq_self.2 fun e he => ?_
  simp [amTable, h3, table_eq_local_of_mem_enabledSet h3 he]

/-! ### AM_Check -/

/-- R80: the guards of the address-matching form fail where the other form is implemented. -/
theorem amApplies_of_exceptionTrapping (s : State) (h : s.cfg.form = .exceptionTrapping) : s.amApplies = false := by
  simp [State.amApplies, h]

/-- R100: the guards of the exception-trapping form fail where the other form is implemented. -/
theorem etApplies_of_addressMatching (s : State) (h : s.cfg.form = .addressMatching) : s.etApplies = false := by
  simp [State.etApplies, h]

/-- R97: Hyp mode fails the guards. -/
theorem amApplies_of_hyp (s : State) (h : s.cpsr.m = .hyp) : s.amApplies = false := by
  simp [State.amApplies, h]

/-- R99: what the guards of the address-matching form say. -/
theorem amApplies_iff (s : State) : s.amApplies = true ↔
    s.cfg.form = .addressMatching ∧ s.usingAArch32Regime = true ∧ s.cpsr.m ≠ .hyp ∧
      s.debugExceptionsEnabled = true := by
  simp [State.amApplies, and_assoc]

/-- R91, R93: an element hit stands at the instruction's address or, for a 32-bit T32 instruction and by the half-match
choice, two bytes on. -/
theorem mem_amHit {half : Bool} {l : List CatchVector} {a : Word} {len : Nat} {isT32 : Bool} {e : CatchVector}
    (h : e ∈ amHit half l a len isT32) :
    e ∈ l ∧ (e.addr = a ∨ (isT32 = true ∧ len = 4 ∧ half = true ∧ e.addr = a + 2)) := by
  unfold amHit at h
  split at h
  · split at h
    · rename_i hc
      simp only [Bool.and_eq_true, beq_iff_eq] at hc
      obtain ⟨⟨ht, hlen⟩, hhalf⟩ := hc
      obtain ⟨he, ha⟩ := List.mem_filter.1 h
      exact ⟨he, .inr ⟨ht, hlen, hhalf, beq_iff_eq.1 ha⟩⟩
    · cases h
  · obtain ⟨he, ha⟩ := List.mem_filter.1 h
    exact ⟨he, .inl (beq_iff_eq.1 ha)⟩

theorem amCheck_of_amHit_nil (c : AMChoices) (v : View) (s : State) (a : Word) (len : Nat) (isT32 : Bool)
    (h : amHit c.halfMatch (amSubset s.cfg v s.ss) a len isT32 = []) : amCheck c v s a len isT32 = .noVC := by
  simp [amCheck, h]

/-- R84: whatever `AM_Check` generates comes from a compared vector at the instruction's address, or by the half-match
choice two bytes on. -/
theorem exists_vector_of_amCheck_ne {c : AMChoices} {v : View} {s : State} {a : Word} {len : Nat} {isT32 : Bool}
    (h : amCheck c v s a len isT32 ≠ .noVC) :
    ∃ e ∈ amSubset s.cfg v s.ss,
      e.addr = a ∨ (isT32 = true ∧ len = 4 ∧ c.halfMatch = true ∧ e.addr = a + 2) := by
  obtain ⟨e, he⟩ := List.exists_mem_of_ne_nil _ (mt (amCheck_of_amHit_nil c v s a len isT32) h)
  exact ⟨e, mem_amHit he⟩

/-- The match that no choice can change (R93): at a compared vector, with no abort vector at ELD (R125) and no breakpoint
(R94). -/
theorem amCheck_certain (c : AMChoices) (v : View) (s : State) (a : Word) (len : Nat) (isT32 : Bool)
    (h : s.amApplies = true) (he : ∃ e ∈ amSubset s.cfg v s.ss, e.addr = a)
    (hab : (∀ e ∈ amSubset s.cfg v s.ss, e.addr = a → e.xtype.isAbort = false) ∨ s.el ≠ eld s.cfg v s.ss s.cpsr.m)
    (hb : s.breakpointAt a = false) : amCheck c v s a len isT32 = .vc a := by
  rw [amCheck_exact c v s a len isT32 h he]
  rcases hab with hno | hel
  · simp [(vectorsAt_no_abort _ _).2 hno, hb]
  · simp [hel, hb]

/-! ### Routing -/

/-- R116: the debug target Exception level is never EL0. -/
theorem eld_ne_el0 (cfg : Config) (v : View) (ss : SecurityState) (m : Mode) : eld cfg v ss m ≠ .el0 := by
  unfold eld
  split
  · simp
  · split <;> simp

/-- R115: HCR.TGE routes to Hyp mode from every other mode of a Security state that has it. -/
theorem routeToHyp_of_tge (cfg : Config) (v : View) (ss : SecurityState) (m : Mode) (h2 : cfg.el2 = .a32)
    (hss : cfg.el3 = .absent ∨ ss = .nonSecure) (hm : m ≠ .hyp) (ht : v.tge = true) : routeToHyp cfg v ss m = true := by
  simp [routeToHyp, hypExists, h2, hss, hm, ht]

/-- R114, R128: with EL2 using AArch32 a debug exception routed to Hyp mode is taken there, in the same Security state. -/
theorem takeDebugRouted_toHyp (v : View) (moe : BitVec 4) (pra : Word) (s : State) (h2 : s.cfg.el2 = .a32)
    (hr : routeToHyp s.cfg v s.ss s.cpsr.m = true) :
    takeDebugRouted v moe pra s = .next (enterHyp s.ss .hypTrap (pra.setWidth 64) (hypSyndrome moe s)) := by
  simp only [takeDebugRouted, h2, hr]
  rfl

/-! ### Vector addresses -/

/-- R45, R70: with well-formed bases every vector is word-aligned. -/
theorem vectorAddr_low (cfg : Config) (v : View) (t : Table) (x : XType) (hv : v.aligned) :
    vectorAddr cfg v t x &&& 3 = 0 := by
  obtain ⟨hs, hns, hm⟩ := hv
  have hof : ∀ ss, baseAligned (v.vbar.of cfg ss) = true := fun ss => by
    unfold Banked.of
    split
    · exact hns
    · exact hs
  refine base_offset_aligned _ _ ?_ (offset_low x)
  cases t with
  | localTable => exact base_if _ _ hs
  | secureLocal => exact base_if _ _ (hof .secure)
  | nonSecureLocal => exact base_if _ _ (hof .nonSecure)
  | monitor => exact hm
  | hyp => exact (by decide : baseAligned 0 = true)

theorem addr_low_of_mem_amSubset {cfg : Config} {v : View} {ss : SecurityState} {e : CatchVector} (hv : v.aligned)
    (he : e ∈ amSubset cfg v ss) : e.addr &&& 3 = 0 := by
  obtain ⟨-, -, -, ha⟩ := (mem_enabledSet_iff cfg v e).1 ((mem_amSubset cfg v ss e).1 he).1
  rw [ha]
  exact vectorAddr_low cfg v e.table e.xtype hv

/-- The low two bits of an address, as a remainder. -/
theorem low_eq_zero_iff (w : Word) : w &&& 3 = 0 ↔ w.toNat % 4 = 0 := by
  rw [← BitVec.toNat_inj, BitVec.toNat_and]
  exact Eq.congr (Nat.and_two_pow_sub_one_eq_mod w.toNat 2) rfl

/-- Two bytes after a word-aligned address stands no word-aligned address. -/
theorem ne_add_two_of_low {a b : Word} (ha : a &&& 3 = 0) (hb : b &&& 3 = 0) : b ≠ a + 2 := by
  rw [low_eq_zero_iff] at ha hb
  bv_omega

/-- R91, R92: two bytes after a compared vector only the half match on a vector four bytes after it is left. -/
theorem halfMatch_of_amCheck_two_after {c : AMChoices} {v : View} {s : State} {e : CatchVector} {len : Nat}
    (hv : v.aligned) (he : e ∈ amSubset s.cfg v s.ss) (h : amCheck c v s (e.addr + 2) len true ≠ .noVC) :
    len = 4 ∧ c.halfMatch = true ∧ ∃ e' ∈ amSubset s.cfg v s.ss, e'.addr = e.addr + 4 := by
  obtain ⟨e', he', ha | ⟨-, hlen, hhalf, ha⟩⟩ := exists_vector_of_amCheck_ne h
  · exact absurd ha (ne_add_two_of_low (addr_low_of_mem_amSubset hv he) (addr_low_of_mem_amSubset hv he'))
  · exact ⟨hlen, hhalf, e', he', by rw [ha, BitVec.add_assoc]; rfl⟩

/-! ### The step at a certain match -/

/-- The step's bookkeeping leaves a certain match certain. -/
theorem certainMatch_atInstruction {s : State} (rest : List HostInput) (h : certainMatch s) :
    certainMatch (atInstruction s rest) := by
  simpa [certainMatch] using h

/-- R85: what comes of an instruction that certainly matches, whatever its length and the free choices. -/
theorem checkCommit_of_certainMatch {s : State} (len : Nat) (h : certainMatch s) : s.checkCommit len = .vectorCatch := by
  obtain ⟨hsync, happ, hex, hab, hbrk, hfetch⟩ := h
  have hvc : amCheck (amChoices s.draws) s.view s s.addr len s.cpsr.t = .vc s.addr := by
    rw [view_of_synced s hsync]
    exact amCheck_certain _ _ s s.addr len s.cpsr.t happ hex hab hbrk
  simp [State.checkCommit, hvc, hfetch, debugOutcome, commitOutcome, highestFetch]

/-- R100: in the address-matching form every entry passes its test. -/
theorem entryPasses_of_addressMatching (s : State) (h : s.cfg.form = .addressMatching) : entryPasses s :=
  fun e _ => etCheck_off _ _ s e (etApplies_of_addressMatching s h)

/-! ### The statements -/

/-- Settles O31: the subset is the enabled vector catch set filtered by table, and what is generated comes from it. -/
theorem subsetComparedBySecurityState : Obligations.SubsetComparedBySecurityState := by
  refine ⟨fun cfg v ss h3 => ⟨amSubset_of_el3_absent cfg v ss h3, fun e => table_eq_local_of_mem_enabledSet h3⟩,
    fun cfg v e h3 => ?_, fun cfg v e h3 => ?_, fun c v s a b len isT32 h => ?_⟩
  · simp [mem_amSubset, amTable, h3]
  · simp [mem_amSubset, amTable, h3]
  · obtain ⟨e, he, ha | ⟨ht, hlen, -, ha⟩⟩ := exists_vector_of_amCheck_ne (h.trans_ne (by simp))
    · exact ⟨e, he, .inl ha⟩
    · exact ⟨e, he, .inr ⟨ht, hlen, ha⟩⟩

/-- Settles O32: outside Hyp mode the guards hold, and with no abort ignored and no breakpoint preferred the match
generates. -/
theorem everyModeButHypMatches : Obligations.EveryModeButHypMatches := by
  refine ⟨fun v s a len isT32 hform hexec hhyp huser hen he => ?_,
    fun c v s a len isT32 _ hm => amCheck_off c v s a len isT32 (amApplies_of_hyp s hm)⟩
  have hregime : s.usingAArch32Regime = true :=
    (usingAArch32Regime_iff s).2 ⟨hexec, Classical.or_iff_not_imp_left.2 fun h => huser (not_not.1 h)⟩
  have happ : s.amApplies = true := (amApplies_iff s).2 ⟨hform, hregime, hhyp, hen⟩
  exact ⟨⟨false, false, false⟩, by simp [amCheck_exact _ v s a len isT32 happ he]⟩

/-- Settles O33: User mode is at EL0, which is never ELD, so no choice stands against the match, and HCR.TGE routes it to
Hyp mode. -/
theorem tgeUserMatchGoesToHyp : Obligations.TgeUserMatchGoesToHyp := by
  intro c v s a len isT32 happ hm h2 hss htge he hbrk
  obtain ⟨-, hregime, hhyp, -⟩ := (amApplies_iff s).1 happ
  have hel : s.el = .el0 := by
    rw [el_of_aarch32 s ((usingAArch32Regime_iff s).1 hregime).1, modeEL_eq_el0, hm]
  have hne : s.el ≠ eld s.cfg v s.ss s.cpsr.m := by
    rw [hel]
    exact (eld_ne_el0 s.cfg v s.ss s.cpsr.m).symm
  refine ⟨amCheck_certain c v s a len isT32 happ he (.inr hne) hbrk, _,
    takeDebugRouted_toHyp v _ a s h2 (routeToHyp_of_tge s.cfg v s.ss s.cpsr.m h2 hss hhyp htge), rfl, rfl⟩

/-- Settles O36: vectors are word-aligned, so none stands two bytes after another. -/
theorem noMatchTwoBytesAfterAVector : Obligations.NoMatchTwoBytesAfterAVector := by
  intro c v s e len hv he
  refine ⟨fun hlen => by_contra fun h => ?_, fun hnext => by_contra fun h => ?_, fun hhalf => by_contra fun h => ?_⟩
  · obtain ⟨h4, -, -⟩ := halfMatch_of_amCheck_two_after hv he h
    omega
  · obtain ⟨-, -, e', he', ha⟩ := halfMatch_of_amCheck_two_after hv he h
    exact hnext e' he' ha
  · obtain ⟨-, hc, -⟩ := halfMatch_of_amCheck_two_after hv he h
    simp [hhalf] at hc

/-- Settles O38: the entry just made passes, and the checks before the instruction answer the Vector Catch exception. -/
theorem matchedInstructionIsNotExecuted : Obligations.MatchedInstructionIsNotExecuted := by
  intro s eff rest hnext hmatch
  have ⟨_, happ, _⟩ := hmatch
  obtain ⟨hform, -⟩ := (amApplies_iff s).1 happ
  rw [step_commits s eff rest hnext (entryPasses_of_addressMatching s hform), commitNext,
    checkCommit_of_certainMatch _ (certainMatch_atInstruction rest hmatch), atInstruction_addr]

/-- Settles O28: the guards of each form test that it is the one implemented. -/
theorem onlyTheImplementedFormActs : Obligations.OnlyTheImplementedFormActs :=
  ⟨fun c v s a len isT32 h => amCheck_off c v s a len isT32 (amApplies_of_exceptionTrapping s h),
    fun ignored v s e h => etCheck_off ignored v s e (etApplies_of_addressMatching s h)⟩

end Sys2Proof.Machine
end

section
/-! SUPPORT. Proofs of the statements about the exception-trapping form (spec file 42). -/

namespace Sys2Proof.Machine

/-! ### The table of an entry -/

/-- R102, R103: the table of an entry to a PL1 mode, by what fixes it: without EL3 nothing, with EL3 the mode and then the
Security state. -/
theorem eq_targetTable_iff (cfg : Config) (m : Mode) (ss : SecurityState) (t : Table) (hm : m ≠ .hyp) :
    t = targetTable cfg m ss ↔
      (cfg.el3 = .absent → t = .localTable) ∧
      (cfg.el3 ≠ .absent → m = .monitor → t = .monitor) ∧
      (cfg.el3 ≠ .absent → m ≠ .monitor → ss = .secure → t = .secureLocal) ∧
      (cfg.el3 ≠ .absent → m ≠ .monitor → ss = .nonSecure → t = .nonSecureLocal) := by
  by_cases h3 : cfg.el3 = .absent
  · cases m <;> simp [targetTable, h3] at hm ⊢
  · cases m <;> cases ss <;> simp [targetTable, h3] at hm ⊢

/-- R8, R66: the table of an entry to a PL1 mode that the implementation has is one of its tables. -/
theorem targetTable_mem_tables (cfg : Config) (m : Mode) (ss : SecurityState) (hm : m ≠ .hyp)
    (h3 : m = .monitor → cfg.el3 = .a32) : targetTable cfg m ss ∈ tables cfg := by
  rw [mem_tables]
  cases m with
  | hyp => exact absurd rfl hm
  | monitor => simp [targetTable, h3 rfl]
  | user | fiq | irq | supervisor | abort | undefined | system =>
    by_cases ha : cfg.el3 = .absent
    · simp [targetTable, ha]
    · cases ss <;> simp [targetTable, ha]

/-- R71: the enabled vector catch set has the vector of a type in a table that exists exactly when its enable bit is
defined and enabled. -/
theorem exists_mem_enabledSet_iff (cfg : Config) (v : View) (t : Table) (x : XType) (w : Word) (ht : t ∈ tables cfg) :
    (∃ e ∈ enabledSet cfg v, e.xtype = x ∧ e.addr = w ∧ e.table = t) ↔
      ∃ b, enableBit t x = some b ∧ enabled cfg v.dbgvcr b = true ∧ vectorAddr cfg v t x = w := by
  constructor
  · rintro ⟨e, he, rfl, rfl, rfl⟩
    obtain ⟨-, hb, hen, ha⟩ := (mem_enabledSet_iff cfg v e).1 he
    exact ⟨e.bit, hb, hen, ha.symm⟩
  · rintro ⟨b, hb, hen, rfl⟩
    exact ⟨⟨b, t, x, vectorAddr cfg v t x⟩, (mem_enabledSet_iff ..).2 ⟨ht, hb, hen, rfl⟩, rfl, rfl, rfl⟩

/-! ### ET_Check -/

/-- R110: an entry that generates a Vector Catch exception is of a type of R66, is made to an AArch32 mode, and has an
enable bit. -/
theorem entry_of_etCheck {ignored : Bool} {v : View} {s : State} {e : Entry} {w : Word}
    (h : etCheck ignored v s e = some w) :
    ∃ x m ss b, e = ⟨.x x, .mode m ss⟩ ∧ enableBit (targetTable s.cfg m ss) x = some b := by
  obtain ⟨etype, target⟩ := e
  cases target with
  | aarch64 el => simp [etCheck, etVector, etTable] at h
  | mode m ss =>
    cases etype with
    | x x =>
      obtain ⟨-, -, b, hb, -⟩ := (etCheck_mode ..).1 h
      exact ⟨x, m, ss, b, rfl, hb⟩
    | monitorTrap | hypTrap | other => simp [etCheck, etVector, etTable] at h

/-! ### The statements -/

/-- Settles O41: R102 and R103 fix one table, which exists, and its members of the enabled vector catch set are the enable
bits that `ET_Check` tests. -/
theorem subsetTestedByTheEntry : Obligations.SubsetTestedByTheEntry := by
  intro ignored v s x m ss w hm h3
  simp only [← eq_targetTable_iff s.cfg m ss _ hm]
  rw [etCheck_mode, exists_mem_enabledSet_iff s.cfg v _ x w (targetTable_mem_tables s.cfg m ss hm h3)]

/-- Settles O42: what generates is an entry of a type of R66 to an AArch32 mode with an enable bit, and the Hyp table has
none. -/
theorem entriesNeverTrapped : Obligations.EntriesNeverTrapped := by
  intro ignored v s
  refine ⟨fun t ss => ?hyp, fun tgt => ?monitorTrap, fun t el => ?aarch64, fun tgt => ?other,
    fun x m ss hno => ?noEnableBit⟩
  all_goals
    refine Option.eq_none_iff_forall_ne_some.2 fun w h => ?_
    obtain ⟨x', m', ss', b, he, hb⟩ := entry_of_etCheck h
    cases he
  case hyp => simp [targetTable] at hb
  case noEnableBit => simp [hno] at hb

end Sys2Proof.Machine
end

section
/-! SUPPORT. The meanings of the register-access instructions, one equation per outcome (R76 to R79). -/

namespace Sys2Proof.Machine

/-- R63, D22: r15 stands in no register bank. -/
@[simp] theorem gprIndex_r15 (m : Mode) : gprIndex m 15 = none := rfl

/-- R76, R77: r0 to r14 stand in the bank of every mode. -/
theorem exists_gprIndex (m : Mode) (rt : Fin 16) (h : rt.val < 15) : ∃ k, gprIndex m rt = some k := by
  unfold gprIndex
  split
  · exact ⟨_, rfl⟩
  · split
    · exact ⟨_, rfl⟩
    · split
      · exact ⟨_, rfl⟩
      · rw [if_pos (by omega)]
        exact ⟨_, rfl⟩

/-- MRC in either instruction set, with the condition of its form. -/
theorem exec_mrc {c : Cond} {rt : Fin 16} {i : Instr} (h : i = .mrcA32 c rt ∨ i = .mrcT32 rt) (s : State) :
    exec i s = readDbgvcr (conditionPassed i s) rt 4 s := by
  obtain rfl | rfl := h <;> rfl

/-- MCR in either instruction set, with the condition of its form. -/
theorem exec_mcr {c : Cond} {rt : Fin 16} {i : Instr} (h : i = .mcrA32 c rt ∨ i = .mcrT32 rt) (s : State) :
    exec i s = writeDbgvcr (conditionPassed i s) rt 4 s := by
  obtain rfl | rfl := h <;> rfl

theorem readDbgvcr_r15 (passed : Bool) (len : Nat) (s : State) :
    readDbgvcr passed 15 len s = .refused .unusableForm := by
  simp [readDbgvcr]

theorem writeDbgvcr_r15 (passed : Bool) (len : Nat) (s : State) :
    writeDbgvcr passed 15 len s = .refused .unusableForm := by
  simp [writeDbgvcr]

end Sys2Proof.Machine
end

section
/-! SUPPORT. Proofs of the statements about encodings (spec file 30). -/

namespace Sys2Proof

open Machine

/-! ### A field put into a pattern -/

/-- The bits of a word outside the `n` bits from bit `k` on. -/
def outsideField (k n : Nat) : Word :=
  ~~~((BitVec.allOnes n).setWidth 32 <<< k)

theorem and_outsideField_getLsbD (w : Word) (k n : Nat) {i : Nat} (hi : i < 32) :
    (w &&& outsideField k n).getLsbD i = (w.getLsbD i && (decide (i < k) || decide (k + n ≤ i))) := by
  have hin : ((BitVec.allOnes n).setWidth 32 <<< k).getLsbD i = (decide (k ≤ i) && decide (i < k + n)) := by
    rw [BitVec.getLsbD_shiftLeft, BitVec.getLsbD_setWidth, BitVec.getLsbD_allOnes, Bool.eq_iff_iff]
    simp only [Bool.and_eq_true, Bool.not_eq_true', decide_eq_true_eq, decide_eq_false_iff_not]
    omega
  rw [outsideField, BitVec.getLsbD_and, BitVec.getLsbD_not, hin]
  grind

theorem pattern_or_field_getLsbD (p : Word) (k : Nat) {n : Nat} (x : BitVec n) {i : Nat} (hi : i < 32) :
    (p ||| x.setWidth 32 <<< k).getLsbD i = (p.getLsbD i || (decide (k ≤ i) && x.getLsbD (i - k))) := by
  simp only [BitVec.getLsbD_or, BitVec.getLsbD_shiftLeft, BitVec.getLsbD_setWidth]
  grind

/-- A word is a pattern with a field put in exactly when it is the pattern outside the field and has the field. -/
theorem eq_pattern_or_field_iff {m : Word} {k n : Nat} (hm : m = outsideField k n) (hk : k + n ≤ 32) (w p : Word)
    (x : BitVec n) (hp : p &&& m = p) :
    w = p ||| x.setWidth 32 <<< k ↔ w &&& m = p ∧ w.extractLsb' k n = x := by
  subst hm
  have hx : ∀ j, n ≤ j → x.getLsbD j = false := fun j => BitVec.getLsbD_of_ge x j
  have hpbit : ∀ i < 32, (p.getLsbD i && (decide (i < k) || decide (k + n ≤ i))) = p.getLsbD i := fun i hi => by
    rw [← and_outsideField_getLsbD p k n hi, hp]
  constructor
  · rintro rfl
    refine ⟨BitVec.eq_of_getLsbD_eq fun i hi => ?_, BitVec.eq_of_getLsbD_eq fun i hi => ?_⟩
    · rw [and_outsideField_getLsbD _ k n hi, pattern_or_field_getLsbD p k x hi]
      grind
    · rw [BitVec.getLsbD_extractLsb', pattern_or_field_getLsbD p k x (by omega)]
      grind
  · rintro ⟨hw, rfl⟩
    refine BitVec.eq_of_getLsbD_eq fun i hi => ?_
    have hwbit := and_outsideField_getLsbD w k n hi
    rw [hw] at hwbit
    rw [pattern_or_field_getLsbD p k _ hi, BitVec.getLsbD_extractLsb']
    grind

/-! ### The operands of a word -/

/-- R59: the condition field of a word is a condition's exactly when bits 31:28 are its four bits. -/
theorem condField_eq_some_iff (w : Word) (c : Cond) :
    condField w = some c ↔ w.extractLsb' 28 4 = (condBits c).setWidth 4 := by
  unfold condField
  generalize w.extractLsb' 28 4 = x
  revert x
  cases c <;> decide

/-- R63: the reserved condition is 1111 and no other. -/
theorem condField_eq_none_iff (w : Word) : condField w = none ↔ w.extractLsb' 28 4 = 0b1111 := by
  unfold condField
  generalize w.extractLsb' 28 4 = x
  revert x
  decide

theorem rtField_eq_iff (w : Word) (rt : Fin 16) : rtField w = rt ↔ w.extractLsb' 12 4 = BitVec.ofFin (w := 4) rt :=
  ⟨fun h => congrArg (BitVec.ofFin (w := 4)) h, fun h => congrArg BitVec.toFin h⟩

theorem xtField_eq_iff (w : Word) (rt : Fin 32) : xtField w = rt ↔ w.extractLsb' 0 5 = BitVec.ofFin (w := 5) rt :=
  ⟨fun h => congrArg (BitVec.ofFin (w := 5)) h, fun h => congrArg BitVec.toFin h⟩

theorem ofNat_eq_setWidth_ofFin {n : Nat} (x : Fin (2 ^ n)) :
    BitVec.ofNat 32 x.val = (BitVec.ofFin x).setWidth 32 := by
  rw [← BitVec.ofNat_toNat, BitVec.toNat_ofFin]

theorem condBits_eq_setWidth (c : Cond) : condBits c = ((condBits c).setWidth 4).setWidth 32 := by
  cases c <;> rfl

/-! ### The words of the rows (R61) -/

theorem OpcodeRow.selects_iff (r : OpcodeRow) (w : Word) : r.selects w = true ↔ w &&& r.mask = r.pattern := by
  simp [OpcodeRow.selects]

/-- The word of an A64 row: `Xt` put into the pattern. -/
theorem eq_a64Word_iff (r : OpcodeRow) (hm : r.mask = 0xFFFFFFE0) (hp : r.pattern &&& r.mask = r.pattern) (w : Word)
    (rt : Fin 32) : w = r.pattern ||| BitVec.ofNat 32 rt.val ↔ r.selects w = true ∧ xtField w = rt := by
  rw [r.selects_iff, xtField_eq_iff, ofNat_eq_setWidth_ofFin (n := 5) rt, ← BitVec.shiftLeft_zero (BitVec.setWidth 32 _),
    eq_pattern_or_field_iff hm (by decide) w _ _ hp]

/-- The word of a T32 row: `Rt` put into the pattern. -/
theorem eq_t32Word_iff (r : OpcodeRow) (hm : r.mask = 0xFFFF0FFF) (hp : r.pattern &&& r.mask = r.pattern) (w : Word)
    (rt : Fin 16) : w = mrcMcrWord r.pattern 0 rt ↔ r.selects w = true ∧ rtField w = rt := by
  have hword : mrcMcrWord r.pattern 0 rt = r.pattern ||| BitVec.ofNat 32 rt.val <<< 12 := by simp [mrcMcrWord]
  rw [hword, r.selects_iff, rtField_eq_iff, ofNat_eq_setWidth_ofFin (n := 4) rt,
    eq_pattern_or_field_iff hm (by decide) w _ _ hp]

theorem condBits_outside_rt (c : Cond) : condBits c <<< 28 &&& (0xFFFF0FFF : Word) = condBits c <<< 28 := by
  cases c <;> rfl

/-- The word of an A32 row: the condition, then `Rt`, put into the pattern. -/
theorem eq_a32Word_iff (r : OpcodeRow) (hm : r.mask = 0x0FFF0FFF) (hp : r.pattern &&& r.mask = r.pattern) (w : Word)
    (c : Cond) (rt : Fin 16) :
    w = mrcMcrWord r.pattern (condBits c) rt ↔ r.selects w = true ∧ condField w = some c ∧ rtField w = rt := by
  have hprt : r.pattern &&& (0xFFFF0FFF : Word) = r.pattern := by rw [← hp, hm, BitVec.and_assoc]; rfl
  have hpcond : r.pattern &&& (0x0FFFFFFF : Word) = r.pattern := by rw [← hp, hm, BitVec.and_assoc]; rfl
  have hbase : (r.pattern ||| condBits c <<< 28) &&& (0xFFFF0FFF : Word) = r.pattern ||| condBits c <<< 28 := by
    rw [BitVec.and_or_distrib_right, hprt, condBits_outside_rt]
  have hcond : (w &&& (0xFFFF0FFF : Word)).extractLsb' 28 4 = w.extractLsb' 28 4 := by
    rw [BitVec.extractLsb'_and]
    exact BitVec.and_allOnes
  have hmask : (0xFFFF0FFF : Word) &&& 0x0FFFFFFF = r.mask := hm.symm
  rw [mrcMcrWord, ofNat_eq_setWidth_ofFin (n := 4) rt, rtField_eq_iff,
    eq_pattern_or_field_iff (m := 0xFFFF0FFF) rfl (by decide) w _ _ hbase, condBits_eq_setWidth c,
    eq_pattern_or_field_iff (m := 0x0FFFFFFF) rfl (by decide) _ _ _ hpcond, hcond, condField_eq_some_iff,
    BitVec.and_assoc, hmask, and_assoc, r.selects_iff]

/-! ### The decoder of a word -/

/-- Two rows with one mask select no word together. -/
theorem OpcodeRow.not_selects {r r' : OpcodeRow} {w : Word} (hm : r.mask = r'.mask) (hne : r.pattern ≠ r'.pattern)
    (h : r'.selects w = true) : r.selects w = false := by
  rw [← Bool.not_eq_true, OpcodeRow.selects_iff, hm, (OpcodeRow.selects_iff r' w).1 h]
  exact hne.symm

/-- A word decodes to what the row that selects it gives, when no other row of its set does. -/
theorem two_rows_eq_ok_iff (r r' : OpcodeRow) (hm : r.mask = r'.mask) (hne : r.pattern ≠ r'.pattern) (w : Word)
    (x x' : Except DecodeError Instr) (e : DecodeError) (i : Instr) :
    (if r.selects w then x else if r'.selects w then x' else .error e) = .ok i ↔
      (r.selects w = true ∧ x = .ok i) ∨ (r'.selects w = true ∧ x' = .ok i) := by
  cases h' : r'.selects w with
  | true => simp [OpcodeRow.not_selects hm hne h']
  | false => cases r.selects w <;> simp

theorem a32Operands_eq_ok_iff (build : Cond → Fin 16 → Instr) (w : Word) (i : Instr) :
    a32Operands build w = .ok i ↔
      ∃ c rt, i = build c rt ∧ condField w = some c ∧ rtField w = rt ∧ usableRt rt = true := by
  unfold a32Operands
  cases condField w with
  | none => simp
  | some c => cases h : usableRt (rtField w) <;> simp [h, eq_comm]

theorem t32Operands_eq_ok_iff (build : Fin 16 → Instr) (w : Word) (i : Instr) :
    t32Operands build w = .ok i ↔ ∃ rt, i = build rt ∧ rtField w = rt ∧ usableRt rt = true := by
  unfold t32Operands
  cases h : usableRt (rtField w) <;> simp [h, eq_comm]

/-- R61: a word decodes to an instruction exactly when it is the word of that well-formed instruction of the set. -/
theorem decodeWord_eq_ok_iff (set : ISet) (w : Word) (i : Instr) :
    decodeWord set w = .ok i ↔ i.wellFormed = true ∧ i.set = set ∧ w = encodeWord i := by
  cases set with
  | a32 =>
    rw [decodeWord, two_rows_eq_ok_iff rowMrcA32 rowMcrA32 rfl (by decide), a32Operands_eq_ok_iff,
      a32Operands_eq_ok_iff]
    cases i with
    | mrcA32 c rt => grind [Instr.wellFormed, Instr.set, encodeWord, eq_a32Word_iff rowMrcA32 rfl rfl]
    | mcrA32 c rt => grind [Instr.wellFormed, Instr.set, encodeWord, eq_a32Word_iff rowMcrA32 rfl rfl]
    | _ => simp [Instr.set]
  | t32 =>
    rw [decodeWord, two_rows_eq_ok_iff rowMrcT32 rowMcrT32 rfl (by decide), t32Operands_eq_ok_iff,
      t32Operands_eq_ok_iff]
    cases i with
    | mrcT32 rt => grind [Instr.wellFormed, Instr.set, encodeWord, eq_t32Word_iff rowMrcT32 rfl rfl]
    | mcrT32 rt => grind [Instr.wellFormed, Instr.set, encodeWord, eq_t32Word_iff rowMcrT32 rfl rfl]
    | _ => simp [Instr.set]
  | a64 =>
    rw [decodeWord, two_rows_eq_ok_iff rowMrsA64 rowMsrA64 rfl (by decide)]
    cases i with
    | mrsA64 rt => simp [Instr.set, Instr.wellFormed, encodeWord, eq_a64Word_iff rowMrsA64 rfl rfl]
    | msrA64 rt => simp [Instr.set, Instr.wellFormed, encodeWord, eq_a64Word_iff rowMsrA64 rfl rfl]
    | _ => simp [Instr.set]

/-! ### The decoder of bytes -/

/-- The word of four bytes has them, at the four places. -/
theorem bytes_of_append (b0 b1 b2 b3 : Byte) :
    (b3 ++ b2 ++ b1 ++ b0).extractLsb' 0 8 = b0 ∧ (b3 ++ b2 ++ b1 ++ b0).extractLsb' 8 8 = b1 ∧
      (b3 ++ b2 ++ b1 ++ b0).extractLsb' 16 8 = b2 ∧ (b3 ++ b2 ++ b1 ++ b0).extractLsb' 24 8 = b3 := by
  refine ⟨?_, ?_, ?_, ?_⟩
  all_goals
    refine BitVec.eq_of_getLsbD_eq fun i hi => ?_
    simp only [BitVec.getLsbD_extractLsb', BitVec.getLsbD_append]
    grind

/-- The bytes of a word, in the order the hardware stores them, determine it. -/
theorem bytesOfWord_wordOfBytes (set : ISet) (b0 b1 b2 b3 : Byte) :
    bytesOfWord set (wordOfBytes set b0 b1 b2 b3) = [b0, b1, b2, b3] := by
  have h := bytes_of_append
  cases set <;> simp [bytesOfWord, wordOfBytes, h]

theorem halfword_of_its_bytes (w : Word) : w.extractLsb' 24 8 ++ w.extractLsb' 16 8 = w.extractLsb' 16 16 :=
  BitVec.extractLsb'_append_extractLsb'_eq_extractLsb' rfl

/-- R58 to R60: the bytes of a word decode as the word does, but in T32 those whose first halfword is an instruction. -/
theorem decode_bytesOfWord (set : ISet) (w : Word) (rest : List Byte) :
    decode set (bytesOfWord set w ++ rest) =
      if set = .t32 ∧ t32IsWide (w.extractLsb' 16 16) = false then .error .outsideTable
      else (decodeWord set w).map (·, rest) := by
  have hw := word_of_its_bytes w
  have hh := halfword_of_its_bytes w
  cases set <;> simp only [bytesOfWord, decode, wordOfBytes] <;> grind

theorem firstHalfword_of_selects {r : OpcodeRow} {w : Word} (hm : r.mask = 0xFFFF0FFF) (h : r.selects w = true) :
    w.extractLsb' 16 16 = r.pattern.extractLsb' 16 16 := by
  rw [← (r.selects_iff w).1 h, hm, BitVec.extractLsb'_and]
  exact BitVec.and_allOnes.symm

/-- R58: the T32 instructions of the table are 32 bits long. -/
theorem t32IsWide_encodeWord (i : Instr) (h : i.set = .t32) : t32IsWide ((encodeWord i).extractLsb' 16 16) = true := by
  cases i with
  | mrcT32 rt =>
    have hsel := ((eq_t32Word_iff rowMrcT32 rfl rfl (encodeWord (.mrcT32 rt)) rt).1 rfl).1
    rw [firstHalfword_of_selects rfl hsel]
    rfl
  | mcrT32 rt =>
    have hsel := ((eq_t32Word_iff rowMcrT32 rfl rfl (encodeWord (.mcrT32 rt)) rt).1 rfl).1
    rw [firstHalfword_of_selects rfl hsel]
    rfl
  | _ => cases h

/-- Bytes that decode are those of a word that decodes to the same instruction, and the bytes left over. -/
theorem word_of_decode {set : ISet} {bytes rest : List Byte} {i : Instr} (h : decode set bytes = .ok (i, rest)) :
    ∃ w, bytes = bytesOfWord set w ++ rest ∧ decodeWord set w = .ok i := by
  match bytes with
  | b0 :: b1 :: b2 :: b3 :: rest' =>
    have hb := bytesOfWord_wordOfBytes set b0 b1 b2 b3
    generalize wordOfBytes set b0 b1 b2 b3 = w at hb
    rw [show b0 :: b1 :: b2 :: b3 :: rest' = bytesOfWord set w ++ rest' by rw [hb]; rfl, decode_bytesOfWord] at h
    split at h
    · cases h
    · cases hw : decodeWord set w with
      | error e => simp [hw, Except.map] at h
      | ok j =>
        simp only [hw, Except.map, Except.ok.injEq, Prod.mk.injEq] at h
        obtain ⟨rfl, rfl⟩ := h
        exact ⟨w, by rw [hb]; rfl, hw⟩
  | [] | [_] => cases h
  | [_, _] | [_, _, _] =>
    simp only [decode] at h
    split at h <;> cases h

theorem decodeWord_encodeWord {i : Instr} (h : i.wellFormed = true) : decodeWord i.set (encodeWord i) = .ok i :=
  (decodeWord_eq_ok_iff _ _ i).2 ⟨h, rfl, rfl⟩

/-- R63: a word of a row is refused for its condition or its `Rt`, not as outside the table. -/
theorem a32Operands_ne_outsideTable (build : Cond → Fin 16 → Instr) (w : Word) :
    a32Operands build w ≠ .error .outsideTable := by
  unfold a32Operands
  cases condField w with
  | none => simp
  | some c => cases usableRt (rtField w) <;> simp

theorem t32Operands_ne_outsideTable (build : Fin 16 → Instr) (w : Word) :
    t32Operands build w ≠ .error .outsideTable := by
  unfold t32Operands
  cases usableRt (rtField w) <;> simp

/-- A word is outside the table when neither row of its set selects it. -/
theorem two_rows_outside_iff (r r' : OpcodeRow) (w : Word) {x x' : Except DecodeError Instr}
    (hx : x ≠ .error .outsideTable) (hx' : x' ≠ .error .outsideTable) :
    (if r.selects w then x else if r'.selects w then x' else .error .outsideTable) = .error .outsideTable ↔
      r.selects w = false ∧ r'.selects w = false := by
  cases r.selects w <;> cases r'.selects w <;> simp [hx, hx']

/-- What both rows of a set refuse alike, a word of either row is refused. -/
theorem two_rows_eq_error {r r' : OpcodeRow} {w : Word} (hrow : w &&& r.mask = r.pattern ∨ w &&& r'.mask = r'.pattern)
    {x x' : Except DecodeError Instr} {e e' : DecodeError} (hx : x = .error e) (hx' : x' = .error e) :
    (if r.selects w then x else if r'.selects w then x' else .error e') = .error e := by
  simp only [← OpcodeRow.selects_iff] at hrow
  cases h : r.selects w with
  | true => exact hx
  | false =>
    rw [hrow.resolve_left (by simp [h])]
    exact hx'

theorem a32Operands_reserved (build : Cond → Fin 16 → Instr) {w : Word} (h : condField w = none) :
    a32Operands build w = .error .reservedCondition := by
  simp [a32Operands, h]

theorem a32Operands_unusable (build : Cond → Fin 16 → Instr) {w : Word} (hc : condField w ≠ none) (hrt : rtField w = 15) :
    a32Operands build w = .error .unusableRt := by
  obtain ⟨c, hc⟩ := Option.ne_none_iff_exists'.1 hc
  simp [a32Operands, hc, hrt, usableRt]

theorem t32Operands_unusable (build : Fin 16 → Instr) {w : Word} (hrt : rtField w = 15) :
    t32Operands build w = .error .unusableRt := by
  simp [t32Operands, hrt, usableRt]

/-! ### The statements -/

/-- Settles O2: the bytes decode as the word does, and the word decodes to the well-formed instruction it is of. -/
theorem decodeOfEncode : Obligations.DecodeOfEncode := by
  intro i rest hwf
  rw [encode, decode_bytesOfWord, decodeWord_encodeWord hwf, if_neg fun h => by simp [t32IsWide_encodeWord i h.1] at h]
  rfl

/-- Settles O3: the bytes are those of a word, which is the instruction's, since no row has two instructions of one word. -/
theorem decodedBytesAreTheEncoding : Obligations.DecodedBytesAreTheEncoding := by
  intro set bytes rest i h
  obtain ⟨w, hbytes, hw⟩ := word_of_decode h
  obtain ⟨hwf, rfl, rfl⟩ := (decodeWord_eq_ok_iff set w i).1 hw
  exact ⟨hwf, rfl, hbytes⟩

/-- Settles O4: of the six rows the two of the set are tested, and what they select is refused by another name. -/
theorem outsideTheTableMeansNoRow : Obligations.OutsideTheTableMeansNoRow := by
  intro set w
  have hrows : (∀ r ∈ opcodeRows, r.set = set → w &&& r.mask ≠ r.pattern) ↔
      match set with
      | .a32 => rowMrcA32.selects w = false ∧ rowMcrA32.selects w = false
      | .t32 => rowMrcT32.selects w = false ∧ rowMcrT32.selects w = false
      | .a64 => rowMrsA64.selects w = false ∧ rowMsrA64.selects w = false := by
    cases set <;>
      simp [opcodeRows, OpcodeRow.selects, rowMrcA32, rowMcrA32, rowMrcT32, rowMcrT32, rowMrsA64, rowMsrA64]
  rw [hrows]
  cases set with
  | a32 => exact two_rows_outside_iff _ _ w (a32Operands_ne_outsideTable _ w) (a32Operands_ne_outsideTable _ w)
  | t32 => exact two_rows_outside_iff _ _ w (t32Operands_ne_outsideTable _ w) (t32Operands_ne_outsideTable _ w)
  | a64 => exact two_rows_outside_iff _ _ w (by simp) (by simp)

/-- Settles O5: both rows of a set refuse an operand alike, and r15 stands in no register bank. -/
theorem unusableFormsAreRefused : Obligations.UnusableFormsAreRefused := by
  refine ⟨fun w hrow => ⟨fun hcond => ?_, fun hcond hrt => ?_⟩, fun w hrow hrt => ?_, fun c s => ?_⟩
  · have hnone := (condField_eq_none_iff w).2 hcond
    exact two_rows_eq_error hrow (a32Operands_reserved _ hnone) (a32Operands_reserved _ hnone)
  · have hsome := mt (condField_eq_none_iff w).1 hcond
    have h15 := (rtField_eq_iff w 15).2 hrt
    exact two_rows_eq_error hrow (a32Operands_unusable _ hsome h15) (a32Operands_unusable _ hsome h15)
  · have h15 := (rtField_eq_iff w 15).2 hrt
    exact two_rows_eq_error hrow (t32Operands_unusable _ h15) (t32Operands_unusable _ h15)
  · rw [exec_mrc (.inl rfl), exec_mcr (.inl rfl), exec_mrc (c := c) (.inr rfl), exec_mcr (c := c) (.inr rfl)]
    exact ⟨readDbgvcr_r15 _ 4 s, writeDbgvcr_r15 _ 4 s, readDbgvcr_r15 _ 4 s, writeDbgvcr_r15 _ 4 s⟩

/-- Settles O1: each list of bytes is the encoding of the well-formed instruction. -/
theorem workedEncodingsDecode : Obligations.WorkedEncodingsDecode :=
  ⟨decodeOfEncode (.mcrA32 .al 0) [] rfl, decodeOfEncode (.mrcA32 .al 1) [] rfl, decodeOfEncode (.mcrA32 .ne 0) [] rfl,
    decodeOfEncode (.mcrT32 0) [] rfl, decodeOfEncode (.mrcT32 1) [] rfl, decodeOfEncode (.msrA64 0) [] rfl,
    decodeOfEncode (.mrsA64 3) [] rfl⟩

end Sys2Proof
end

section
/-! SUPPORT. Proofs of the statements about what every step keeps (spec files 00, 20, 60, 70). -/

namespace Sys2Proof.Machine

/-! ### Well-formedness -/

/-- What comes of the next instruction keeps a state well-formed. -/
theorem commitNext_wf {eff : Option HostEffect} {s t : State} (hwf : s.WF = true) (hn : s.entered = none)
    (h : commitNext eff s = .next t) : t.WF = true := by
  have hwf' := tick_wf s hwf
  rcases commitNext_next eff s t h with ⟨hc, ht⟩ | ⟨hc, ht⟩ | ⟨e, -, ht⟩ | ⟨-, i, left, -, ht⟩ | ⟨-, x, -, ht⟩
  · obtain ⟨hr, hm⟩ := checkCommit_debug s _ (.inl hc)
    exact takeDebug_wf _ _ _ s.tick t hwf' hr hm ht
  · obtain ⟨hr, hm⟩ := checkCommit_debug s _ (.inr hc)
    exact takeDebug_wf _ _ _ s.tick t hwf' hr hm ht
  · exact hostException_wf e _ s.tick t hwf' ht
  · exact exec_wf i s.tick t hwf' hn ht
  · exact hostRun_wf x _ s.tick t hwf' hn (instrLength_cases s) ht

/-- A PE step keeps a state well-formed. -/
theorem peStep_wf {s t : State} (hwf : s.WF = true) (hn : s.entered = none) (h : peStep s = .next t) : t.WF = true := by
  rcases peStep_next s t h with ⟨e, rest, -, ht⟩ | ⟨p, rest, -, rfl⟩ | ⟨eff, rest, -, ht⟩
  · exact hostException_wf e 0 { s with inputs := rest } t hwf ht
  · exact hwf
  · exact commitNext_wf (s := { s with inputs := rest }) hwf hn ht

/-- Forgetting the entry just made keeps a state well-formed. -/
theorem forgetEntry_wf {s : State} (hwf : s.WF = true) : ({ s.tick with entered := none } : State).WF = true := by
  obtain ⟨h1, h2, h3, h4, h5, h6, h7, -⟩ := (wf_parts s).1 hwf
  exact (wf_parts _).2 ⟨h1, h2, h3, h4, h5, h6, h7, rfl⟩

/-- Settles O55: the Vector Catch exception of an entry is taken in an AArch32 regime outside Hyp mode, and with the entry
forgotten a PE step keeps the state well-formed. -/
theorem stepKeepsWellFormed : Obligations.StepKeepsWellFormed := by
  intro s t hwf h
  obtain ⟨-, -, ⟨e, v, he, hv, ht⟩ | ⟨hn, ht⟩ | ⟨e, -, -, ht⟩⟩ := step_next s t h
  · obtain ⟨hr, hm⟩ := et_facts _ _ s e v hwf he hv
    exact takeDebug_wf _ _ _ s.tick t (tick_wf s hwf) hr hm ht
  · exact peStep_wf hwf hn ht
  · exact peStep_wf (forgetEntry_wf hwf) rfl ht

/-! ### What a step can do -/

/-- The state in which the next instruction is checked is the state but for the model's own bookkeeping. -/
theorem atInstruction_eq (s : State) (rest : List HostInput) :
    ∃ n, atInstruction s rest = { s with inputs := rest, entered := none, draws := n } := by
  unfold atInstruction
  split
  · rename_i he
    exact ⟨s.draws, by rw [← he]⟩
  · exact ⟨s.draws + 1, rfl⟩

theorem atInstruction_of_none {s : State} (h : s.entered = none) (rest : List HostInput) :
    atInstruction s rest = { s with inputs := rest } := by
  simp only [atInstruction, h]

theorem atInstruction_of_some {s : State} {e : Entry} (h : s.entered = some e) (rest : List HostInput) :
    atInstruction s rest = { s.tick with entered := none, inputs := rest } := by
  simp only [atInstruction, h]

/-- R141: a step takes the Vector Catch exception of the entry just made; or, with that entry passed, an exception or a
change of parameters that the host PE brings, or what comes of the next instruction. -/
theorem step_next_cases {s t : State} (h : step s = .next t) :
    (∃ e v, s.entered = some e ∧ etCheck (Config.choose .abortVectorTrap s.draws) s.view s e = some v ∧
      takeVC v s.tick = .next t) ∨
    (entryPasses s ∧ ∃ rest,
      (∃ e, hostException e 0 (atInstruction s rest) = .next t) ∨
      (∃ p, t = { atInstruction s rest with params := p }) ∨
      ∃ eff, nextIsInstruction s eff rest ∧ commitNext eff (atInstruction s rest) = .next t) := by
  obtain ⟨hl, hb, ⟨e, v, he, hv, ht⟩ | ⟨hn, ht⟩ | ⟨e, he, hv, ht⟩⟩ := step_next s t h
  · exact .inl ⟨e, v, he, hv, ht⟩
  · refine .inr ⟨fun e he => by simp [hn] at he, ?_⟩
    rcases peStep_next s t ht with ⟨e, rest, -, ht⟩ | ⟨p, rest, -, rfl⟩ | ⟨eff, rest, hi, ht⟩
    · exact ⟨rest, .inl ⟨e, by rwa [atInstruction_of_none hn]⟩⟩
    · exact ⟨rest, .inr (.inl ⟨p, by rw [atInstruction_of_none hn]⟩)⟩
    · exact ⟨rest, .inr (.inr ⟨eff, ⟨hl, hb, hi⟩, by rwa [atInstruction_of_none hn]⟩)⟩
  · refine .inr ⟨fun e' he' => by rwa [Option.some.inj (he.symm.trans he')] at hv, ?_⟩
    rcases peStep_next _ t ht with ⟨e', rest, -, ht⟩ | ⟨p, rest, -, rfl⟩ | ⟨eff, rest, hi, ht⟩
    · exact ⟨rest, .inl ⟨e', by rwa [atInstruction_of_some he]⟩⟩
    · exact ⟨rest, .inr (.inl ⟨p, by rw [atInstruction_of_some he]⟩)⟩
    · exact ⟨rest, .inr (.inr ⟨eff, ⟨hl, hb, hi⟩, by rwa [atInstruction_of_some he]⟩)⟩

/-- `u` is `s` but for the model's own bookkeeping: the queue, the entry to test, the count of draws. -/
def sameButBookkeeping (s u : State) : Prop :=
  ∃ inputs entered draws, u = { s with inputs := inputs, entered := entered, draws := draws }

theorem sameButBookkeeping_atInstruction (s : State) (rest : List HostInput) :
    sameButBookkeeping s (atInstruction s rest) := by
  obtain ⟨n, hn⟩ := atInstruction_eq s rest
  exact ⟨rest, none, n, hn⟩

theorem sameButBookkeeping_atInstruction_tick (s : State) (rest : List HostInput) :
    sameButBookkeeping s (atInstruction s rest).tick := by
  obtain ⟨n, hn⟩ := atInstruction_eq s rest
  exact ⟨rest, none, n + 1, by rw [hn]; rfl⟩

@[simp] theorem atInstruction_entered (s : State) (rest : List HostInput) : (atInstruction s rest).entered = none := by
  obtain ⟨n, hn⟩ := atInstruction_eq s rest
  rw [hn]

/-- The operations a step ends with, from the state but for its bookkeeping; with no entry left to test unless that entry's
own Vector Catch exception is taken. -/
theorem step_cases {s t : State} (h : step s = .next t) :
    ∃ u, sameButBookkeeping s u ∧
      ((∃ v moe pra, takeDebugRouted v moe pra u = .next t) ∨
        (u.entered = none ∧
          ((∃ e len, hostException e len u = .next t) ∨ (∃ p, t = { u with params := p }) ∨
            (∃ i, exec i u = .next t) ∨ ∃ x len, hostRun x len u = .next t))) := by
  rcases step_next_cases h with ⟨e, v, -, -, ht⟩ | ⟨-, rest, ⟨e, ht⟩ | ⟨p, ht⟩ | ⟨eff, -, hc⟩⟩
  · exact ⟨s.tick, ⟨s.inputs, s.entered, s.draws + 1, rfl⟩, .inl ⟨_, _, _, ht⟩⟩
  · exact ⟨_, sameButBookkeeping_atInstruction s rest, .inr ⟨by simp, .inl ⟨e, 0, ht⟩⟩⟩
  · exact ⟨_, sameButBookkeeping_atInstruction s rest, .inr ⟨by simp, .inr (.inl ⟨p, ht⟩)⟩⟩
  · refine ⟨_, sameButBookkeeping_atInstruction_tick s rest, ?_⟩
    rcases commitNext_next _ _ t hc with ⟨-, ht⟩ | ⟨-, ht⟩ | ⟨e, -, ht⟩ | ⟨-, i, -, -, ht⟩ | ⟨-, x, -, ht⟩
    · exact .inl ⟨_, _, _, ht⟩
    · exact .inl ⟨_, _, _, ht⟩
    · exact .inr ⟨by simp, .inl ⟨e, _, ht⟩⟩
    · exact .inr ⟨by simp, .inr (.inr (.inl ⟨i, ht⟩))⟩
    · exact .inr ⟨by simp, .inr (.inr (.inr ⟨x, _, ht⟩))⟩

/-- How an instruction outside the opcode table can end. -/
theorem hostFlow_next {f : HostFlow} {len : Nat} {s t : State} (h : hostFlow f len s = .next t) :
    t = s.movePc len ∨ t = s.sync.movePc len ∨ (∃ a b, t = branchTo a b s) ∨
      (∃ e, f = .takes e ∧ hostException e len s = .next t) ∨ ∃ x p target, t = restored x p target s := by
  cases f with
  | next => cases h; exact .inl rfl
  | sync => cases h; exact .inr (.inl rfl)
  | branch a b => cases h; exact .inr (.inr (.inl ⟨a, b, rfl⟩))
  | takes e => exact .inr (.inr (.inr (.inl ⟨e, rfl, h⟩)))
  | subsPcLr imm =>
    obtain ⟨p, target, -, hr⟩ := returnSubs_next imm s t h
    exact .inr (.inr (.inr (.inr ⟨_, p, target, (restore_next _ _ _ _ _ hr).1⟩)))
  | eret =>
    obtain ⟨x, p, target, hr⟩ := returnEret_next s t h
    exact .inr (.inr (.inr (.inr ⟨x, p, target, (restore_next _ _ _ _ _ hr).1⟩)))

/-- What the writes of an instruction outside the opcode table leave alone. -/
theorem hostWrites_spec (ws : List HostWrite) (s : State) :
    (ws.foldl applyWrite s).cfg = s.cfg ∧ (ws.foldl applyWrite s).el1is32 = s.el1is32 ∧
      (ws.foldl applyWrite s).el0is32 = s.el0is32 ∧ (ws.foldl applyWrite s).syn = s.syn ∧
      (ws.foldl applyWrite s).entered = s.entered := by
  induction ws generalizing s with
  | nil => exact ⟨rfl, rfl, rfl, rfl, rfl⟩
  | cons w ws ih =>
    obtain ⟨h1, h2, h3, -, -, -, -, h8, -, -, h11, -⟩ := applyWrite_spec s w
    obtain ⟨k1, k2, k3, k4, k5⟩ := ih (applyWrite s w)
    exact ⟨k1.trans h1, k2.trans h2, k3.trans h3, k4.trans h8, k5.trans h11⟩

/-- The state in which an instruction outside the opcode table ends, after its writes. -/
theorem hostRun_flow {eff : HostEffect} {len : Nat} {s t : State} (h : hostRun eff len s = .next t) :
    ∃ u, hostFlow eff.flow len u = .next t ∧ u.cfg = s.cfg ∧ u.el1is32 = s.el1is32 ∧ u.el0is32 = s.el0is32 ∧
      u.syn = s.syn ∧ u.entered = s.entered ∧ u.ctl.dbgvcr = s.ctl.dbgvcr := by
  obtain ⟨u, rfl, -, -, hf⟩ := hostRun_next eff len s t h
  obtain ⟨x, hx⟩ := eff.start_eq s
  refine ⟨_, hf, ?_⟩
  rw [hx]
  obtain ⟨h1, h2, h3, h4, h5⟩ := hostWrites_spec eff.writes { s with cpsr := { s.cpsr with it := x } }
  exact ⟨h1, h2, h3, h4, h5, hostWrites_dbgvcr _ _⟩

/-! ### The configuration -/

/-- `t` has the implementation and the Execution states of EL1 and EL0 that `s` has. -/
def sameConfig (s t : State) : Prop :=
  t.cfg = s.cfg ∧ t.el1is32 = s.el1is32 ∧ t.el0is32 = s.el0is32

theorem takeDebugRouted_config {v : View} {moe : BitVec 4} {pra : Word} {s t : State}
    (h : takeDebugRouted v moe pra s = .next t) : sameConfig s t := by
  obtain ⟨-, rfl⟩ | ⟨-, rfl⟩ := takeDebugRouted_next v moe pra s t h <;> exact ⟨rfl, rfl, rfl⟩

theorem hostException_config {e : Entry} {len : Nat} {s t : State} (h : hostException e len s = .next t) :
    sameConfig s t := by
  obtain ⟨⟨pra, link, rfl⟩, -⟩ := hostException_next e len s t h
  simp [sameConfig]

theorem exec_config {i : Instr} {s t : State} (h : exec i s = .next t) : sameConfig s t := by
  obtain rfl | rfl | ⟨k, v, rfl⟩ | ⟨n, v, rfl⟩ | ⟨-, w, rfl⟩ := exec_next i s t h
  all_goals simp [sameConfig, raiseUndefined]

theorem hostFlow_config {f : HostFlow} {len : Nat} {s t : State} (h : hostFlow f len s = .next t) : sameConfig s t := by
  obtain rfl | rfl | ⟨a, b, rfl⟩ | ⟨e, -, h⟩ | ⟨x, p, target, rfl⟩ := hostFlow_next h
  · simp [sameConfig]
  · simp [sameConfig]
  · simp [sameConfig]
  · exact hostException_config h
  · exact ⟨rfl, rfl, rfl⟩

theorem hostRun_config {eff : HostEffect} {len : Nat} {s t : State} (h : hostRun eff len s = .next t) : sameConfig s t := by
  obtain ⟨u, hf, h1, h2, h3, -⟩ := hostRun_flow h
  obtain ⟨k1, k2, k3⟩ := hostFlow_config hf
  exact ⟨k1.trans h1, k2.trans h2, k3.trans h3⟩

/-- Settles O57: no operation a step ends with changes the configuration. -/
theorem configurationIsFixed : Obligations.ConfigurationIsFixed := by
  intro s t h
  obtain ⟨u, ⟨is, en, n, hu⟩, hops⟩ := step_cases h
  have hut : sameConfig u t := by
    obtain ⟨v, moe, pra, ht⟩ | ⟨-, ⟨e, len, ht⟩ | ⟨p, rfl⟩ | ⟨i, ht⟩ | ⟨x, len, ht⟩⟩ := hops
    · exact takeDebugRouted_config ht
    · exact hostException_config ht
    · exact ⟨rfl, rfl, rfl⟩
    · exact exec_config ht
    · exact hostRun_config ht
  rw [hu] at hut
  exact hut

/-! ### Entries and the syndrome registers -/

/-- An exception entry has just been made, which left every register write visible; or there is none to test, and the
syndrome registers are as before. -/
def entersOrKeeps (s t : State) : Prop :=
  (t.entered ≠ none ∧ t.synced = true) ∨ (t.entered = none ∧ t.syn = s.syn)

theorem takeException_enters (e : Entry) (pra : DWord) (link : Word) (s u : State) :
    entersOrKeeps u (takeException e pra link s) :=
  .inl (by simp [State.synced])

theorem takeDebugRouted_enters {v : View} {moe : BitVec 4} {pra : Word} {s t : State}
    (h : takeDebugRouted v moe pra s = .next t) (u : State) : entersOrKeeps u t := by
  obtain ⟨-, rfl⟩ | ⟨-, rfl⟩ := takeDebugRouted_next v moe pra s t h <;> exact .inl (by simp [State.synced])

theorem hostException_enters {e : Entry} {len : Nat} {s t : State} (h : hostException e len s = .next t) (u : State) :
    entersOrKeeps u t := by
  obtain ⟨⟨pra, link, rfl⟩, -⟩ := hostException_next e len s t h
  exact takeException_enters ..

theorem exec_enters {i : Instr} {s t : State} (hn : s.entered = none) (h : exec i s = .next t) : entersOrKeeps s t := by
  obtain rfl | rfl | ⟨k, v, rfl⟩ | ⟨n, v, rfl⟩ | ⟨-, w, rfl⟩ := exec_next i s t h
  · exact .inr (by simp [hn])
  · exact takeException_enters ..
  all_goals exact .inr (by simp [hn])

theorem hostFlow_enters {f : HostFlow} {len : Nat} {s t : State} (hn : s.entered = none)
    (h : hostFlow f len s = .next t) : entersOrKeeps s t := by
  obtain rfl | rfl | ⟨a, b, rfl⟩ | ⟨e, -, h⟩ | ⟨x, p, target, rfl⟩ := hostFlow_next h
  · exact .inr ⟨hn, rfl⟩
  · exact .inr ⟨hn, rfl⟩
  · exact .inr (by simp [hn])
  · exact hostException_enters h s
  · exact .inr ⟨hn, rfl⟩

theorem hostRun_enters {eff : HostEffect} {len : Nat} {s t : State} (hn : s.entered = none)
    (h : hostRun eff len s = .next t) : entersOrKeeps s t := by
  obtain ⟨u, hf, -, -, -, hsyn, hent, -⟩ := hostRun_flow h
  obtain hout | ⟨h1, h2⟩ := hostFlow_enters (hent.trans hn) hf
  · exact .inl hout
  · exact .inr ⟨h1, h2.trans hsyn⟩

theorem step_entersOrKeeps {s t : State} (h : step s = .next t) : entersOrKeeps s t := by
  obtain ⟨u, ⟨is, en, n, hu⟩, hops⟩ := step_cases h
  have hut : entersOrKeeps u t := by
    obtain ⟨v, moe, pra, ht⟩ | ⟨hn, ⟨e, len, ht⟩ | ⟨p, rfl⟩ | ⟨i, ht⟩ | ⟨x, len, ht⟩⟩ := hops
    · exact takeDebugRouted_enters ht u
    · exact hostException_enters ht u
    · exact .inr ⟨hn, rfl⟩
    · exact exec_enters hn ht
    · exact hostRun_enters hn ht
  rw [hu] at hut
  exact hut

/-- Settles O59: only an operation that ends with an entry writes the syndrome registers. -/
theorem syndromeWrittenOnlyByEntries : Obligations.SyndromeWrittenOnlyByEntries := by
  intro s t h hsyn
  obtain ⟨hent, -⟩ | ⟨-, hkept⟩ := step_entersOrKeeps h
  · exact hent
  · exact absurd hkept hsyn

/-- A return leaves every register write visible. -/
theorem view_of_restore {x : ExecState} {p : Psr} {target : DWord} {s t : State} (h : restore x p target s = .next t) :
    t.view = t.ctl.current := by
  obtain ⟨rfl, -⟩ := restore_next _ _ _ _ _ h
  simp [State.view, restored]

/-- Settles O18: an entry, an `ISB` and both returns empty every window. -/
theorem contextSynchronisationEvents : Obligations.ContextSynchronisationEvents := by
  refine ⟨fun s t h hent => ?_, fun len s t h => ?_, fun imm s t h => ?_, fun s t h => ?_⟩
  · obtain ⟨-, hsync⟩ | ⟨hnone, -⟩ := step_entersOrKeeps h
    · exact view_of_synced t hsync
    · exact absurd hnone hent
  · cases h
    simp [State.view]
  · obtain ⟨p, target, -, hr⟩ := returnSubs_next imm s t h
    exact view_of_restore hr
  · obtain ⟨x, p, target, hr⟩ := returnEret_next s t h
    exact view_of_restore hr

/-! ### The DBGVCR -/

theorem hostRun_dbgvcr {eff : HostEffect} {len : Nat} {s t : State} (h : hostRun eff len s = .next t) :
    t.ctl.dbgvcr.cur = s.ctl.dbgvcr.cur := by
  obtain ⟨u, hf, -, -, -, -, -, hd⟩ := hostRun_flow h
  rw [← hd]
  obtain rfl | rfl | ⟨a, b, rfl⟩ | ⟨e, -, h⟩ | ⟨x, p, target, rfl⟩ := hostFlow_next hf
  · rfl
  · rfl
  · simp
  · exact hostException_dbgvcr e len u t h
  · rfl

/-- An instruction of the opcode table that changes the DBGVCR is one that writes it, and has taken no exception. -/
theorem exec_writes_dbgvcr {i : Instr} {s t : State} (h : exec i s = .next t)
    (hd : t.ctl.dbgvcr.cur ≠ s.ctl.dbgvcr.cur) : i.writesDbgvcr = true ∧ t.entered = s.entered := by
  obtain rfl | rfl | ⟨k, v, rfl⟩ | ⟨n, v, rfl⟩ | ⟨hi, w, rfl⟩ := exec_next i s t h
  · simp at hd
  · simp [raiseUndefined] at hd
  · simp at hd
  · simp at hd
  · exact ⟨hi, by simp⟩

/-- Settles O58: of all that a step can do, only an instruction of the opcode table that writes the DBGVCR changes it. -/
theorem onlyItsInstructionsWriteDbgvcr : Obligations.OnlyItsInstructionsWriteDbgvcr := by
  intro s t h hd
  rcases step_next_cases h with ⟨e, v, -, -, ht⟩ | ⟨hp, rest, ⟨e, ht⟩ | ⟨p, rfl⟩ | ⟨eff, hnext, hc⟩⟩
  · exact absurd (takeDebugRouted_dbgvcr _ _ _ _ _ ht) hd
  · exact absurd (hostException_dbgvcr _ _ _ _ ht) (by simpa using hd)
  · exact absurd (by simp) hd
  · rcases commitNext_next _ _ t hc with ⟨-, ht⟩ | ⟨-, ht⟩ | ⟨e, -, ht⟩ | ⟨hx, i, left, hi, ht⟩ | ⟨-, x, -, ht⟩
    · exact absurd (takeDebugRouted_dbgvcr _ _ _ _ _ ht) (by simpa using hd)
    · exact absurd (takeDebugRouted_dbgvcr _ _ _ _ _ ht) (by simpa using hd)
    · exact absurd (hostException_dbgvcr _ _ _ _ ht) (by simpa using hd)
    · obtain ⟨hw, hent⟩ := exec_writes_dbgvcr ht (by simpa using hd)
      refine ⟨eff, rest, i, left, hnext, hp, ?_, ?_, hw, ht, by simpa using hent⟩
      · simpa using hx
      · simpa using hi
    · exact absurd (hostRun_dbgvcr ht) (by simpa using hd)

/-! ### Reset -/

/-- A well-formed vector base loses nothing when its low bits are cleared. -/
theorem maskBase_of_aligned {w : Word} (h : baseAligned w = true) : maskBase w = w := by
  have h0 : w &&& 0x1F = 0 := by simpa [baseAligned] using h
  calc w &&& 0xFFFFFFE0 = w &&& 0x1F ||| w &&& 0xFFFFFFE0 := by rw [h0]; exact BitVec.zero_or.symm
    _ = w &&& (0x1F ||| 0xFFFFFFE0) := BitVec.and_or_distrib_left.symm
    _ = w := BitVec.and_allOnes

/-- Settles O56: the bases are masked, and everything else the invariant speaks of has one value at reset. -/
theorem resetIsWellFormed : Obligations.ResetIsWellFormed := by
  refine ⟨fun r => ⟨?_, beq_self_eq_true _, rfl, rfl, rfl, rfl, rfl, rfl⟩, fun r hs hns hm => ⟨?_, ?_⟩,
    ⟨⟨Dbgvcr.zero, ⟨0, 0⟩, ⟨false, false⟩, 0, false, false, State.reset.syn⟩, rfl⟩⟩
  · refine (wf_parts _).2 ⟨rfl, rfl, rfl, ?_, (by decide : baseAligned 0 = true),
      (by decide : State.reset.pcAligned = true), rfl, rfl⟩
    simp [State.basesAligned, State.resetWith, Windowed.all, maskBase_aligned]
  · simp [State.resetWith, Banked.map, maskBase_of_aligned hs, maskBase_of_aligned hns]
  · exact maskBase_of_aligned hm

end Sys2Proof.Machine
end

section
/-! SUPPORT. Proofs of the statements about the step (spec files 30, 41, 42, 60, 70). -/

namespace Sys2Proof.Machine

/-! ### The checks on the next instruction -/

/-- R94, R95: with no debug exception and no other exception of its fetch the instruction is executed. -/
theorem checkCommit_execute {s : State} {len : Nat}
    (hvc : amCheck (amChoices s.draws) s.view s s.addr len s.cpsr.t = .noVC) (hb : s.breakpointAt s.addr = false)
    (hf : s.fetchExceptions = []) : s.checkCommit len = .execute := by
  simp [State.checkCommit, hvc, hb, hf, debugOutcome, commitOutcome, highestFetch]

/-- R141: when the checks find nothing, the step executes the next instruction. -/
theorem step_of_execute {s : State} {eff : Option HostEffect} {rest : List HostInput} (hn : nextIsInstruction s eff rest)
    (hp : entryPasses s) (hx : (atInstruction s rest).checkCommit s.instrLength = .execute) :
    step s = runInstruction eff s.instrLength (atInstruction s rest).tick := by
  rw [step_commits s eff rest hn hp, commitNext, atInstruction_instrLength, hx]

/-- In every state in which neither check generates, the step executes the next instruction. -/
theorem step_of_no_catch {s : State} {eff : Option HostEffect} {rest : List HostInput} (hn : nextIsInstruction s eff rest)
    (hp : entryPasses s)
    (ham : ∀ c v len isT32, amCheck c v (atInstruction s rest) s.addr len isT32 = .noVC)
    (hb : s.breakpointAt s.addr = false) (hf : s.fetchExceptions = []) :
    step s = runInstruction eff s.instrLength (atInstruction s rest).tick := by
  refine step_of_execute hn hp (checkCommit_execute ?_ ?_ ?_)
  · rw [atInstruction_addr]
    exact ham _ _ _ _
  · simpa using hb
  · simpa using hf

theorem tick_fetch (s : State) (len : Nat) : s.tick.fetch len = s.fetch len := rfl
theorem tick_iset (s : State) : s.tick.iset = s.iset := rfl

/-- What the step executes is decoded from the bytes at the pc. -/
theorem runInstruction_of_ok {eff : Option HostEffect} {len : Nat} {s : State} {i : Instr} {left : List Byte}
    (h : decode s.iset (s.fetch len) = .ok (i, left)) : runInstruction eff len s = exec i s := by
  simp [runInstruction, h]

theorem runInstruction_of_outside {eff : Option HostEffect} {len : Nat} {s : State}
    (h : decode s.iset (s.fetch len) = .error .outsideTable) :
    runInstruction eff len s =
      match eff with
      | some x => hostRun x len s
      | none => .refused .hostInstruction := by
  cases eff <;> simp [runInstruction, h]

theorem runInstruction_of_unusable {eff : Option HostEffect} {len : Nat} {s : State} {e : DecodeError}
    (h : decode s.iset (s.fetch len) = .error e) (he : e = .reservedCondition ∨ e = .unusableRt) :
    runInstruction eff len s = .refused .unusableForm := by
  obtain rfl | rfl := he <;> simp [runInstruction, h]

/-! ### The statements about every step -/

/-- Settles O6: with nothing found by the checks the step runs the instruction, which is decoded from the same bytes. -/
theorem stepRunsTheDecodedInstruction : Obligations.StepRunsTheDecodedInstruction := by
  intro s eff rest left i hn hp hx hd
  rw [step_of_execute hn hp hx]
  exact runInstruction_of_ok (left := left) (by simpa [tick_fetch, tick_iset] using hd)

/-- Settles O7: the same, for what the decoder rejects. -/
theorem otherInstructionsAreTheHostPEs : Obligations.OtherInstructionsAreTheHostPEs := by
  intro s eff rest hn hp hx
  rw [step_of_execute hn hp hx]
  have hdec : decode (atInstruction s rest).tick.iset ((atInstruction s rest).tick.fetch s.instrLength) =
      decode s.iset (s.fetch s.instrLength) := by simp [tick_fetch, tick_iset]
  refine ⟨fun h => ?_, fun h => ?_, fun h => ?_⟩
  · exact runInstruction_of_outside (hdec.trans h)
  · exact runInstruction_of_unusable (hdec.trans h) (.inl rfl)
  · exact runInstruction_of_unusable (hdec.trans h) (.inr rfl)

theorem baseAligned_iff (w : Word) : baseAligned w = true ↔ w &&& 0x1F = 0 := by
  simp [baseAligned]

/-- R45, D8: in a state the step gives a meaning to, bits [4:0] of the vector bases are 0. -/
theorem low_bits_of_basesAligned {s : State} (h : s.basesAligned = true) :
    s.ctl.vbar.s.cur &&& 0x1F = 0 ∧ s.ctl.vbar.ns.cur &&& 0x1F = 0 ∧ s.ctl.mvbar.cur &&& 0x1F = 0 := by
  simp only [State.basesAligned, Windowed.all, Bool.and_eq_true, baseAligned_iff] at h
  obtain ⟨⟨⟨hs, -⟩, hns, -⟩, hm, -⟩ := h
  exact ⟨hs, hns, hm⟩

/-- Settles O9: the configuration is tested first, then the vector bases. -/
theorem unlistedConfigurationsAreRefused : Obligations.UnlistedConfigurationsAreRefused := by
  refine ⟨fun s h2 h3 => ?_, fun s hcfg hbase => ?_⟩
  · simp [step, stepMachine, Config.listed, h2, h3]
  · have hl : s.cfg.listed = true := by simpa [Config.listed, -not_and, not_and_or] using hcfg
    have hb : s.basesAligned = false := Bool.eq_false_iff.2 fun h => by
      obtain ⟨hs, hns, hm⟩ := low_bits_of_basesAligned h
      exact hbase.elim (· hs) (·.elim (· hns) (· hm))
    simp [step, stepMachine, hl, hb]

/-- R96: an asynchronous exception due is what the step takes, once the entry just made has passed. -/
theorem step_of_exception {s : State} {e : Entry} {rest : List HostInput} (hl : s.cfg.listed = true)
    (hb : s.basesAligned = true) (hi : s.inputs = .exception e :: rest) (hp : entryPasses s) :
    step s = hostException e 0 (atInstruction s rest) := by
  cases he : s.entered with
  | none => simp [step, stepMachine, hl, hb, he, peStep, hi, atInstruction]
  | some e' => simp [step, stepMachine, hl, hb, he, afterEntry, hp e' he, peStep, hi, atInstruction]

/-- Settles O10: the checks on the next instruction come after the host PE's input. -/
theorem asynchronousExceptionComesFirst : Obligations.AsynchronousExceptionComesFirst :=
  fun _ _ _ hl hb hi hp => step_of_exception hl hb hi hp

/-- R75, R99: with the enable controls off no address is compared. -/
theorem amApplies_of_disabled {s : State} (h : s.debugExceptionsEnabled = false) : s.amApplies = false := by
  simp [State.amApplies, h]

/-- R75, R111: with the enable controls off no entry is tested. -/
theorem etApplies_of_disabled {s : State} (h : s.debugExceptionsEnabled = false) : s.etApplies = false := by
  simp [State.etApplies, h]

/-- Settles O29: both forms test the enable controls. -/
theorem disabledControlsCatchNothing : Obligations.DisabledControlsCatchNothing :=
  ⟨fun c v s a len isT32 h => amCheck_off c v s a len isT32 (amApplies_of_disabled h),
    fun ignored v s e h => etCheck_off ignored v s e (etApplies_of_disabled h)⟩

/-- Settles O60: with the enable controls off neither the entry just made nor the next instruction is caught. -/
theorem nothingCaughtWhileDisabled : Obligations.NothingCaughtWhileDisabled := by
  intro s eff rest hoff hb hf hn
  have happ : (atInstruction s rest).amApplies = false := by simpa using amApplies_of_disabled hoff
  exact step_of_no_catch hn (fun e _ => etCheck_off _ _ s e (etApplies_of_disabled hoff))
    (fun c v len isT32 => amCheck_off c v _ _ len isT32 happ) hb hf

/-- Settles O43: with no entry to test the exception-trapping form checks nothing, and of the ways an instruction ends
only `takes` records an entry. -/
theorem branchesAreNotTrapped : Obligations.BranchesAreNotTrapped := by
  refine ⟨fun s eff rest hform hent hn hb hf => ?_, fun f len s t hf hent h => ?_⟩
  · have happ : (atInstruction s rest).amApplies = false := by
      simpa using amApplies_of_exceptionTrapping s hform
    rw [← atInstruction_of_none hent]
    exact step_of_no_catch hn (fun e he => by simp [hent] at he)
      (fun c v len isT32 => amCheck_off c v _ _ len isT32 happ) hb hf
  · obtain rfl | rfl | ⟨a, b, rfl⟩ | ⟨e, he, -⟩ | ⟨x, p, target, rfl⟩ := hostFlow_next h
    · exact hent
    · exact hent
    · simpa using hent
    · exact absurd he (hf e)
    · exact hent

/-- R105: the Vector Catch exception of the entry just made comes before the host PE's input. -/
theorem step_of_etCheck {s : State} {e : Entry} {w : Word} (hl : s.cfg.listed = true) (hb : s.basesAligned = true)
    (he : s.entered = some e) (hw : etCheck (Config.choose .abortVectorTrap s.draws) s.view s e = some w) :
    step s = takeVC w s.tick := by
  simp [step, stepMachine, hl, hb, he, afterEntry, hw]

/-- R125: where the entry is no abort at ELD the choice to ignore it changes nothing. -/
theorem etCheck_choice {v : View} {s : State} {e : Entry}
    (h : e.etype.isAbort = false ∨ e.target.el s.cfg ≠ eld s.cfg v s.ss s.cpsr.m) (ignored ignored' : Bool) :
    etCheck ignored v s e = etCheck ignored' v s e := by
  obtain h | h := h <;> simp [etCheck, h]

/-- Settles O44: with every write visible and no abort at ELD, the check of the step is the one of the statement. -/
theorem entryThenCatchAtOnce : Obligations.EntryThenCatchAtOnce := by
  intro s e w hl hb he hsync hw hel
  refine step_of_etCheck hl hb he ?_
  rw [view_of_synced s hsync, etCheck_choice hel _ false, hw]

/-! ### The order of the fetch exceptions (R95) -/

/-- The parameters but for the other exceptions of a fetch. -/
def State.withoutFetchExceptions (s : State) : State :=
  { s with params := { s.params with fetchExceptions := [] } }

/-- An instruction that would certainly match, were there no other exception of its fetch, matches. -/
theorem amCheck_of_certainMatch {s : State} (h : certainMatch s.withoutFetchExceptions) (c : AMChoices) (len : Nat)
    (isT32 : Bool) : amCheck c s.view s s.addr len isT32 = .vc s.addr := by
  obtain ⟨hsync, happ, hex, hab, hbrk, -⟩ := h
  have heval : ∀ q : StatePred, q.eval s.withoutFetchExceptions = q.eval s := fun q =>
    eval_bookkeeping s _ s.inputs s.entered s.draws q
  have happ' : s.amApplies = true := by
    rw [← happ, State.amApplies, State.amApplies, State.debugExceptionsEnabled, State.debugExceptionsEnabled, heval]
    rfl
  have hbrk' : s.breakpointAt s.addr = false := by
    rw [← hbrk, State.breakpointAt, State.breakpointAt]
    simp only [heval]
    rfl
  rw [view_of_synced s hsync]
  exact amCheck_certain c _ s s.addr len isT32 happ' hex hab hbrk'

theorem checkCommit_of_vc {s : State} {len : Nat} {a : Word}
    (h : amCheck (amChoices s.draws) s.view s s.addr len s.cpsr.t = .vc a) :
    s.checkCommit len = commitOutcome s.cfg.fetchPriority (some .vectorCatch) s.fetchExceptions := by
  rw [State.checkCommit, h]
  rfl

/-- R95: a fetch exception that comes before the debug exceptions and before every other one is taken. -/
theorem commitOutcome_of_before {cfg : Config} {c : Commit} {l : List FetchException} {f : FetchException} (hf : f ∈ l)
    (hd : goesBefore cfg (.source f.source) .debug)
    (ho : ∀ g ∈ l, g = f ∨ goesBefore cfg (.source f.source) (.source g.source)) :
    commitOutcome cfg.fetchPriority (some c) l = .fetchException f.entry := by
  have hmin := highestFetch_of_before cfg.fetchPriority l f hf ho
  simp only [commitOutcome, hmin, if_pos (Nat.le_of_lt hd)]

/-- R95: a debug exception that comes before every fetch exception is taken. -/
theorem commitOutcome_of_debug_before {cfg : Config} {c : Commit} {l : List FetchException}
    (h : ∀ f ∈ l, goesBefore cfg .debug (.source f.source)) :
    commitOutcome cfg.fetchPriority (some c) l = c := by
  cases hmin : highestFetch cfg.fetchPriority l with
  | none => simp only [commitOutcome, hmin]
  | some f => simp only [commitOutcome, hmin, if_neg (Nat.not_le_of_lt (h f (highestFetch_mem _ _ _ hmin)))]

/-- Settles O39: the match is certain, so `FetchPriority` alone decides. -/
theorem fetchPriorityOrdersTheExceptions : Obligations.FetchPriorityOrdersTheExceptions := by
  refine ⟨fun s eff rest hn hmatch => ?_, fun cfg hp => ?_⟩
  · have hmatch' : certainMatch (atInstruction s rest).withoutFetchExceptions := by
      have hcomm : atInstruction s.withoutFetchExceptions rest = (atInstruction s rest).withoutFetchExceptions := by
        unfold atInstruction
        cases he : s.entered <;> simp [State.withoutFetchExceptions, he, State.tick]
      rw [← hcomm]
      exact certainMatch_atInstruction rest hmatch
    have hform : s.cfg.form = .addressMatching := ((amApplies_iff _).1 hmatch.2.1).1
    have hstep : step s = commitNext eff (atInstruction s rest) :=
      step_commits s eff rest hn (entryPasses_of_addressMatching s hform)
    have hcheck := checkCommit_of_vc (len := s.instrLength) (amCheck_of_certainMatch hmatch' _ _ _)
    rw [atInstruction_cfg, atInstruction_fetchExceptions] at hcheck
    rw [hstep, commitNext, atInstruction_instrLength, hcheck]
    refine ⟨fun f hf hd ho => ?_, fun hd => ?_⟩
    · rw [commitOutcome_of_before hf hd ho]
    · rw [commitOutcome_of_debug_before hd, atInstruction_addr]
  · simp only [goesBefore, hp]
    decide

/-! ### A placed instruction (log entry 5) -/

/-- R78, R79: the levels that access DBGVCR32_EL2. -/
theorem mayAccessDbgvcr32_iff (s : State) :
    s.mayAccessDbgvcr32 = true ↔ s.exec = .aarch64 .el2 ∨ s.exec = .aarch64 .el3 := by
  simp [State.mayAccessDbgvcr32]

theorem withSet_a64 (s : State) :
    s.withSet .a64 = if s.mayAccessDbgvcr32 then s else { s with exec := .aarch64 .el3, ss := .secure } := rfl

theorem withSet_iset (s : State) (set : ISet) : (s.withSet set).iset = set := by
  cases set with
  | a32 | t32 => rfl
  | a64 =>
    rw [withSet_a64]
    split
    · rename_i h
      obtain h | h := (mayAccessDbgvcr32_iff s).1 h <;> simp [State.iset, h]
    · rfl

/-- Choosing the instruction set leaves the configuration, the controls and memory alone. -/
theorem withSet_spec (s : State) (set : ISet) :
    (s.withSet set).cfg = s.cfg ∧ (s.withSet set).ctl = s.ctl ∧ (s.withSet set).mem = s.mem := by
  cases set with
  | a32 | t32 => exact ⟨rfl, rfl, rfl⟩
  | a64 =>
    rw [withSet_a64]
    split <;> exact ⟨rfl, rfl, rfl⟩

theorem placeWord_iset (s : State) (set : ISet) (w : Word) : (s.placeWord set w).iset = set :=
  withSet_iset s set

/-- The fetch reads the bytes that were placed. -/
theorem placeWord_fetch {s : State} (hm : Memory.wf s.mem = true) (set : ISet) (w : Word) :
    (s.placeWord set w).fetch 4 = bytesOfWord set w := by
  have hm' : Memory.wf (s.withSet set).readyToFetch.mem = true := by
    rwa [readyToFetch_mem, (withSet_spec s set).2.2]
  cases set <;> exact fetch_storeAtPc _ _ _ _ _ hm'

/-- R58: a placed instruction of the opcode table is four bytes long. -/
theorem placeWord_instrLength {s : State} (hm : Memory.wf s.mem = true) (i : Instr) :
    (s.placeWord i.set (encodeWord i)).instrLength = 4 := by
  have hset := placeWord_iset s i.set (encodeWord i)
  have hfetch := placeWord_fetch hm i.set (encodeWord i)
  generalize s.placeWord i.set (encodeWord i) = p at hset hfetch
  cases hi : i.set with
  | a32 | a64 => simp [State.instrLength, hset, hi]
  | t32 =>
    have hbytes : [p.fetchByte 0, p.fetchByte 1, p.fetchByte 2, p.fetchByte 3] = bytesOfWord .t32 (encodeWord i) :=
      hi ▸ hfetch
    simp only [bytesOfWord, List.cons.injEq] at hbytes
    obtain ⟨h0, h1, -⟩ := hbytes
    have hwide : t32IsWide (p.fetchByte 1 ++ p.fetchByte 0) = true := by
      rw [h0, h1, halfword_of_its_bytes]
      exact t32IsWide_encodeWord i hi
    simp [State.instrLength, hset, hi, hwide]

/-- Nothing comes before a placed instruction. -/
theorem placeWord_execute (s : State) (set : ISet) (w : Word) (len : Nat) :
    (s.placeWord set w).checkCommit len = .execute := by
  refine checkCommit_execute (amCheck_off _ _ _ _ _ _ (amApplies_of_disabled rfl)) ?_ rfl
  exact Bool.and_false _

/-- Settles O8: the bytes at the pc are those of the instruction, and nothing comes before it. -/
theorem placedWordRunsNext : Obligations.PlacedWordRunsNext := by
  intro s i hwf hl hb hm
  obtain ⟨hcfg, hctl, -⟩ := withSet_spec s i.set
  have hn : nextIsInstruction (s.placeWord i.set (encodeWord i)) none [] := by
    refine ⟨?_, ?_, rfl, rfl⟩
    · exact hcfg ▸ hl
    · rw [← hb]
      exact basesAligned_congr _ s hctl
  have hfetch := placeWord_fetch hm i.set (encodeWord i)
  have hlen := placeWord_instrLength hm i
  refine (stepRunsTheDecodedInstruction _ none [] [] i hn (fun e he => by cases he) (placeWord_execute s _ _ _) ?_)
  rw [hlen, hfetch, placeWord_iset, ← decodeOfEncode i [] hwf, encode, List.append_nil]

end Sys2Proof.Machine
end

section
/-! SUPPORT. Proofs of the statements about the enable bits and the visibility of register writes (spec files 10, 20, 40). -/

namespace Sys2Proof.Machine

/-! ### The DBGVCR as a word (R18, R19, R76, R77) -/

theorem enabled_iff (cfg : Config) (d : Dbgvcr) (b : EnableBit) :
    enabled cfg d b = true ↔ bitExists cfg b = true ∧ d.get b = true := by
  simp [enabled]

/-- R77: after a write of a word the enabled bits are its existing bits. -/
theorem enabled_writeWord (cfg : Config) (w : Word) (d : Dbgvcr) (b : EnableBit) :
    enabled cfg (d.writeWord cfg w) b = (bitExists cfg b && w.getLsbD (bitPos b)) := by
  rw [enabled, Dbgvcr.get_writeWord, writtenBit]
  cases bitExists cfg b <;> rfl

/-- R19: a position where no enable bit stands reads 0. -/
theorem pack_getLsbD_other (cfg : Config) (d : Dbgvcr) {i : Nat} (h : ∀ b, bitPos b ≠ i) :
    (pack cfg d).getLsbD i = false := by
  simp [pack_getLsbD, h]

/-- R18, R19: the word of the existing bits has a 1 at the position of each of them. -/
theorem existingBits_getLsbD_bitPos (cfg : Config) (b : EnableBit) :
    (existingBits cfg).getLsbD (bitPos b) = bitExists cfg b := by
  rw [existingBits, bitExists]
  cases cfg.el3 <;> cases b <;> rfl

/-- R19: and a 0 everywhere else. -/
theorem existingBits_getLsbD_other (cfg : Config) {i : Nat} (hi : i < 32) (h : ∀ b, bitPos b ≠ i) :
    (existingBits cfg).getLsbD i = false := by
  have h' : ∀ b ∈ allBits, bitPos b ≠ i := fun b _ => h b
  clear h
  rw [existingBits]
  revert i
  cases cfg.el3 <;> decide

/-- R76, R77: what is read after a write is the written word's existing bits. -/
theorem pack_writeWord (cfg : Config) (d : Dbgvcr) (w : Word) : pack cfg (d.writeWord cfg w) = w &&& existingBits cfg := by
  refine BitVec.eq_of_getLsbD_eq fun i hi => ?_
  rw [BitVec.getLsbD_and]
  by_cases h : ∃ b, bitPos b = i
  · obtain ⟨b, rfl⟩ := h
    rw [pack_getLsbD_bitPos, enabled_writeWord, existingBits_getLsbD_bitPos, Bool.and_comm]
  · push Not at h
    rw [pack_getLsbD_other cfg _ h, existingBits_getLsbD_other cfg hi h, Bool.and_false]

/-- Settles O15: the reading has the existing bits that are 1, and a write sets exactly the existing ones. -/
theorem dbgvcrReadsItsBits : Obligations.DbgvcrReadsItsBits := by
  refine ⟨fun t x b h => ?_, fun cfg d => ⟨pack_getLsbD_bitPos cfg d, fun i h => pack_getLsbD_other cfg d h⟩,
    pack_writeWord⟩
  cases t <;> cases x <;> cases h <;> rfl

/-- R68: two values of the DBGVCR that agree on the existing bits have the same bits enabled. -/
theorem enabled_congr {cfg : Config} {d d' : Dbgvcr} (h : ∀ b, bitExists cfg b = true → d.get b = d'.get b) :
    enabled cfg d = enabled cfg d' := by
  funext b
  cases hb : bitExists cfg b with
  | false => simp [enabled, hb]
  | true => simp [enabled, hb, h b hb]

/-- Settles O14: reading and generation go through the enabled bits, which only the existing bits reach. -/
theorem reservedBitsDoNothing : Obligations.ReservedBitsDoNothing := by
  refine ⟨fun cfg b => ?_, fun cfg w d b hb => ⟨?_, ?_⟩, fun cfg d d' v h => ?_⟩
  · cases b <;> simp [bitExists, EnableBit.group, secureBits, nonSecureBits, monitorVectorRows]
  · simp [writtenBit, hb]
  · simp [enabled, hb]
  · have hen := enabled_congr h
    refine ⟨by rw [pack, pack, hen], ?_⟩
    unfold enabledSet catchVector
    rw [hen]
    rfl

/-! ### The Local tables (R14, R15) -/

theorem enableBit_group_secure {t : Table} {x : XType} {b : EnableBit} (h : enableBit t x = some b) :
    b.group = .secure ↔ t = .localTable ∨ t = .secureLocal := by
  cases t <;> cases x <;> cases h <;> decide

theorem enableBit_group_nonSecure {t : Table} {x : XType} {b : EnableBit} (h : enableBit t x = some b) :
    b.group = .nonSecure ↔ t = .nonSecureLocal := by
  cases t <;> cases x <;> cases h <;> decide

/-- R8, R66: of the two tables that the bits SF to SU can serve, the one that exists. -/
theorem eq_secureTable_iff (cfg : Config) (t : Table) :
    (t = .localTable ∨ t = .secureLocal) ∧ t ∈ tables cfg ↔ t = secureTable cfg := by
  rw [mem_tables, secureTable]
  by_cases h3 : cfg.el3 = .absent <;> cases t <;> simp [h3]

/-- R15, R18: an enabled bit of the Non-secure Local table needs EL3, which gives the table (R8). -/
theorem nonSecureLocal_mem_tables_of_enabled {cfg : Config} {d : Dbgvcr} {b : EnableBit} (hg : b.group = .nonSecure)
    (h : enabled cfg d b = true) : .nonSecureLocal ∈ tables cfg := by
  rw [mem_tables]
  simpa [bitExists, hg] using ((enabled_iff cfg d b).1 h).1

/-- The member of the enabled vector catch set that a bit gives, when the bit is enabled and serves one table only. -/
theorem mem_enabledSet_bit_iff (cfg : Config) (v : View) (e : CatchVector) {b : EnableBit} {t : Table} {x : XType}
    (hb : enableBit t x = some b) (ht : enabled cfg v.dbgvcr b = true → t ∈ tables cfg)
    (hone : ∀ t' ∈ tables cfg, ∀ x', enableBit t' x' = some b → t' = t) :
    (e ∈ enabledSet cfg v ∧ e.bit = b) ↔
      (enabled cfg v.dbgvcr b = true ∧ e = ⟨b, t, x, vectorAddr cfg v t x⟩) := by
  rw [mem_enabledSet_iff]
  constructor
  · obtain ⟨bit, t', x', addr⟩ := e
    rintro ⟨⟨htab, hbit, hen, haddr⟩, rfl⟩
    obtain rfl := hone t' htab x' hbit
    obtain rfl := enableBit_xtype_unique hbit hb
    exact ⟨hen, by rw [← haddr]⟩
  · rintro ⟨hen, rfl⟩
    exact ⟨⟨ht hen, hb, hen, rfl⟩, rfl⟩

theorem mem_localVectorRows_secure : ∀ r ∈ List.zip secureBits localVectorRows,
    r.1.group = .secure ∧ enableBit .localTable r.2.1 = some r.1 ∧ enableBit .secureLocal r.2.1 = some r.1 ∧
      r.2.2.1 = offset r.2.1 ∧ r.2.2.2 = 0xFFFF0000 + offset r.2.1 := by
  decide

theorem mem_localVectorRows_nonSecure : ∀ r ∈ List.zip nonSecureBits localVectorRows,
    r.1.group = .nonSecure ∧ enableBit .nonSecureLocal r.2.1 = some r.1 ∧ r.2.2.1 = offset r.2.1 ∧
      r.2.2.2 = 0xFFFF0000 + offset r.2.1 := by
  decide

/-- R69, R70: the vector of a Local table, Normal or High. -/
theorem vectorAddr_secureTable (cfg : Config) (v : View) (x : XType) :
    vectorAddr cfg v (secureTable cfg) x =
      if v.high.of cfg .secure then 0xFFFF0000 + offset x else v.vbar.of cfg .secure + offset x := by
  rw [vectorAddr, secureTable]
  by_cases h3 : cfg.el3 = .absent
  · have h32 : cfg.el3 ≠ .a32 := by simp [h3]
    rw [if_pos h3, Banked.of_single _ _ _ h32, Banked.of_single _ _ _ h32, vectorBase]
    split <;> rfl
  · rw [if_neg h3, vectorBase]
    split <;> rfl

theorem vectorAddr_nonSecureLocal (cfg : Config) (v : View) (x : XType) :
    vectorAddr cfg v .nonSecureLocal x =
      if v.high.of cfg .nonSecure then 0xFFFF0000 + offset x else v.vbar.of cfg .nonSecure + offset x := by
  rw [vectorAddr, vectorBase]
  split <;> rfl

/-- Settles O12: each row's bit serves one table that exists, at the row's offset from the table's base. -/
theorem localVectorAddresses : Obligations.LocalVectorAddresses := by
  refine ⟨fun cfg v e => ⟨?_, ?_⟩, fun cfg v ss => ⟨fun h3 => ?_, fun h3 => ?_⟩⟩
  · intro r hr
    obtain ⟨hg, hl, hs, ho, hhigh⟩ := mem_localVectorRows_secure r hr
    have hb : enableBit (secureTable cfg) r.2.1 = some r.1 := by
      rw [secureTable]
      split
      · exact hl
      · exact hs
    rw [ho, hhigh, ← vectorAddr_secureTable]
    refine mem_enabledSet_bit_iff cfg v e hb (fun _ => ((eq_secureTable_iff cfg _).2 rfl).2) fun t' ht' x' hb' => ?_
    exact (eq_secureTable_iff cfg t').1 ⟨(enableBit_group_secure hb').1 hg, ht'⟩
  · intro r hr
    obtain ⟨hg, hb, ho, hhigh⟩ := mem_localVectorRows_nonSecure r hr
    rw [ho, hhigh, ← vectorAddr_nonSecureLocal]
    exact mem_enabledSet_bit_iff cfg v e hb (nonSecureLocal_mem_tables_of_enabled hg)
      fun t' _ x' hb' => (enableBit_group_nonSecure hb').1 hg
  · exact ⟨Banked.of_single _ _ _ h3, Banked.of_single _ _ _ h3⟩
  · simp [Banked.of_banked _ _ _ h3]

/-! ### Generation needs an enabled bit (R13, R67, R101) -/

/-- R99: what `AM_Check` reports is the instruction's own address. -/
theorem addr_of_amCheck_vc {c : AMChoices} {v : View} {s : State} {a b : Word} {len : Nat} {isT32 : Bool}
    (h : amCheck c v s a len isT32 = .vc b) : b = a := by
  simp only [amCheck] at h
  split at h
  · cases h
  · split at h
    · cases h
    · split at h
      · cases h
      · split at h
        · cases h
        · cases h
          rfl

/-- Settles O16: in either form what generates is a vector whose enable bit is defined and enabled. -/
theorem catchNeedsAnEnabledBit : Obligations.CatchNeedsAnEnabledBit := by
  refine ⟨fun c v s a b len isT32 h => ⟨addr_of_amCheck_vc h, ?_⟩, fun ignored v s e w h => ?_⟩
  · obtain ⟨e, he, haddr⟩ := exists_vector_of_amCheck_ne (h.trans_ne (by simp))
    obtain ⟨hmem, -⟩ := (mem_amSubset _ _ _ e).1 he
    obtain ⟨-, hb, hen, -⟩ := (mem_enabledSet_iff _ _ e).1 hmem
    obtain ⟨hex, hget⟩ := (enabled_iff _ _ _).1 hen
    exact ⟨e, hmem, hb, hex, hget, haddr.imp_right fun ⟨ht, hlen, _, ha⟩ => ⟨ht, hlen, ha⟩⟩
  · obtain ⟨x, m, ss, -, rfl, -⟩ := entry_of_etCheck h
    obtain ⟨-, -, b, hb, hen, hw⟩ := (etCheck_mode ..).1 h
    obtain ⟨hex, hget⟩ := (enabled_iff _ _ _).1 hen
    exact ⟨_, x, b, rfl, rfl, hb, hex, hget, hw.symm⟩

/-! ### Late visibility (R51, D15) -/

@[simp] theorem Banked.of_map {α β : Type} (b : Banked α) (f : α → β) (cfg : Config) (ss : SecurityState) :
    (b.map f).of cfg ss = f (b.of cfg ss) := by
  unfold Banked.of
  split <;> rfl

/-- After a context synchronisation event the next evaluation uses the registers' values. -/
@[simp] theorem view_sync (s : State) : s.sync.view = s.ctl.current :=
  Controls.view_sync s.ctl s.draws

/-- R51: what a banked register holds and shows, for the Security state it was written in. -/
theorem written_of {α : Type} (b : Banked (Windowed α)) (cfg : Config) (ss : SecurityState) (x : α) :
    writtenLate (b.of cfg ss) ((b.write cfg ss ((b.of cfg ss).write x)).of cfg ss) x ∧
      ((b.write cfg ss ((b.of cfg ss).write x)).map Windowed.cur).of cfg ss = x := by
  rw [Banked.of_map, Banked.of_write_same]
  exact ⟨Windowed.write_late _ _, rfl⟩

/-- Settles O17: each write is a write to a window, which a context synchronisation event empties. -/
theorem controlWriteVisibility : Obligations.ControlWriteVisibility := by
  refine ⟨fun s w => ⟨Windowed.write_late _ _, ?_⟩, fun s ss w => ?_, fun s w => ⟨Windowed.write_late _ _, ?_⟩,
    fun s ss b => ?_, fun s b => ⟨Windowed.write_late _ _, ?_⟩, fun s b => ⟨Windowed.write_late _ _, ?_⟩, fun s => ?_⟩
  · rw [view_sync]; rfl
  · rw [view_sync]; exact written_of s.ctl.vbar s.cfg ss (maskBase w)
  · rw [view_sync]; rfl
  · rw [view_sync]; exact written_of s.ctl.high s.cfg ss b
  · rw [view_sync]; rfl
  · rw [view_sync]; rfl
  · exact ⟨Windowed.seen_may _ _, Windowed.seen_may _ _, Windowed.seen_may _ _, Windowed.seen_may _ _,
      Windowed.seen_may _ _, Windowed.seen_may _ _, Windowed.seen_may _ _, Windowed.seen_may _ _⟩

end Sys2Proof.Machine
end

section
/-! SUPPORT. Proofs of the statements about the register-access instructions (spec file 40, section 5). -/

namespace Sys2Proof.Machine

/-! ### What an access does -/

/-- MRC and MCR in both instruction sets. -/
def isMrcMcr (i : Instr) (c : Cond) (rt : Fin 16) : Prop :=
  i = .mrcA32 c rt ∨ i = .mcrA32 c rt ∨ i = .mrcT32 rt ∨ i = .mcrT32 rt

theorem isMrcMcr_of_mrc {i : Instr} {c : Cond} {rt : Fin 16} (h : i = .mrcA32 c rt ∨ i = .mrcT32 rt) :
    isMrcMcr i c rt := by
  obtain rfl | rfl := h <;> simp [isMrcMcr]

theorem isMrcMcr_of_mcr {i : Instr} {c : Cond} {rt : Fin 16} (h : i = .mcrA32 c rt ∨ i = .mcrT32 rt) :
    isMrcMcr i c rt := by
  obtain rfl | rfl := h <;> simp [isMrcMcr]

/-- MRC and MCR are executed in AArch32. -/
theorem aarch32_of_runsIn {i : Instr} {c : Cond} {rt : Fin 16} {s : State} (h : isMrcMcr i c rt) (hr : runsIn i s) :
    s.exec = .aarch32 := by
  cases he : s.exec with
  | aarch32 => rfl
  | aarch64 el => obtain rfl | rfl | rfl | rfl := h <;> simp [runsIn, State.iset, he, Instr.set] at hr

/-- R12: in AArch32 only User mode is at PL0. -/
theorem pl_eq_pl0_iff {s : State} (h : s.exec = .aarch32) : s.pl = .pl0 ↔ s.cpsr.m = .user := by
  simp only [State.pl, h]
  cases s.cpsr.m <;> simp [modePL]

/-- What MRC and MCR leave when they complete. -/
def accessed (i : Instr) (k : Fin 33) (s : State) : State :=
  if i.writesDbgvcr then s.writeDbgvcr s.gpr[k] else s.writeGpr k (pack s.cfg s.ctl.dbgvcr.cur)

/-- R76, R77, R136: MRC and MCR are skipped, take an Undefined Instruction exception, are refused, or complete. -/
theorem exec_mrcMcr {i : Instr} {c : Cond} {rt : Fin 16} {s : State} {k : Fin 33} (h : isMrcMcr i c rt)
    (hr : runsIn i s) (hk : gprIndex s.cpsr.m rt = some k) :
    exec i s =
      if conditionPassed i s = false then .next (s.advance 4)
      else if s.cpsr.m = .user then .next (raiseUndefined s)
      else if s.accessTrapped then .refused .accessTrapConfigured
      else .next ((accessed i k s).advance 4) := by
  have hpl := pl_eq_pl0_iff (aarch32_of_runsIn h hr)
  obtain rfl | rfl | rfl | rfl := h
  · rw [exec_mrc (.inl rfl), readDbgvcr, hk]
    simp [hpl, accessed, Instr.writesDbgvcr]
  · rw [exec_mcr (.inl rfl), writeDbgvcr, hk]
    simp [hpl, accessed, Instr.writesDbgvcr]
  · rw [exec_mrc (c := c) (.inr rfl), readDbgvcr, hk]
    simp [hpl, accessed, Instr.writesDbgvcr]
  · rw [exec_mcr (c := c) (.inr rfl), writeDbgvcr, hk]
    simp [hpl, accessed, Instr.writesDbgvcr]

/-- R76, R77: MRC and MCR complete in every mode but User. -/
theorem exec_mrcMcr_completes {i : Instr} {c : Cond} {rt : Fin 16} {s : State} {k : Fin 33} (h : isMrcMcr i c rt)
    (hr : runsIn i s) (hk : gprIndex s.cpsr.m rt = some k) (hm : s.cpsr.m ≠ .user) (hc : conditionPassed i s = true)
    (ht : s.accessTrapped = false) : exec i s = .next ((accessed i k s).advance 4) := by
  simp [exec_mrcMcr h hr hk, hm, hc, ht]

/-- An MRC that completes has read. -/
theorem accessed_mrc {i : Instr} {c : Cond} {rt : Fin 16} (h : i = .mrcA32 c rt ∨ i = .mrcT32 rt) (k : Fin 33)
    (s : State) : accessed i k s = s.writeGpr k (pack s.cfg s.ctl.dbgvcr.cur) := by
  obtain rfl | rfl := h <;> rfl

/-- An MCR that completes has written. -/
theorem accessed_mcr {i : Instr} {c : Cond} {rt : Fin 16} (h : i = .mcrA32 c rt ∨ i = .mcrT32 rt) (k : Fin 33)
    (s : State) : accessed i k s = s.writeDbgvcr s.gpr[k] := by
  obtain rfl | rfl := h <;> rfl

/-- R78, R136: MRS is refused away from EL2 and EL3 using AArch64 and where a trap is configured, or completes. -/
theorem exec_mrsA64 (rt : Fin 32) (s : State) : exec (.mrsA64 rt) s =
    if s.mayAccessDbgvcr32 = false then .refused .debugRegisterLevel
    else if s.accessTrapped then .refused .accessTrapConfigured
    else .next ((s.writeX rt ((pack s.cfg s.ctl.dbgvcr.cur).setWidth 64)).advance 4) := by
  simp [exec, execMrsA64]

/-- R79, R136: MSR, likewise. -/
theorem exec_msrA64 (rt : Fin 32) (s : State) : exec (.msrA64 rt) s =
    if s.mayAccessDbgvcr32 = false then .refused .debugRegisterLevel
    else if s.accessTrapped then .refused .accessTrapConfigured
    else .next ((s.writeDbgvcr ((s.readX rt).setWidth 32)).advance 4) := by
  simp [exec, execMsrA64]

/-- An A64 instruction that completes moves the pc on, and there is no IT block. -/
theorem advance_of_mayAccess {s t : State} (hs : s.mayAccessDbgvcr32 = true) (ht : t.exec = s.exec)
    (hpc : t.pc = s.pc) : t.advance 4 = { t with pc := s.pc + 4 } := by
  obtain h | h := (mayAccessDbgvcr32_iff s).1 hs
  all_goals
    rw [advance_aarch64 _ _ _ (ht.trans h), hpc]
    rfl

theorem exec_mrsA64_completes {rt : Fin 32} {s : State} (hs : s.mayAccessDbgvcr32 = true) (ht : s.accessTrapped = false) :
    exec (.mrsA64 rt) s = .next { s.writeX rt ((pack s.cfg s.ctl.dbgvcr.cur).setWidth 64) with pc := s.pc + 4 } := by
  rw [exec_mrsA64, advance_of_mayAccess hs (writeX_exec ..) (writeX_pc ..)]
  simp [hs, ht]

theorem exec_msrA64_completes {rt : Fin 32} {s : State} (hs : s.mayAccessDbgvcr32 = true) (ht : s.accessTrapped = false) :
    exec (.msrA64 rt) s = .next { s.writeDbgvcr ((s.readX rt).setWidth 32) with pc := s.pc + 4 } := by
  rw [exec_msrA64, advance_of_mayAccess (t := s.writeDbgvcr _) hs rfl rfl]
  simp [hs, ht]

theorem writeX_xreg {s : State} {rt : Fin 32} {v : DWord} (h : rt.val < 31) :
    (s.writeX rt v).xreg = s.xreg.set rt.val v := by
  simp [State.writeX, h]

theorem writeX_xzr {s : State} {rt : Fin 32} {v : DWord} (h : rt.val = 31) : (s.writeX rt v).xreg = s.xreg := by
  simp [State.writeX, h]

theorem sameButXregPc_writeX (s : State) (rt : Fin 32) (v pc : DWord) :
    sameButXregPc s { s.writeX rt v with pc := pc } := by
  unfold State.writeX
  split <;> rfl

/-- R19, R79: an enable bit stands in the low word of the register written. -/
theorem readX_getLsbD_bitPos (s : State) (rt : Fin 32) (b : EnableBit) :
    ((s.readX rt).setWidth 32).getLsbD (bitPos b) =
      if h : rt.val < 31 then s.xreg[rt.val].getLsbD (bitPos b) else false := by
  rw [BitVec.getLsbD_setWidth, State.readX]
  split <;> simp [bitPos_lt b]

/-! ### The statements -/

/-- Settles O19: the state that an MRC which completes leaves, field by field. -/
theorem mrcReadsDbgvcr : Obligations.MrcReadsDbgvcr := by
  intro s c rt i hi hr hrt hm hc ht
  obtain ⟨k, hk⟩ := exists_gprIndex s.cpsr.m rt hrt
  have hx := aarch32_of_runsIn (isMrcMcr_of_mrc hi) hr
  refine ⟨k, _, hk, exec_mrcMcr_completes (isMrcMcr_of_mrc hi) hr hk hm hc ht, ?_⟩
  rw [accessed_mrc hi, advance_aarch32 _ _ (by exact hx)]
  exact ⟨rfl, rfl, rfl, rfl, fun _ => rfl⟩

/-- Settles O20: the state that an MCR which completes leaves, field by field. -/
theorem mcrWritesDbgvcr : Obligations.McrWritesDbgvcr := by
  intro s c rt i hi hr hrt hm hc ht
  obtain ⟨k, hk⟩ := exists_gprIndex s.cpsr.m rt hrt
  have hx := aarch32_of_runsIn (isMrcMcr_of_mcr hi) hr
  refine ⟨k, _, hk, exec_mrcMcr_completes (isMrcMcr_of_mcr hi) hr hk hm hc ht, ?_⟩
  rw [accessed_mcr hi, advance_aarch32 _ _ (by exact hx)]
  exact ⟨fun b => Dbgvcr.get_writeWord .., rfl, rfl, rfl, rfl, fun _ => rfl⟩

/-- Settles O21: the state that an MRS which completes leaves, field by field. -/
theorem mrsReadsDbgvcr : Obligations.MrsReadsDbgvcr := by
  intro s rt hx ht
  refine ⟨_, exec_mrsA64_completes ((mayAccessDbgvcr32_iff s).2 hx) ht, fun h => writeX_xreg h, fun h => writeX_xzr h,
    rfl, sameButXregPc_writeX .., fun a => ?_⟩
  simp [readsSame]

/-- Settles O22: the state that an MSR which completes leaves, field by field. -/
theorem msrWritesDbgvcr : Obligations.MsrWritesDbgvcr := by
  intro s rt hx ht
  refine ⟨_, exec_msrA64_completes ((mayAccessDbgvcr32_iff s).2 hx) ht, fun b => ?_, rfl, rfl, rfl, rfl, fun _ => rfl⟩
  rw [← readX_getLsbD_bitPos]
  exact Dbgvcr.get_writeWord ..

/-- Settles O23: the condition is tested before anything else. -/
theorem failedConditionSkips : Obligations.FailedConditionSkips := by
  intro s c rt i hi hr hrt hc
  obtain ⟨k, hk⟩ := exists_gprIndex s.cpsr.m rt hrt
  rw [exec_mrcMcr hi hr hk, if_pos hc, advance_aarch32 _ _ (aarch32_of_runsIn hi hr)]
  rfl

/-- Settles O25: the level is tested before the trap, and the trap after the condition and the mode. -/
theorem forbiddenAccessesAreRefused : Obligations.ForbiddenAccessesAreRefused := by
  refine ⟨fun s rt h2 h3 => ?_, fun s rt hx ht => ?_, fun s c rt i hi hr hrt hm hc ht => ?_⟩
  · have hmay : s.mayAccessDbgvcr32 = false := Bool.eq_false_iff.2 fun h =>
      ((mayAccessDbgvcr32_iff s).1 h).elim h2 h3
    simp [exec_mrsA64, exec_msrA64, hmay]
  · have hmay := (mayAccessDbgvcr32_iff s).2 hx
    simp [exec_mrsA64, exec_msrA64, hmay, ht]
  · obtain ⟨k, hk⟩ := exists_gprIndex s.cpsr.m rt hrt
    simp [exec_mrcMcr hi hr hk, hm, hc, ht]

/-! ### An access from User mode (D22, log entry 16) -/

/-- R102, R103: the table of an entry to a PL1 mode other than Monitor mode. -/
theorem targetTable_pl1 (cfg : Config) {m : Mode} (ss : SecurityState) (hh : m ≠ .hyp) (hm : m ≠ .monitor) :
    targetTable cfg m ss =
      if cfg.el3 = .absent then .localTable else if ss = .secure then .secureLocal else .nonSecureLocal := by
  cases m with
  | hyp => exact absurd rfl hh
  | monitor => exact absurd rfl hm
  | _ => simp [targetTable]

/-- R67, R70: an entry of a type that its table has an enable bit for is made to the vector of that table and type. -/
theorem entryVector_of_enableBit {s : State} {t : Table} {x : XType} {b : EnableBit} (h : enableBit t x = some b) :
    entryVector s t (.x x) = vectorAddr s.cfg s.ctl.current t x := by
  simp [entryVector, h]

/-- R14, R15: every Local table has an enable bit for an Undefined Instruction exception and for a Prefetch Abort. -/
theorem exists_enableBit_local (cfg : Config) {m : Mode} (ss : SecurityState) (hh : m ≠ .hyp) (hm : m ≠ .monitor)
    {x : XType} (hx : x ≠ .smc) : ∃ b, enableBit (targetTable cfg m ss) x = some b := by
  rw [targetTable_pl1 cfg ss hh hm]
  split
  · cases x <;> simp [enableBit] at hx ⊢
  · split <;> cases x <;> simp [enableBit] at hx ⊢

theorem undefEntry_el2 {s : State} (h : s.undefinedToAArch64EL2 = true) : undefEntry s = ⟨.x .undef, .aarch64 .el2⟩ :=
  if_pos h

theorem undefEntry_of_not_el2 {s : State} (h : s.undefinedToAArch64EL2 = false) :
    undefEntry s =
      if s.el1is32 = false then ⟨.x .undef, .aarch64 .el1⟩
      else if hypExists s.cfg s.ss = true ∧ s.ctl.tge.cur = true then ⟨.hypTrap, .mode .hyp s.ss⟩
      else ⟨.x .undef, .mode .undefined s.ss⟩ := by
  rw [undefEntry, if_neg (by simpa [State.undefinedToAArch64EL2] using h)]
  simp

/-- Settles O24: where the exception goes, and what the entry there saves. -/
theorem userModeAccessIsUndefined : Obligations.UserModeAccessIsUndefined := by
  intro s c rt i hi hr hrt hm hc
  obtain ⟨k, hk⟩ := exists_gprIndex s.cpsr.m rt hrt
  have hx := aarch32_of_runsIn hi hr
  refine ⟨raiseUndefined s, by simp [exec_mrcMcr hi hr hk, hm, hc], by simp [raiseUndefined],
    fun a => by simp [readsSame, raiseUndefined], fun h2 h1 hno => ?undefined, fun h2 h1 hh ht => ?hyp,
    fun h2 h1 => ?el1, fun h2 => ?el2⟩
  case undefined =>
    have he : undefEntry s = ⟨.x .undef, .mode .undefined s.ss⟩ := by simp [undefEntry_of_not_el2 h2, h1, hno]
    obtain ⟨b, hb⟩ := exists_enableBit_local s.cfg (m := .undefined) s.ss (by simp) (by simp) (x := .undef) (by simp)
    rw [raiseUndefined, he]
    refine ⟨rfl, rfl, rfl, rfl, rfl, rfl, rfl, ?_⟩
    rw [← targetTable_pl1 s.cfg (m := .undefined) s.ss (by simp) (by simp), ← entryVector_of_enableBit hb]
    rfl
  case hyp =>
    have he : undefEntry s = ⟨.hypTrap, .mode .hyp s.ss⟩ := by simp [undefEntry_of_not_el2 h2, h1, hh, ht]
    rw [raiseUndefined, he]
    exact ⟨rfl, rfl, rfl, rfl, rfl, rfl, rfl, rfl⟩
  case el1 =>
    have he : undefEntry s = ⟨.x .undef, .aarch64 .el1⟩ := by simp [undefEntry_of_not_el2 h2, h1]
    rw [raiseUndefined, he, ← hx]
    exact ⟨rfl, rfl, rfl⟩
  case el2 =>
    rw [raiseUndefined, undefEntry_el2 h2, ← hx]
    exact ⟨rfl, rfl, rfl⟩

/-! ### One register under two names (R20) -/

/-- What a write of either name leaves in the DBGVCR, as the generation rules see it once it is visible. -/
theorem enabled_of_written {s u : State} {w : Word} (hcfg : u.cfg = s.cfg)
    (hd : u.ctl.dbgvcr.cur = s.ctl.dbgvcr.cur.writeWord s.cfg w) (b : EnableBit) :
    enabled u.cfg u.sync.view.dbgvcr b = (bitExists s.cfg b && w.getLsbD (bitPos b)) := by
  rw [view_sync, hcfg, ← enabled_writeWord s.cfg w s.ctl.dbgvcr.cur, ← hd]
  rfl

/-- What a read of either name gives after that. -/
theorem pack_of_written {s u : State} {w : Word} (hcfg : u.cfg = s.cfg)
    (hd : u.ctl.dbgvcr.cur = s.ctl.dbgvcr.cur.writeWord s.cfg w) :
    pack u.cfg u.ctl.dbgvcr.cur = w &&& existingBits s.cfg := by
  rw [hcfg, hd, pack_writeWord]

/-- An MSR that completes has written. -/
theorem exec_msrA64_next {rt : Fin 32} {s t : State} (h : exec (.msrA64 rt) s = .next t) :
    t = (s.writeDbgvcr ((s.readX rt).setWidth 32)).advance 4 := by
  rw [exec_msrA64] at h
  split at h
  · cases h
  · split at h
    · cases h
    · cases h
      rfl

/-- Outside User mode an MCR whose condition holds has written when it completes. -/
theorem exec_mcr_next {i : Instr} {c : Cond} {rt : Fin 16} {s t : State} {k : Fin 33}
    (hi : i = .mcrA32 c rt ∨ i = .mcrT32 rt) (hr : runsIn i s) (hk : gprIndex s.cpsr.m rt = some k)
    (hm : s.cpsr.m ≠ .user) (hc : conditionPassed i s = true) (h : exec i s = .next t) :
    t = (s.writeDbgvcr s.gpr[k]).advance 4 := by
  rw [exec_mrcMcr (isMrcMcr_of_mcr hi) hr hk, if_neg (by simp [hc]), if_neg hm, accessed_mcr hi] at h
  split at h
  · cases h
  · cases h
    rfl

/-- Settles O26: both names write one register and both read it. -/
theorem twoNamesOneRegister : Obligations.TwoNamesOneRegister := by
  refine ⟨fun s t u c rt rt' k i x hx hw hcfg hctl hi hr hm hc ht hk => ?_,
    fun s t u c rt rt' k i hi hr hm hc hk hw hcfg hctl hx ht => ?_⟩
  · obtain rfl := exec_msrA64_next hw
    have hx' : x = s.readX rt := hx
    have hcfg' : u.cfg = s.cfg := by simpa using hcfg
    have hd : u.ctl.dbgvcr.cur = s.ctl.dbgvcr.cur.writeWord s.cfg (x.setWidth 32) := by simp [hctl, hx']
    refine ⟨⟨_, exec_mrcMcr_completes (isMrcMcr_of_mrc hi) hr hk hm hc ht, ?_⟩, fun b => ?_⟩
    · rw [accessed_mrc hi]
      simp [pack_of_written hcfg' hd]
    · rw [enabled_of_written hcfg' hd, BitVec.getLsbD_setWidth]
      simp [bitPos_lt b]
  · obtain rfl := exec_mcr_next hi hr hk hm hc hw
    have hcfg' : u.cfg = s.cfg := by simpa using hcfg
    have hd : u.ctl.dbgvcr.cur = s.ctl.dbgvcr.cur.writeWord s.cfg s.gpr[k] := by simp [hctl]
    refine ⟨⟨_, exec_mrsA64_completes ((mayAccessDbgvcr32_iff u).2 hx) ht, fun h => ?_, fun h => writeX_xzr h⟩,
      enabled_of_written hcfg' hd⟩
    simp [writeX_xreg h, pack_of_written hcfg' hd]

end Sys2Proof.Machine
end

section
/-! SUPPORT. Proofs of the statements about generation in both forms (spec files 41, 42, 60). -/

namespace Sys2Proof.Machine

/-! ### AM_Check, once it is known what is hit -/

/-- R94, R125: what `AM_Check` answers for an instruction that hits a vector, an abort vector or not. -/
def amOutcome (abort : Bool) (c : AMChoices) (v : View) (s : State) (a : Word) : AMResult :=
  if abort && s.el == eld s.cfg v s.ss s.cpsr.m && c.ignoreAbort then .noVC
  else if s.breakpointAt a && c.takeBreakpoint then .breakpoint
  else .vc a

theorem amOutcome_not_abort {c : AMChoices} {v : View} {s : State} {a : Word} :
    amOutcome false c v s a = if s.breakpointAt a && c.takeBreakpoint then .breakpoint else .vc a := by
  simp [amOutcome]

theorem amOutcome_abort {c : AMChoices} {v : View} {s : State} {a : Word} :
    amOutcome true c v s a =
      if s.el = eld s.cfg v s.ss s.cpsr.m ∧ c.ignoreAbort = true then .noVC
      else if s.breakpointAt a && c.takeBreakpoint then .breakpoint
      else .vc a := by
  simp [amOutcome]

/-- R125: away from ELD it is all one whether an abort vector is hit. -/
theorem amOutcome_of_el_ne {abort : Bool} {c : AMChoices} {v : View} {s : State} {a : Word}
    (h : s.el ≠ eld s.cfg v s.ss s.cpsr.m) :
    amOutcome abort c v s a = if s.breakpointAt a && c.takeBreakpoint then .breakpoint else .vc a := by
  simp [amOutcome, h]

/-- Whether one of the elements at an address is an abort vector. -/
theorem vectorsAt_abort_true {l : List CatchVector} {a : Word}
    (h : ∃ e ∈ l, e.addr = a ∧ (e.xtype = .prefetchAbort ∨ e.xtype = .dataAbort)) :
    (vectorsAt l a).any (·.xtype.isAbort) = true := by
  simpa only [vectorsAt_any_abort, XType.isAbort_iff] using h

theorem vectorsAt_abort_false {l : List CatchVector} {a : Word}
    (h : ∀ e ∈ l, e.addr = a → e.xtype ≠ .prefetchAbort ∧ e.xtype ≠ .dataAbort) :
    (vectorsAt l a).any (·.xtype.isAbort) = false := by
  simpa only [vectorsAt_no_abort, XType.isAbort_eq_false_iff] using h

section hit
variable {c : AMChoices} {v : View} {s : State} {a : Word} (happ : s.amApplies = true)
include happ

/-- R93: an instruction at a compared vector. -/
theorem amCheck_at_vector {len : Nat} {isT32 : Bool} (he : ∃ e ∈ amSubset s.cfg v s.ss, e.addr = a) :
    amCheck c v s a len isT32 = amOutcome ((vectorsAt (amSubset s.cfg v s.ss) a).any (·.xtype.isAbort)) c v s a :=
  amCheck_exact c v s a len isT32 happ he

/-- R91: a half match that is taken. -/
theorem amCheck_before_vector (hn : ∀ e ∈ amSubset s.cfg v s.ss, e.addr ≠ a)
    (he : ∃ e ∈ amSubset s.cfg v s.ss, e.addr = a + 2) (hc : c.halfMatch = true) :
    amCheck c v s a 4 true =
      amOutcome ((vectorsAt (amSubset s.cfg v s.ss) (a + 2)).any (·.xtype.isAbort)) c v s a :=
  amCheck_half c v s a happ hn he hc

end hit

/-- R81, R91: with no vector at the address, and no half match, nothing is generated. -/
theorem amCheck_no_vector {c : AMChoices} {v : View} {s : State} {a : Word} {len : Nat} {isT32 : Bool}
    (h : ∀ e ∈ amSubset s.cfg v s.ss, e.addr ≠ a ∧ ¬(isT32 = true ∧ len = 4 ∧ c.halfMatch = true ∧ e.addr = a + 2)) :
    amCheck c v s a len isT32 = .noVC := by
  by_contra hne
  obtain ⟨e, he, ha | ha⟩ := exists_vector_of_amCheck_ne hne
  · exact (h e he).1 ha
  · exact (h e he).2 ha

/-! ### ET_Check -/

theorem etApplies_iff (s : State) : s.etApplies = true ↔
    s.cfg.form = .exceptionTrapping ∧ s.usingAArch32Regime = true ∧ s.debugExceptionsEnabled = true := by
  simp [State.etApplies, and_assoc]

/-- R125: an abort entry whose vector is enabled. -/
theorem etCheck_abort {ignored : Bool} {v : View} {s : State} {x : XType} {m : Mode} {ss : SecurityState}
    {b : EnableBit} (happ : s.etApplies = true) (hx : x = .prefetchAbort ∨ x = .dataAbort)
    (hb : enableBit (targetTable s.cfg m ss) x = some b) (hen : enabled s.cfg v.dbgvcr b = true) :
    etCheck ignored v s ⟨.x x, .mode m ss⟩ =
      if modeEL s.cfg ss m = eld s.cfg v s.ss s.cpsr.m ∧ ignored = true then none
      else some (vectorAddr s.cfg v (targetTable s.cfg m ss) x) := by
  have habort : x.isAbort = true := (XType.isAbort_iff x).2 hx
  simp [etCheck, happ, EType.isAbort, habort, Target.el, etVector, etTable, hb, hen]

/-! ### The statements -/

/-- Settles O30: the choice is consulted for an abort vector at ELD only. -/
theorem abortVectorsAtTheDebugTargetLevel : Obligations.AbortVectorsAtTheDebugTargetLevel := by
  refine ⟨fun c v s a len isT32 happ habort hb => ?_, fun ignored v s x m ss b happ hx hb hen =>
    etCheck_abort happ hx hb hen⟩
  have he : ∃ e ∈ amSubset s.cfg v s.ss, e.addr = a := habort.imp fun _ ⟨he, ha, _⟩ => ⟨he, ha⟩
  rw [amCheck_at_vector happ he, vectorsAt_abort_true habort, amOutcome_abort]
  simp [hb]

/-- Settles O34: at a vector that is no abort vector no choice is left, and with none near nothing is hit. -/
theorem exactMatchIsCertain : Obligations.ExactMatchIsCertain := by
  refine ⟨fun c v s a len isT32 happ he hno hb => ?_, fun c v s a len isT32 h => ?_⟩
  · rw [amCheck_at_vector happ he, vectorsAt_abort_false hno, amOutcome_not_abort]
    simp [hb]
  · exact amCheck_no_vector fun e he => ⟨(h e he).1, fun ⟨ht, hlen, _, ha⟩ => (h e he).2 ⟨ht, hlen, ha⟩⟩

/-- Settles O35: the half match is taken or not, and then an abort vector at ELD is ignored or not. -/
theorem halfMatchIsAChoice : Obligations.HalfMatchIsAChoice := by
  intro c v s a happ hn he
  refine ⟨fun hc => ?_, fun hc hb hno => ?_, fun hc hb habort hel => ?_, ?_⟩
  · exact amCheck_no_vector fun e he => ⟨hn e he, by simp [hc]⟩
  · rw [amCheck_before_vector happ hn he hc]
    rcases hno with hno | hel
    · rw [vectorsAt_abort_false hno, amOutcome_not_abort]
      simp [hb]
    · rw [amOutcome_of_el_ne hel]
      simp [hb]
  · rw [amCheck_before_vector happ hn he hc, vectorsAt_abort_true habort, amOutcome_abort]
    simp [hb, hel]
  · exact amCheck_no_vector fun e he => ⟨hn e he, by simp⟩

/-- R94: a debug exception taken with another method of entry differs in DBGDSCRext.MOE alone. -/
theorem takeDebugRouted_moe {v : View} {moe : BitVec 4} {pra : Word} {s t : State}
    (h : takeDebugRouted v moe pra s = .next t) (moe' : BitVec 4) :
    takeDebugRouted v moe' pra s = .next { t with syn := { t.syn with moe := moe' } } := by
  unfold takeDebugRouted at h ⊢
  split at h
  · cases h
  · rename_i h1
    rw [if_neg h1]
    split at h
    · rename_i h2
      cases h
      rw [if_pos h2]
      rfl
    · rename_i h2
      cases h
      rw [if_neg h2]
      rfl

/-- Settles O37: what is hit decides whether the vector catch may be ignored, and then the tie is open. -/
theorem breakpointTie : Obligations.BreakpointTie := by
  refine ⟨fun c v s a len isT32 happ hb he => ⟨fun hno => ?_, fun habort => ?_⟩,
    fun c v s a happ hb hn he hc => ⟨fun hno => ?_, fun habort => ?_⟩, fun s len hb hvc hf => ?_,
    fun pra s t hform h => ?_, fun pra s t hform h => ?_⟩
  · rw [amCheck_at_vector happ he, vectorsAt_abort_false hno, amOutcome_not_abort, hb, Bool.true_and]
  · rw [amCheck_at_vector happ he, vectorsAt_abort_true habort, amOutcome_abort, hb, Bool.true_and]
  · rw [amCheck_before_vector happ hn he hc, vectorsAt_abort_false hno, amOutcome_not_abort, hb, Bool.true_and]
  · rw [amCheck_before_vector happ hn he hc, vectorsAt_abort_true habort, amOutcome_abort, hb, Bool.true_and]
  · simp [State.checkCommit, hvc, hb, hf, debugOutcome, commitOutcome, highestFetch]
  · have hview : s.breakpointView = s.view := by simp [State.breakpointView, hform]
    rw [takeBreakpoint, hview]
    exact takeDebugRouted_moe h moeBreakpoint
  · have hview : s.breakpointView = s.ctl.current := by simp [State.breakpointView, hform]
    rw [takeBreakpoint, hview]
    exact takeDebugRouted_moe h moeBreakpoint

/-- Settles O40: what generates is an entry of a type of R66 to an AArch32 mode, under the guards of R111. -/
theorem entryGeneratesTheCatch : Obligations.EntryGeneratesTheCatch := by
  intro ignored v s e w
  constructor
  · intro h
    obtain ⟨x, m, ss, -, rfl, -⟩ := entry_of_etCheck h
    obtain ⟨happ, hno, b, hb, hen, hw⟩ := (etCheck_mode ..).1 h
    obtain ⟨hform, hr, hd⟩ := (etApplies_iff s).1 happ
    exact ⟨hform, hr, hd, m, ss, x, b, rfl, hb, hen, hw.symm, hno⟩
  · rintro ⟨hform, hr, hd, m, ss, x, b, rfl, hb, hen, rfl, hno⟩
    exact (etCheck_mode ..).2 ⟨(etApplies_iff s).2 ⟨hform, hr, hd⟩, hno, b, hb, hen, rfl⟩

end Sys2Proof.Machine
end

section
/-! SUPPORT. Proofs of the statements about taking the Vector Catch exception (spec file 60). -/

namespace Sys2Proof.Machine

/-! ### Routing -/

theorem hypExists_iff (cfg : Config) (ss : SecurityState) :
    hypExists cfg ss = true ↔ cfg.el2 = .a32 ∧ (cfg.el3 = .absent ∨ ss = .nonSecure) := by
  simp [hypExists]

theorem routeToHyp_iff (cfg : Config) (v : View) (ss : SecurityState) (m : Mode) :
    routeToHyp cfg v ss m = true ↔ hypExists cfg ss = true ∧ m ≠ .hyp ∧ (v.tge = true ∨ v.tde = true) := by
  simp [routeToHyp, and_assoc]

/-- R116: the debug target Exception level of a state not routed to Hyp mode is that of the PL1 modes. -/
theorem eld_of_not_routed {cfg : Config} {v : View} {ss : SecurityState} {m : Mode}
    (h : routeToHyp cfg v ss m = false) : eld cfg v ss m = modeEL cfg ss .abort := by
  simp [eld, h, modeEL]

/-- Settles O46: the three cases of ELD are tested in this order. -/
theorem routingAndDebugTarget : Obligations.RoutingAndDebugTarget := by
  refine fun cfg v ss m => ⟨?_, fun h => ?_, fun h h3 hss => ?_, fun h hno => ?_⟩
  · rw [routeToHyp_iff, hypExists_iff, and_assoc]
  · simp [eld, h]
  · rw [eld, if_neg (by simp [h])]
    simp [h3, hss]
  · rw [eld, if_neg (by simp [h])]
    simpa using hno

/-! ### The two entries of a debug exception -/

/-- R115, R128: refused where it is routed to EL2 using AArch64. -/
theorem takeDebugRouted_refused {v : View} {moe : BitVec 4} {pra : Word} {s : State} (h2 : s.cfg.el2 = .a64)
    (hr : s.routedToAArch64EL2 = true) : takeDebugRouted v moe pra s = .refused .routedToAArch64EL2 := by
  simp [takeDebugRouted, h2, hr]

/-- R113, R128: with nothing routing it elsewhere a debug exception is taken to Abort mode. -/
theorem takeDebugRouted_toAbort {v : View} {moe : BitVec 4} {pra : Word} {s : State}
    (hno : ¬(s.cfg.el2 = .a64 ∧ s.routedToAArch64EL2 = true)) (hr : routeToHyp s.cfg v s.ss s.cpsr.m = false) :
    takeDebugRouted v moe pra s =
      .next (enterMode .abort s.ss (.x .prefetchAbort) (pra + 4) (abortSyndrome moe s)) := by
  rw [takeDebugRouted, if_neg (by simpa using hno), if_neg (by simp [hr])]
  rfl

/-- R114: Hyp mode exists only where EL2 is using AArch32. -/
theorem takeDebugRouted_routed {v : View} {moe : BitVec 4} {pra : Word} {s : State}
    (hr : routeToHyp s.cfg v s.ss s.cpsr.m = true) :
    takeDebugRouted v moe pra s = .next (enterHyp s.ss .hypTrap (pra.setWidth 64) (hypSyndrome moe s)) :=
  takeDebugRouted_toHyp v moe pra s ((hypExists_iff _ _).1 ((routeToHyp_iff _ _ _ _).1 hr).1).1 hr

/-- What a debug exception that ends in Abort mode leaves. -/
theorem takeVC_abort {pra : Word} {s t : State} (h : takeVC pra s = .next t) (hm : t.cpsr.m = .abort) :
    routeToHyp s.cfg s.view s.ss s.cpsr.m = false ∧
      t = enterMode .abort s.ss (.x .prefetchAbort) (pra + 4) (abortSyndrome moeVectorCatch s) := by
  obtain ⟨-, rfl⟩ | h := takeDebugRouted_next _ _ _ _ _ h
  · cases hm
  · exact h

/-- What a debug exception that ends in Hyp mode leaves. -/
theorem takeVC_hyp {pra : Word} {s t : State} (h : takeVC pra s = .next t) (hm : t.cpsr.m = .hyp) :
    routeToHyp s.cfg s.view s.ss s.cpsr.m = true ∧
      t = enterHyp s.ss .hypTrap (pra.setWidth 64) (hypSyndrome moeVectorCatch s) := by
  obtain h | ⟨-, rfl⟩ := takeDebugRouted_next _ _ _ _ _ h
  · exact h
  · cases hm

/-- R70, R131: the Prefetch Abort vector of the current Security state's Local table. -/
theorem entryVector_prefetchAbort (s : State) (ss : SecurityState) :
    entryVector s (targetTable s.cfg .abort ss) (.x .prefetchAbort) =
      vectorAddr s.cfg s.ctl.current (targetTable s.cfg .abort ss) .prefetchAbort := by
  obtain ⟨b, hb⟩ := exists_enableBit_local s.cfg (m := .abort) ss (by simp) (by simp) (x := .prefetchAbort) (by simp)
  exact entryVector_of_enableBit hb

/-- Settles O51: what is refused is what R128 tests first. -/
theorem refusedOnlyToAArch64EL2 : Obligations.RefusedOnlyToAArch64EL2 := by
  refine fun pra s => ⟨fun h2 hr => takeDebugRouted_refused h2 hr, fun hno => ?_⟩
  cases hr : routeToHyp s.cfg s.view s.ss s.cpsr.m with
  | true => exact ⟨_, takeDebugRouted_routed hr, rfl, .inr rfl, rfl⟩
  | false => exact ⟨_, takeDebugRouted_toAbort hno hr, rfl, .inl rfl, rfl⟩

/-- Settles O47: the entry to Abort mode and its syndrome. -/
theorem takenToAbortMode : Obligations.TakenToAbortMode :=
  fun _ _ hr hno => ⟨_, takeDebugRouted_toAbort hno hr, rfl, rfl, rfl, rfl, rfl, rfl⟩

/-- R120 to R122: the HSR of a debug exception, field by field and as a word (K5). -/
theorem hsrDebug_fields :
    hsrDebug.ec = 0x20 ∧ hsrDebug.il = 1 ∧ hsrDebug.iss.extractLsb' 10 15 = 0 ∧ hsrDebug.iss.getLsbD 9 = false ∧
      hsrDebug.iss.extractLsb' 6 3 = 0 ∧ hsrDebug.iss.extractLsb' 0 6 = 0b100010 ∧ hsrDebug.toWord = 0x82000022 := by
  decide

/-- Settles O48: the entry to Hyp mode and its syndrome. -/
theorem takenToHypMode : Obligations.TakenToHypMode := by
  intro pra s hr
  obtain ⟨hec, hil, h10, h9, h6, h0, hword⟩ := hsrDebug_fields
  exact ⟨_, takeDebugRouted_routed hr, rfl, rfl, rfl, rfl, hec, hil, h10, h9, h6, h0, hword, rfl, rfl, rfl, rfl, rfl⟩

/-- Settles O49: the entry to Abort mode, field by field. -/
theorem abortEntryMechanics : Obligations.AbortEntryMechanics := by
  intro pra s t h hm
  obtain ⟨-, rfl⟩ := takeVC_abort h hm
  refine ⟨rfl, rfl, ?_, ?_, rfl, rfl, rfl, rfl, rfl, rfl, rfl, rfl, rfl, rfl, rfl, rfl, rfl, fun _ => rfl⟩
  · simp [entrySetsA, entrySetsF]
  · rw [enterMode_pc, abortSyndrome_cfg, ← targetTable_pl1 s.cfg (m := .abort) s.ss (by simp) (by simp)]
    exact congrArg (BitVec.setWidth 64) (entryVector_prefetchAbort s s.ss)

/-- Settles O50: the entry to Hyp mode, field by field. -/
theorem hypEntryMechanics : Obligations.HypEntryMechanics := by
  intro pra s t h hm
  obtain ⟨-, rfl⟩ := takeVC_hyp h hm
  refine ⟨rfl, ?_, rfl, ⟨_, _, _, rfl⟩, rfl, rfl, rfl, rfl, rfl, rfl, rfl, rfl, rfl, rfl, rfl, rfl, rfl, fun _ => rfl⟩
  simp

/-! ### Where the pc is -/

/-- R34: in AArch32 an aligned pc is an address of 32 bits. -/
theorem setWidth_addr {s : State} (hx : s.exec = .aarch32) (h : s.pcAligned = true) : s.addr.setWidth 64 = s.pc := by
  rw [pcAligned_iff, hx] at h
  obtain ⟨hlt, -⟩ := h
  apply BitVec.eq_of_toNat_eq
  simp only [State.addr, BitVec.toNat_setWidth]
  omega

/-- R105: in a well-formed state an entry of a type its table has an enable bit for left the PE at its vector. -/
theorem entered_at_vector {s : State} {x : XType} {m : Mode} {ss : SecurityState} {b : EnableBit} (hwf : s.WF = true)
    (he : s.entered = some ⟨.x x, .mode m ss⟩) (hb : enableBit (targetTable s.cfg m ss) x = some b) :
    s.synced = true ∧ s.exec = .aarch32 ∧ s.addr = vectorAddr s.cfg s.ctl.current (targetTable s.cfg m ss) x := by
  obtain ⟨-, -, -, -, -, -, -, hfits⟩ := (wf_parts s).1 hwf
  simp only [State.enteredFits, he, hb, Bool.and_eq_true, beq_iff_eq] at hfits
  obtain ⟨⟨⟨⟨hsync, hx⟩, -⟩, -⟩, haddr⟩ := hfits
  exact ⟨hsync, hx, haddr⟩

/-- Settles O52: the entry left the PE at the vector that the check reports. -/
theorem trappedVectorIsThePc : Obligations.TrappedVectorIsThePc := by
  intro s e ignored w hwf he h
  obtain ⟨x, m, ss, b, rfl, hb⟩ := entry_of_etCheck h
  obtain ⟨hsync, hx, haddr⟩ := entered_at_vector hwf he hb
  obtain ⟨-, -, b', -, -, hw⟩ := (etCheck_mode ..).1 h
  have hwa : w = s.addr := by rw [haddr, ← hw, view_of_synced s hsync]
  obtain ⟨-, -, -, -, -, hpc, -⟩ := (wf_parts s).1 hwf
  exact ⟨hwa, by rw [hwa, setWidth_addr hx hpc]⟩

/-! ### Recursion (R133) -/

/-- R82, R83: in every Security state the table of an entry to Abort mode is compared. -/
theorem amTable_abort (cfg : Config) (ss : SecurityState) : amTable cfg ss (targetTable cfg .abort ss) = true := by
  rw [targetTable_pl1 cfg ss (by simp) (by simp)]
  cases h3 : cfg.el3 <;> cases ss <;> simp [amTable, h3]

/-- R115: outside Hyp mode the mode does not matter to the routing. -/
theorem routeToHyp_mode {cfg : Config} {v : View} {ss : SecurityState} {m m' : Mode} (hm : m ≠ .hyp) (hm' : m' ≠ .hyp) :
    routeToHyp cfg v ss m = routeToHyp cfg v ss m' := by
  rw [Bool.eq_iff_iff, routeToHyp_iff, routeToHyp_iff]
  simp only [hm, hm', ne_eq, not_false_eq_true]

/-- The Prefetch Abort vector that an entry to Abort mode used is compared while its bit is enabled. -/
theorem exists_amSubset_prefetchAbort {cfg : Config} {v : View} {ss : SecurityState} {b : EnableBit}
    (hb : enableBit (targetTable cfg .abort ss) .prefetchAbort = some b) (hen : enabled cfg v.dbgvcr b = true) :
    ∃ e ∈ amSubset cfg v ss, e.addr = vectorAddr cfg v (targetTable cfg .abort ss) .prefetchAbort ∧
      (e.xtype = .prefetchAbort ∨ e.xtype = .dataAbort) := by
  refine ⟨⟨b, targetTable cfg .abort ss, .prefetchAbort, _⟩, (mem_amSubset ..).2 ⟨?_, amTable_abort cfg ss⟩, rfl, .inl rfl⟩
  exact (mem_enabledSet_iff ..).2 ⟨targetTable_mem_tables cfg .abort ss (by simp) (by simp), hb, hen, rfl⟩

/-- Settles O53: an entry to Abort mode leaves the PE at the Prefetch Abort vector with ELD its own level, and Hyp mode is
exempt in both forms. -/
theorem recursiveLoop : Obligations.RecursiveLoop := by
  refine ⟨fun pra s t b len isT32 c ignored hsync hm h htm hd hb hen => ?_, fun pra s t c ignored a len isT32 h htm => ?_⟩
  · obtain ⟨hr, ht⟩ := takeVC_abort h htm
    rw [view_of_synced s hsync, routeToHyp_mode (m' := .abort) hm (by simp)] at hr
    have hcfg : t.cfg = s.cfg := by rw [ht]; rfl
    have hss : t.ss = s.ss := by rw [ht]; rfl
    have hview : t.view = s.ctl.current := by rw [ht]; exact Controls.view_sync _ _
    have hregime : t.usingAArch32Regime = true := (usingAArch32Regime_iff t).2 ⟨by rw [ht]; rfl, .inl (by simp [htm])⟩
    have haddr : t.addr = vectorAddr s.cfg s.ctl.current (targetTable s.cfg .abort s.ss) .prefetchAbort := by
      rw [← entryVector_prefetchAbort, ht]
      exact BitVec.setWidth_setWidth_of_le _ (by decide)
    have held : eld t.cfg t.view t.ss t.cpsr.m = modeEL s.cfg s.ss .abort := by
      rw [hcfg, hss, hview, htm, eld_of_not_routed hr]
    refine ⟨fun hform => ?_, fun hform hbrk => ?_⟩
    · have happ : t.etApplies = true := (etApplies_iff t).2 ⟨hcfg ▸ hform, hregime, hd⟩
      rw [etCheck_abort happ (.inl rfl) (hcfg ▸ hb) (by rw [hcfg, hview]; exact hen), held, hcfg, hview, ← haddr]
      simp
    · have happ : t.amApplies = true := (amApplies_iff t).2 ⟨hcfg ▸ hform, hregime, by simp [htm], hd⟩
      have hex := exists_amSubset_prefetchAbort (v := s.ctl.current) hb hen
      rw [← haddr, ← hview, ← hcfg, ← hss] at hex
      have hel : t.el = modeEL s.cfg s.ss .abort := by
        rw [el_of_aarch32 t ((usingAArch32Regime_iff t).1 hregime).1, hcfg, hss, htm]
      rw [(abortVectorsAtTheDebugTargetLevel).1 c t.view t t.addr len isT32 happ hex hbrk, held, hel]
      simp
  · obtain ⟨-, rfl⟩ := takeVC_hyp h htm
    refine ⟨fun e he => ?_, amCheck_off _ _ _ _ _ _ (amApplies_of_hyp _ htm)⟩
    cases he
    exact (entriesNeverTrapped ignored _ _).1 _ _

end Sys2Proof.Machine
end

section
/-! SUPPORT. Proofs of the statements about what an entry leaves behind: the return from it (spec file 60) and the further
entries it lets through (spec file 42). -/

namespace Sys2Proof.Machine

/-! ### Entry, then return (R131, R132) -/

/-- R132: a return from a mode other than Monitor mode stays in the Security state. -/
theorem returnSS_of_not_monitor {t : State} (hx : t.exec = .aarch32) (hm : t.cpsr.m ≠ .monitor) (m : Mode) :
    returnSS t .aarch32 m = t.ss := by
  simp [returnSS, hx, hm]

/-- R34, R45: the address of an aligned pc is a return address that gives the pc back. -/
theorem alignPc_addr {s : State} (hx : s.exec = .aarch32) (h : s.pcAligned = true) :
    alignPc .aarch32 s.cpsr.t (s.addr.setWidth 64) = s.pc := by
  rw [setWidth_addr hx h]
  have h' := h
  rw [State.pcAligned, hx, beq_iff_eq] at h'
  exact h'.symm

/-- R12: no mode but Hyp mode is more privileged than Abort mode in a legal state. -/
theorem rank_le_abort {s : State} (hx : s.exec = .aarch32) (hl : s.legalContext = true) (hm : s.cpsr.m ≠ .hyp) :
    s.el.rank ≤ (modeEL s.cfg s.ss .abort).rank := by
  rw [el_of_aarch32 s hx]
  simp only [State.legalContext, hx] at hl
  cases hmode : s.cpsr.m with
  | user => exact Nat.zero_le _
  | hyp => exact absurd hmode hm
  | monitor =>
    simp only [hmode, Bool.and_eq_true, beq_iff_eq] at hl
    simp [modeEL, hl]
  | _ => exact le_rfl

/-- R12: where Hyp mode exists no mode of a legal state is more privileged. -/
theorem rank_le_hyp {s : State} (hx : s.exec = .aarch32) (hl : s.legalContext = true)
    (hh : hypExists s.cfg s.ss = true) : s.el.rank ≤ EL.el2.rank := by
  have hno : ¬(s.cfg.el3 = .a32 ∧ s.ss = .secure) := by
    rintro ⟨h3, hss⟩
    simp [hypExists_iff, h3, hss] at hh
  rw [el_of_aarch32 s hx]
  simp only [State.legalContext, hx] at hl
  cases hmode : s.cpsr.m with
  | user => exact Nat.zero_le _
  | hyp => exact le_rfl
  | monitor =>
    simp only [hmode, Bool.and_eq_true, beq_iff_eq] at hl
    exact absurd hl hno
  | _ =>
    rw [modeEL, if_neg (by simpa using hno)]
    decide

/-- R132: the return to an interrupted legal state from a mode that is no less privileged and of its Security state. -/
theorem restore_interrupted {s t : State} (hx : s.exec = .aarch32) (hpc : s.pcAligned = true)
    (hl : s.legalContext = true) (htx : t.exec = .aarch32) (htm : t.cpsr.m ≠ .monitor) (hcfg : sameConfig s t)
    (hss : t.ss = s.ss) (hel : s.el.rank ≤ t.el.rank) :
    restore .aarch32 s.cpsr (s.addr.setWidth 64) t =
      .next { t with cpsr := s.cpsr, pc := s.pc, ctl := t.ctl.sync, draws := t.draws + 1 } := by
  obtain ⟨hc, h1, h0⟩ := hcfg
  have hu : restored .aarch32 s.cpsr (s.addr.setWidth 64) t =
      { t with cpsr := s.cpsr, pc := s.pc, ctl := t.ctl.sync, draws := t.draws + 1 } := by
    simp [restored, alignPc_addr hx hpc, returnSS_of_not_monitor htx htm, State.gprAfter, htx]
  rw [restore, hu, if_pos]
  rw [Bool.and_eq_true, decide_eq_true_eq]
  constructor
  · rw [← hl]
    simp only [State.legalContext, htx, hx, hc, h1, h0, hss]
  · refine le_trans (le_of_eq ?_) hel
    simp only [State.el, htx, hx, hc, hss]

theorem returnSubs_of_abort {t : State} (hx : t.exec = .aarch32) (hm : t.cpsr.m = .abort) (imm : Word) :
    returnSubs imm t = restore .aarch32 t.spsr.abt ((t.gpr[27] - imm).setWidth 64) t := by
  simp [returnSubs, hx, hm, SavedPsrs.read, lrIndex]

theorem returnEret_of_hyp {t : State} (hx : t.exec = .aarch32) (hm : t.cpsr.m = .hyp) :
    returnEret t = restore .aarch32 t.spsr.hyp (t.elrHyp.setWidth 64) t := by
  simp [returnEret, hx, hm]

/-- Settles O54: the saved status and the return address are those of the instruction, and the mode entered is no less
privileged and returns to its own Security state. -/
theorem entryThenReturnRestores : Obligations.EntryThenReturnRestores := by
  intro s t hwf hregime hm h
  obtain ⟨hx, -⟩ := (usingAArch32Regime_iff s).1 hregime
  obtain ⟨-, -, hl, -, -, hpc, -, -⟩ := (wf_parts s).1 hwf
  refine ⟨fun htm => ?_, fun htm => ?_⟩
  · obtain ⟨-, rfl⟩ := takeVC_abort h htm
    have hback := restore_interrupted
      (t := enterMode .abort s.ss (.x .prefetchAbort) (s.addr + 4) (abortSyndrome moeVectorCatch s))
      hx hpc hl rfl (by simp) ⟨rfl, rfl, rfl⟩ rfl (rank_le_abort hx hl hm)
    refine ⟨_, ((returnSubs_of_abort rfl rfl 4).trans ?_).trans hback, ?_⟩
    · simp [lrIndex, SavedPsrs.write]
    · simp [hx, lrIndex, SavedPsrs.write]
  · obtain ⟨hr, rfl⟩ := takeVC_hyp h htm
    have hback := restore_interrupted
      (t := enterHyp s.ss .hypTrap (s.addr.setWidth 64) (hypSyndrome moeVectorCatch s))
      hx hpc hl rfl (by simp [freeMasks]) ⟨rfl, rfl, rfl⟩ rfl (rank_le_hyp hx hl ((routeToHyp_iff ..).1 hr).1)
    refine ⟨_, ((returnEret_of_hyp rfl rfl).trans ?_).trans hback, ?_⟩
    · simp [SavedPsrs.write]
    · simp [hx, SavedPsrs.write]

/-! ### Nothing to trap while HCR.TGE is 1 (R109) -/

/-- R110: an entry to Hyp mode or to an Exception level using AArch64 generates nothing. -/
theorem etCheck_hyp (ignored : Bool) (v : View) (s : State) (et : EType) (ss : SecurityState) :
    etCheck ignored v s ⟨et, .mode .hyp ss⟩ = none :=
  (entriesNeverTrapped ignored v s).1 et ss

theorem etCheck_aarch64 (ignored : Bool) (v : View) (s : State) (et : EType) (el : EL) :
    etCheck ignored v s ⟨et, .aarch64 el⟩ = none :=
  (entriesNeverTrapped ignored v s).2.2.1 et el

/-- Log entry 17: while HCR.TGE is 1 the host PE takes no exception to a Non-secure PL1 mode. -/
theorem hostException_not_trapped {e : Entry} {len : Nat} {s t : State} (h : hostException e len s = .next t)
    (hh : hypExists t.cfg t.ss = true) (ht : s.ctl.tge.cur = true) (ignored : Bool) (v : View) :
    etCheck ignored v t e = none := by
  refine Option.eq_none_iff_forall_ne_some.2 fun w hw => ?_
  obtain ⟨x, m, ss, b, rfl, hb⟩ := entry_of_etCheck hw
  obtain ⟨⟨pra, link, rfl⟩, hallowed, hlegal, -⟩ := hostException_next _ len s t h
  cases m with
  | user | system => cases hallowed
  | hyp => simp [targetTable] at hb
  | monitor =>
    have hh' : hypExists s.cfg ss = true := by simpa [takeException] using hh
    obtain ⟨h3, rfl⟩ : s.cfg.el3 = .a32 ∧ ss = .secure := by
      simpa using (legal_enterMode_iff .monitor ss (.x x) link (hostSyndrome ⟨.x x, .mode .monitor ss⟩ s)).1 hlegal
    simp [hypExists_iff, h3] at hh'
  | fiq | irq | supervisor | abort | undefined =>
    have hh' : hypExists s.cfg ss = true := by simpa [takeException] using hh
    simp only [targetAllowed, Bool.and_eq_true, beq_iff_eq] at hallowed
    obtain ⟨rfl, hno⟩ := hallowed
    simp [hh', ht] at hno

/-- An Undefined Instruction exception stays in its Security state. -/
theorem raiseUndefined_ss (s : State) : (raiseUndefined s).ss = s.ss := by
  unfold raiseUndefined undefEntry
  split
  · rfl
  · split
    · rfl
    · split <;> rfl

/-- Log entry 16: while HCR.TGE is 1 the Undefined Instruction exception of an access goes to Hyp mode, or to an Exception
level using AArch64. -/
theorem raiseUndefined_not_trapped {s : State} (hh : hypExists s.cfg s.ss = true) (ht : s.ctl.tge.cur = true)
    (ignored : Bool) (v : View) : etCheck ignored v (raiseUndefined s) (undefEntry s) = none := by
  unfold undefEntry
  split
  · exact etCheck_aarch64 ..
  · split
    · exact etCheck_aarch64 ..
    · rw [if_pos (by simp [hh, ht])]
      exact etCheck_hyp ..

/-- R115: a debug exception routed by values of the controls in which HCR.TGE is 1 goes to Hyp mode. -/
theorem takeDebugRouted_not_trapped {v : View} {moe : BitVec 4} {pra : Word} {s t : State} {e : Entry}
    (h : takeDebugRouted v moe pra s = .next t) (he : t.entered = some e) (hm : s.cpsr.m ≠ .hyp)
    (hh : hypExists t.cfg t.ss = true) (ht : v.tge = true) (ignored : Bool) (v' : View) :
    etCheck ignored v' t e = none := by
  obtain ⟨-, rfl⟩ | ⟨hr, rfl⟩ := takeDebugRouted_next v moe pra s t h
  · cases he
    exact etCheck_hyp ..
  · have hroute : routeToHyp s.cfg v s.ss s.cpsr.m = true := (routeToHyp_iff ..).2 ⟨hh, hm, .inl ht⟩
    simp [hroute] at hr

/-- What a debug exception and an exception of the host PE leave of HCR.TGE. -/
theorem takeDebugRouted_tge {v : View} {moe : BitVec 4} {pra : Word} {s t : State}
    (h : takeDebugRouted v moe pra s = .next t) : t.ctl.tge.cur = s.ctl.tge.cur := by
  obtain ⟨-, rfl⟩ | ⟨-, rfl⟩ := takeDebugRouted_next v moe pra s t h <;> rfl

theorem hostException_tge {e : Entry} {len : Nat} {s t : State} (h : hostException e len s = .next t) :
    t.ctl.tge.cur = s.ctl.tge.cur := by
  obtain ⟨⟨pra, link, rfl⟩, -⟩ := hostException_next e len s t h
  simp

theorem hostException_entered {e : Entry} {len : Nat} {s t : State} (h : hostException e len s = .next t) :
    t.entered = some e := by
  obtain ⟨⟨pra, link, rfl⟩, -⟩ := hostException_next e len s t h
  simp

/-- The entry of a host exception made by the step generates nothing. -/
theorem hostException_entry_not_trapped {e e' : Entry} {len : Nat} {s t : State} (h : hostException e len s = .next t)
    (he : t.entered = some e') (hh : hypExists t.cfg t.ss = true) (ht : t.ctl.tge.cur = true) (ignored : Bool)
    (v : View) : etCheck ignored v t e' = none := by
  obtain rfl : e = e' := Option.some.inj ((hostException_entered h).symm.trans he)
  exact hostException_not_trapped h hh (hostException_tge h ▸ ht) ignored v

/-- An instruction of the opcode table that takes an exception has raised Undefined. -/
theorem exec_entry_not_trapped {i : Instr} {s t : State} {e : Entry} (h : exec i s = .next t) (hn : s.entered = none)
    (he : t.entered = some e) (hh : hypExists t.cfg t.ss = true) (ht : t.ctl.tge.cur = true) (ignored : Bool)
    (v : View) : etCheck ignored v t e = none := by
  obtain rfl | rfl | ⟨k, x, rfl⟩ | ⟨n, x, rfl⟩ | ⟨-, w, rfl⟩ := exec_next i s t h
  · simp [hn] at he
  · obtain rfl : undefEntry s = e := by simpa [raiseUndefined] using he
    refine raiseUndefined_not_trapped ?_ ?_ ignored v
    · rw [raiseUndefined_ss] at hh
      simpa [raiseUndefined] using hh
    · simpa [raiseUndefined] using ht
  all_goals simp [hn] at he

/-- An instruction outside the opcode table that ends with an entry takes an exception of the host PE. -/
theorem hostRun_entry_not_trapped {eff : HostEffect} {len : Nat} {s t : State} {e : Entry}
    (h : hostRun eff len s = .next t) (hn : s.entered = none) (he : t.entered = some e)
    (hh : hypExists t.cfg t.ss = true) (ht : t.ctl.tge.cur = true) (ignored : Bool) (v : View) :
    etCheck ignored v t e = none := by
  obtain ⟨u, hf, -, -, -, -, hent, -⟩ := hostRun_flow h
  have hun : u.entered = none := hent.trans hn
  obtain rfl | rfl | ⟨a, b, rfl⟩ | ⟨e', -, h'⟩ | ⟨x, p, target, rfl⟩ := hostFlow_next hf
  · simp [hun] at he
  · simp [hun] at he
  · simp [hun] at he
  · exact hostException_entry_not_trapped h' he hh ht ignored v
  · simp [restored, hun] at he

/-- R95: a Vector Catch exception comes of the next instruction only if its check generated one. -/
theorem commitOutcome_vectorCatch {p : List FetchClass} {dbg : Option Commit} {l : List FetchException}
    (h : commitOutcome p dbg l = .vectorCatch) : dbg = some .vectorCatch := by
  unfold commitOutcome at h
  split at h
  · cases h
  · cases h
  · rw [h]
  · split at h
    · cases h
    · rw [h]

/-- R81: with no match the check of the next instruction reports no Vector Catch exception. -/
theorem checkCommit_ne_vectorCatch {s : State} {len : Nat}
    (h : amCheck (amChoices s.draws) s.view s s.addr len s.cpsr.t = .noVC) : s.checkCommit len ≠ .vectorCatch := by
  intro hc
  have hdbg := commitOutcome_vectorCatch hc
  rw [h] at hdbg
  cases hb : s.breakpointAt s.addr <;> simp [debugOutcome, hb] at hdbg

/-- A debug exception that a step takes, in the exception-trapping form, is routed by the newest HCR.TGE. -/
theorem commitNext_entry_not_trapped {eff : Option HostEffect} {s t : State} {e : Entry}
    (h : commitNext eff s = .next t) (hform : s.cfg.form = .exceptionTrapping) (hn : s.entered = none)
    (he : t.entered = some e) (hh : hypExists t.cfg t.ss = true) (ht : t.ctl.tge.cur = true) (ignored : Bool)
    (v : View) : etCheck ignored v t e = none := by
  rcases commitNext_next eff s t h with ⟨hc, -⟩ | ⟨hc, h'⟩ | ⟨e', -, h'⟩ | ⟨-, i, left, -, h'⟩ | ⟨-, x, -, h'⟩
  · have hvc := amCheck_off (amChoices s.draws) s.view s s.addr s.instrLength s.cpsr.t
      (amApplies_of_exceptionTrapping s hform)
    exact absurd hc (checkCommit_ne_vectorCatch hvc)
  · have hview : s.tick.breakpointView = s.ctl.current := by simp [State.breakpointView, hform]
    rw [takeBreakpoint, hview] at h'
    exact takeDebugRouted_not_trapped h' he (checkCommit_debug s _ (.inr hc)).2 hh
      ((takeDebugRouted_tge h').symm.trans ht) ignored v
  · exact hostException_entry_not_trapped h' he hh ht ignored v
  · exact exec_entry_not_trapped h' hn he hh ht ignored v
  · exact hostRun_entry_not_trapped h' hn he hh ht ignored v

/-- Settles O45: whatever a step takes while HCR.TGE is 1 goes to Hyp mode, to an Exception level using AArch64 or to a
Secure mode, and in the address-matching form no entry is tested. -/
theorem tgeLeavesNothingToTrap : Obligations.TgeLeavesNothingToTrap := by
  refine ⟨fun e len s t ignored _ ht h hh => hostException_not_trapped h hh ht ignored _,
    fun s ignored hh ht _ => raiseUndefined_not_trapped hh ht ignored _, fun s t e ignored hwf h he hh ht => ?_⟩
  obtain ⟨hcfg, -⟩ := configurationIsFixed s t h
  cases hform : s.cfg.form with
  | addressMatching => exact etCheck_off _ _ _ _ (etApplies_of_addressMatching t (hcfg ▸ hform))
  | exceptionTrapping =>
    rcases step_next_cases h with ⟨e', a, he', ha, h'⟩ | ⟨-, rest, ⟨e', h'⟩ | ⟨p, rfl⟩ | ⟨eff, -, h'⟩⟩
    · obtain ⟨-, hm⟩ := et_facts _ _ s e' a hwf he' ha
      obtain ⟨x, m, ss, b, rfl, hb⟩ := entry_of_etCheck ha
      obtain ⟨hsync, -⟩ := entered_at_vector hwf he' hb
      have hview : s.tick.view.tge = s.tick.ctl.tge.cur := by rw [view_of_synced s.tick hsync]; rfl
      exact takeDebugRouted_not_trapped h' he hm hh (hview.trans ((takeDebugRouted_tge h').symm.trans ht)) ignored _
    · exact hostException_entry_not_trapped h' he hh ht ignored _
    · simp at he
    · exact commitNext_entry_not_trapped h' (by simpa using hform) (by simp) he hh ht ignored _

end Sys2Proof.Machine
end
